-- ==== Sys2Proof/Word.lean ====
section
/-!
DEFINITION. The words of the protocol encoder: bytes, nibbles, line ids, Unicode scalars and graphemes
(00_scope R10, 10_state R20, 41_character_table R147).
-/

namespace Sys2Proof

/-- A byte: 8 bits, bit 0 least significant (R10). -/
abbrev Byte := BitVec 8

/-- A nibble: "4-bit half of a byte" (R10). -/
abbrev Nibble := BitVec 4

/-- A line id: an opaque identifier the bus collaborator understands; the encoder never computes with
it (R20). -/
abbrev LineId := Nat

/-- A grapheme: a list of Unicode scalar values, already cut by the host (R147). -/
abbrev Grapheme := List Nat

/-- The value a `BusError` carries: opaque, passed through unchanged (R212, U18). -/
abbrev BusErrorValue := Nat

end Sys2Proof
end

