-- ==== Sys2Proof/Syntax.lean ====
section
/-!
DEFINITION. The syntax: the configuration mapping, the request word with its operands, the words of
emitted transfers, and Instr, one constructor per row of the opcode table (30_encoding R81 to R85).
-/

namespace Sys2Proof

/-- The configuration input: "a mapping with keys `rs, en, rw(optional), d0..d7(optional), rows, cols,
font_5x10(optional bool)`" (R20).  `none` is an absent key; `rs` and `en` may be absent too, which
`start` reports (R21, V70). -/
structure ConfigInput where
  rs : Option LineId := none
  en : Option LineId := none
  rw : Option LineId := none
  d0 : Option LineId := none
  d1 : Option LineId := none
  d2 : Option LineId := none
  d3 : Option LineId := none
  d4 : Option LineId := none
  d5 : Option LineId := none
  d6 : Option LineId := none
  d7 : Option LineId := none
  rows : Int := 0
  cols : Int := 0
  font5x10 : Option Bool := none
deriving DecidableEq, Repr

/-- One constructor per row of spec/opcode_table.json.
Requests (REQ6): `start` to `reservedCapability`.  Emitted instruction bytes (IR8): the `ir…`
constructors.  Emitted data bytes (DR8): `dataChar`, `dataBitmapRow`.  ForceMode nibbles (NIB4):
`forceNibble8bit`, `forceNibble4bit`. -/
inductive Instr where
  | start (config : ConfigInput)
  | stop
  | clear
  | home
  | write (text : List Grapheme)
  | setCursor (row col : Int)
  | scroll (n : Int)
  | moveLeft (n : Int)
  | moveRight (n : Int)
  | enable (feature : String)
  | disable (feature : String)
  | createChar (idx : Int) (bitmap : List Int)
  | unrecognised101x (x : BitVec 1)
  | unrecognised11xx (x : BitVec 2)
  | reservedCapability
  | irClear
  | irHome
  | irEntryMode (i s : Bool)
  | irDisplayControl (d c b : Bool)
  | irCursorShift (m r : Bool)
  | irFunctionSet (w n f : Bool)
  | irSetCgram (idx : BitVec 3)
  | irSetDdram (a : BitVec 7)
  | dataChar (c : Byte)
  | dataBitmapRow (b : Byte)
  | forceNibble8bit
  | forceNibble4bit
deriving DecidableEq, Repr

/-- The operands carried beside a request word (R82), one slot per operand of R81.  A word reads only the
slots of its own format; the values given here are the operands "of zeros". -/
structure Operands where
  config : ConfigInput := {}
  text : List Grapheme := []
  row : Int := 0
  col : Int := 0
  n : Int := 0
  feature : String := ""
  idx : Int := 0
  bitmap : List Int := [0, 0, 0, 0, 0, 0, 0, 0]
deriving DecidableEq, Repr

/-- A request as the host hands it over: the 6-bit word `{capability, op_tag}` and the operands beside it
(R82). -/
structure Request where
  word : BitVec 6
  operands : Operands := {}
deriving DecidableEq, Repr

/-- The two kinds of data byte, "not distinguishable on the bus" (R85): only the sender knows which. -/
inductive DataKind where
  | char
  | bitmapRow
deriving DecidableEq, Repr

/-- The word of one emitted transfer: an instruction byte (IR8), a data byte (DR8) or an unpaired nibble
(NIB4). -/
inductive EmitWord where
  | ir8 (b : Byte)
  | dr8 (kind : DataKind) (b : Byte)
  | nib4 (v : Nibble)
deriving DecidableEq, Repr

/-- A word of the opcode table together with the format it is read in. -/
inductive InstrWord where
  | request (r : Request)
  | emitted (e : EmitWord)
deriving DecidableEq, Repr

end Sys2Proof
end

