-- ==== Sys2Proof/Config.lean ====
section
/-!
DEFINITION. What an implementation fixes: the constant and timing parameters of a build (00_scope R7 to R9,
30_encoding R91, 40_bus_primitives R120), their defaults, and the free values.
-/

namespace Sys2Proof

/-- The names of the four shadow registers, the general registers of this hardware (R24). -/
inductive Shadow where
  | functionSet
  | displayControl
  | entryMode
  | shiftControl
deriving DecidableEq, Repr

/-- The instruction codes and flag masks the source leaves symbolic, and the two initial bytes (R8). -/
structure Codes where
  clear : Byte
  home : Byte
  cmdEntryMode : Byte
  emIncrement : Byte
  emShift : Byte
  cmdDisplayControl : Byte
  dcDisplay : Byte
  dcCursor : Byte
  dcBlink : Byte
  cmdCursorShift : Byte
  csDisplayMove : Byte
  csRight : Byte
  cmdFunctionSet : Byte
  fs8bit : Byte
  fs2line : Byte
  fs5x10 : Byte
  entryModeInit : Byte
  shiftControlInit : Byte
deriving DecidableEq, Repr

/-- The four waits in milliseconds, each a minimum (R9). -/
structure Timing where
  tEn : Nat
  tForce : Nat
  tClear : Nat
  tReset : Nat
deriving DecidableEq, Repr

/-- A row of `FEATURES`: the owning register and the bitmask (R91). -/
structure Feature where
  owner : Shadow
  mask : Byte
deriving DecidableEq, Repr

/-- `LOWCODE_POLICY` (R146). -/
inductive LowcodePolicy where
  | refuse
  | passthrough
  | fallback
deriving DecidableEq, Repr

/-- `TRANSPORT` (R7); where its value comes from is log 20. -/
inductive Transport where
  | discrete
  | combined
deriving DecidableEq, Repr

/-- The three parameters of the combined transport (R120).  `BITPOS` is a total map from line ids to 0..7,
written as a finite table and one position for every line id the table does not list. -/
structure CombinedParams where
  regAddress : Nat
  bitposTable : List (LineId × Fin 8)
  bitposOther : Fin 8
  backlightMask : Byte
deriving DecidableEq, Repr

/-- The constant parameters, "one value per build of the encoder" (R8), with the timing of R9 and the
transport of R7.  That `TRANSPORT` is one of them is the model's (DESIGN CHOICE, log 20): R7 heads it "one
value per run, from the configuration input", and the configuration input of R20 has no such key; so no
`start` chooses or changes it. -/
structure Build where
  codes : Codes
  timing : Timing
  features : List (String × Feature)
  /-- The keys of `CHAR_TABLE` beyond the one of R141, each with the number of its code in R140's
  codomain of 49 codes; a row whose key is no multi-byte grapheme is no entry (R140; log 2). -/
  charTable : List (Grapheme × Fin 49)
  lowcode : LowcodePolicy
  transport : Transport
  combined : Option CombinedParams
deriving DecidableEq, Repr

/-- `SET_DDRAM`, printed by the source (R8). -/
def Config.setDdram : Byte := 0x80

/-- `SET_CGRAM`, printed by the source (R8). -/
def Config.setCgram : Byte := 0x40

/-- `FALLBACK`, printed by the source (R8, R144). -/
def Config.fallback : Byte := 0x3F

/-- The one key of `CHAR_TABLE` the source prints: U+25B6 followed by U+FE0E (R141). -/
def Config.triangle : Grapheme := [0x25B6, 0xFE0E]

/-- The code of that key (R141). -/
def Config.triangleCode : Byte := 0x10

/-- FREE VALUE (log 2): the content of `CHAR_TABLE` beyond the key of R141 is OPEN (D7).  No body: nothing
can be proved about which graphemes it lists. -/
opaque Config.charTableRest : List (Grapheme × Fin 49)

/-- FREE VALUE (log 3): whether the `k`-th failing bus call left the new level behind (`true`) or the old
one (`false`); the spec leaves it unspecified (R217, U9). -/
opaque Config.failedCallTookEffect : Nat → Bool

/-- The defaults of R8, marked GK there (PRESUMED, the HD44780 family's; log 1). -/
def Codes.default : Codes where
  clear := 0x01
  home := 0x02
  cmdEntryMode := 0x04
  emIncrement := 0x02
  emShift := 0x01
  cmdDisplayControl := 0x08
  dcDisplay := 0x04
  dcCursor := 0x02
  dcBlink := 0x01
  cmdCursorShift := 0x10
  csDisplayMove := 0x08
  csRight := 0x04
  cmdFunctionSet := 0x20
  fs8bit := 0x10
  fs2line := 0x08
  fs5x10 := 0x04
  entryModeInit := 0x06
  shiftControlInit := 0x10

/-- The minima of R9. -/
def Timing.default : Timing where
  tEn := 1
  tForce := 5
  tClear := 20
  tReset := 50

/-- The default `FEATURES` table of R91 (log 1). -/
def Config.featuresDefault : List (String × Feature) :=
  [("display", ⟨.displayControl, 0x04⟩),
   ("cursor", ⟨.displayControl, 0x02⟩),
   ("blink", ⟨.displayControl, 0x01⟩),
   ("autoscroll", ⟨.entryMode, 0x01⟩)]

/-- The build at reset: every parameter at the spec's default, the character table open (log 1, log 2). -/
def Build.default : Build where
  codes := Codes.default
  timing := Timing.default
  features := Config.featuresDefault
  charTable := Config.charTableRest
  lowcode := .refuse
  transport := .discrete
  combined := none

/-- The configuration of program P1 (95_test_vectors): 4-bit, 2 x 16. -/
def Config.panelP1 : ConfigInput where
  rs := some 25
  en := some 24
  d4 := some 23
  d5 := some 17
  d6 := some 27
  d7 := some 22
  rows := 2
  cols := 16

end Sys2Proof
end

