-- ==== Sys2Proof/WellFormed.lean ====
section
/-!
DEFINITION. Which instructions are well formed: the operand types of 30_encoding R81 that Instr's fields
do not carry themselves.  The numbers and lists whose admitted part R81 states (`n`, `idx`, `bitmap`) are
of their type at every value.  A `write` that is not well formed is answered `unsupported` (R89; log 5).
-/

namespace Sys2Proof

/-- A Unicode scalar value: 0..0x10FFFF without the surrogates. -/
def scalarWellFormed (c : Nat) : Bool :=
  decide (c < 0xD800) || (decide (0xE000 ≤ c) && decide (c ≤ 0x10FFFF))

/-- "a grapheme is a non-empty finite list of Unicode scalar values" (R81). -/
def graphemeWellFormed (g : Grapheme) : Bool :=
  !g.isEmpty && g.all scalarWellFormed

/-- Well-formedness of an instruction.  Only a text can miss its type; a DATA_CHAR word is well formed at
every byte of its pattern (log 15). -/
def Instr.wellFormed : Instr → Bool
  | .start _ => true
  | .stop => true
  | .clear => true
  | .home => true
  | .write text => text.all graphemeWellFormed
  | .setCursor _ _ => true
  | .scroll _ => true
  | .moveLeft _ => true
  | .moveRight _ => true
  | .enable _ => true
  | .disable _ => true
  | .createChar _ _ => true
  | .unrecognised101x _ => true
  | .unrecognised11xx _ => true
  | .reservedCapability => true
  | .irClear => true
  | .irHome => true
  | .irEntryMode _ _ => true
  | .irDisplayControl _ _ _ => true
  | .irCursorShift _ _ => true
  | .irFunctionSet _ _ _ => true
  | .irSetCgram _ => true
  | .irSetDdram _ => true
  | .dataChar _ => true
  | .dataBitmapRow _ => true
  | .forceNibble8bit => true
  | .forceNibble4bit => true

end Sys2Proof
end

