-- ==== Sys2Proof/Decode.lean ====
section
/-!
DEFINITION. Decoding and encoding of the words of the opcode table (30_encoding R82, R84, R85, 70_reset
R243): the decoder is total and rejects by name; the encoder gives each instruction its word.
-/

namespace Sys2Proof

/-- Why a word is rejected. -/
inductive DecodeError where
  /-- No row of the IR8 patterns holds the byte (R84, R90). -/
  | noInstructionByte (b : Byte)
  /-- The nibble is neither of the two ForceMode nibbles (R243). -/
  | noForceNibble (v : Nibble)
deriving DecidableEq, Repr

/-! ## Requests (REQ6) -/

/-- The capability of a request word: bits 5..4 (R82). -/
def capabilityOf (w : BitVec 6) : BitVec 2 := w.extractLsb' 4 2

/-- The operation tag of a request word: bits 3..0 (R82). -/
def opTagOf (w : BitVec 6) : BitVec 4 := w.extractLsb' 0 4

/-- The Operation of a tag, 0000 `clear` to 1001 `create_char`, then the unrecognised tags (R82). -/
def operationOf (tag : BitVec 4) (o : Operands) : Instr :=
  match tag.toNat with
  | 0 => .clear
  | 1 => .home
  | 2 => .write o.text
  | 3 => .setCursor o.row o.col
  | 4 => .scroll o.n
  | 5 => .moveLeft o.n
  | 6 => .moveRight o.n
  | 7 => .enable o.feature
  | 8 => .disable o.feature
  | 9 => .createChar o.idx o.bitmap
  | 10 => .unrecognised101x 0
  | 11 => .unrecognised101x 1
  | _ => .unrecognised11xx (tag.extractLsb' 0 2)

/-- A request word with its operands: 00 start, 01 stop (the tag is ignored for both), 10 execute, 11
reserved (R82). -/
def decodeRequest (r : Request) : Instr :=
  match (capabilityOf r.word).toNat with
  | 0 => .start r.operands.config
  | 1 => .stop
  | 2 => operationOf (opTagOf r.word) r.operands
  | _ => .reservedCapability

/-! ## Emitted words (IR8, DR8, NIB4) -/

/-- An emitted instruction byte, by the patterns of R84 (their default codes). -/
def decodeIr8 (b : Byte) : Except DecodeError Instr :=
  if b = 0x01 then .ok .irClear
  else if b = 0x02 then .ok .irHome
  else if b &&& 0xFC = 0x04 then .ok (.irEntryMode (b.getLsbD 1) (b.getLsbD 0))
  else if b &&& 0xF8 = 0x08 then .ok (.irDisplayControl (b.getLsbD 2) (b.getLsbD 1) (b.getLsbD 0))
  else if b &&& 0xF3 = 0x10 then .ok (.irCursorShift (b.getLsbD 3) (b.getLsbD 2))
  else if b &&& 0xE3 = 0x20 then .ok (.irFunctionSet (b.getLsbD 4) (b.getLsbD 3) (b.getLsbD 2))
  else if b &&& 0xC7 = 0x40 then .ok (.irSetCgram (b.extractLsb' 3 3))
  else if b &&& 0x80 = 0x80 then .ok (.irSetDdram (b.extractLsb' 0 7))
  else .error (.noInstructionByte b)

/-- An unpaired ForceMode nibble (R243, its default values). -/
def decodeNib4 (v : Nibble) : Except DecodeError Instr :=
  if v = 0x3 then .ok .forceNibble8bit
  else if v = 0x2 then .ok .forceNibble4bit
  else .error (.noForceNibble v)

/-- An emitted word in its format. -/
def decodeEmitted : EmitWord → Except DecodeError Instr
  | .ir8 b => decodeIr8 b
  | .dr8 .char b => .ok (.dataChar b)
  | .dr8 .bitmapRow b => .ok (.dataBitmapRow b)
  | .nib4 v => decodeNib4 v

/-- The decoder, total on every word of every format. -/
def decode : InstrWord → Except DecodeError Instr
  | .request r => .ok (decodeRequest r)
  | .emitted e => decodeEmitted e

/-! ## The encoder -/

/-- One bit in place `k` of a byte. -/
def bitAt (v : Bool) (k : Nat) : Byte := (if v then 1#8 else 0#8) <<< k

/-- The word of each instruction; ignored bits are zero, unused operand slots keep their zeros. -/
def encode : Instr → InstrWord
  | .start config => .request ⟨0b000000, { config := config }⟩
  | .stop => .request ⟨0b010000, {}⟩
  | .clear => .request ⟨0b100000, {}⟩
  | .home => .request ⟨0b100001, {}⟩
  | .write text => .request ⟨0b100010, { text := text }⟩
  | .setCursor row col => .request ⟨0b100011, { row := row, col := col }⟩
  | .scroll n => .request ⟨0b100100, { n := n }⟩
  | .moveLeft n => .request ⟨0b100101, { n := n }⟩
  | .moveRight n => .request ⟨0b100110, { n := n }⟩
  | .enable feature => .request ⟨0b100111, { feature := feature }⟩
  | .disable feature => .request ⟨0b101000, { feature := feature }⟩
  | .createChar idx bitmap => .request ⟨0b101001, { idx := idx, bitmap := bitmap }⟩
  | .unrecognised101x x => .request ⟨0b10101#5 ++ x, {}⟩
  | .unrecognised11xx x => .request ⟨0b1011#4 ++ x, {}⟩
  | .reservedCapability => .request ⟨0b110000, {}⟩
  | .irClear => .emitted (.ir8 0x01)
  | .irHome => .emitted (.ir8 0x02)
  | .irEntryMode i s => .emitted (.ir8 (0x04 ||| bitAt i 1 ||| bitAt s 0))
  | .irDisplayControl d c b => .emitted (.ir8 (0x08 ||| bitAt d 2 ||| bitAt c 1 ||| bitAt b 0))
  | .irCursorShift m r => .emitted (.ir8 (0x10 ||| bitAt m 3 ||| bitAt r 2))
  | .irFunctionSet w n f => .emitted (.ir8 (0x20 ||| bitAt w 4 ||| bitAt n 3 ||| bitAt f 2))
  | .irSetCgram idx => .emitted (.ir8 (0b01#2 ++ idx ++ 0b000#3))
  | .irSetDdram a => .emitted (.ir8 (0b1#1 ++ a))
  | .dataChar c => .emitted (.dr8 .char c)
  | .dataBitmapRow b => .emitted (.dr8 .bitmapRow b)
  | .forceNibble8bit => .emitted (.nib4 0x3)
  | .forceNibble4bit => .emitted (.nib4 0x2)

/-! ## The table's bare words -/

/-- Whether a 6-bit word is the canonical word of its request (ignored bits zero). -/
def canonicalRequestWord (w : BitVec 6) : Bool :=
  match encode (decodeRequest ⟨w, {}⟩) with
  | .request r => decide (r.word = w)
  | .emitted _ => false

/-- Whether an emitted word decodes. -/
def emittedDecodes (e : EmitWord) : Bool :=
  match decodeEmitted e with
  | .ok _ => true
  | .error _ => false

/-- The format a bare word of the opcode table is read in (log 8).  The table's four formats overlap and a
bare word does not name its format: 6 bits are a request, 4 bits a nibble; in a whole byte a request's
canonical word comes first, then an instruction byte, then a nibble, and a request word with ignored bits
set last. -/
def tableWord (nbits w : Nat) : Option InstrWord :=
  if nbits = 6 then
    if w < 64 then some (.request ⟨BitVec.ofNat 6 w, {}⟩) else none
  else if nbits = 4 then
    if w < 16 then some (.emitted (.nib4 (BitVec.ofNat 4 w))) else none
  else if w < 64 && canonicalRequestWord (BitVec.ofNat 6 w) then
    some (.request ⟨BitVec.ofNat 6 w, {}⟩)
  else if w < 256 && emittedDecodes (.ir8 (BitVec.ofNat 8 w)) then
    some (.emitted (.ir8 (BitVec.ofNat 8 w)))
  else if w < 16 && emittedDecodes (.nib4 (BitVec.ofNat 4 w)) then
    some (.emitted (.nib4 (BitVec.ofNat 4 w)))
  else if w < 64 then some (.request ⟨BitVec.ofNat 6 w, {}⟩)
  else if w < 256 then some (.emitted (.ir8 (BitVec.ofNat 8 w)))
  else none

/-- The instruction the decoder reads from a bare word of the opcode table, operands of zeros. -/
def decodeTableWord (nbits w : Nat) : Option Instr :=
  match tableWord nbits w with
  | none => none
  | some iw =>
    match decode iw with
    | .ok i => some i
    | .error _ => none

end Sys2Proof
end

