-- ==== Sys2Proof/Machine/State.lean ====
section
/-!
DEFINITION. The state of the protocol encoder as plain data: control state, the DisplayState, the bus
collaborator's line levels, the outputs (event trace and replies) and the inputs still to come
(10_state R20 to R40, 20_memory R69, 60_exceptions R210).
-/

namespace Sys2Proof.Machine

/-- The control state (R30): the states of the Initialization Sequencer (R241), `off` (no DisplayState
exists) and `faulted` (a bus call has failed and the block has not been re-initialised). -/
inductive Phase where
  | off
  | reset
  | forceMode
  | configureFunction
  | configureDisplay
  | clear
  | configureEntryMode
  | configureShiftControl
  | ready
  | faulted
deriving DecidableEq, Repr

/-- `BUS_MODE` (R21). -/
inductive BusMode where
  | four
  | eight
deriving DecidableEq, Repr

/-- The assigned data lines: `d4..d7`, or `d0..d7` (R21). -/
inductive DataLines where
  | four (d4 d5 d6 d7 : LineId)
  | eight (d0 d1 d2 d3 d4 d5 d6 d7 : LineId)
deriving DecidableEq, Repr

/-- How the encoder reaches the bus: `TRANSPORT` with the parameters of R120 (R7). -/
inductive Wiring where
  | discrete
  | combined (p : CombinedParams)
deriving DecidableEq, Repr

/-- `DisplayConfig`: the validated configuration, "immutable thereafter" (R20); `BUS_MODE` follows from
`data` (R21). -/
structure DisplayConfig where
  rs : LineId
  en : LineId
  rw : Option LineId
  data : DataLines
  rows : Int
  cols : Int
  font5x10 : Bool
  wiring : Wiring
deriving DecidableEq, Repr

/-- The four shadow registers (R24), each the whole instruction byte (R26). -/
structure Shadows where
  functionSet : Byte
  displayControl : Byte
  entryMode : Byte
  shiftControl : Byte
deriving DecidableEq, Repr

/-- `DisplayState`: "DisplayConfig plus live shadow registers" (R24). -/
structure DisplayState where
  cfg : DisplayConfig
  sh : Shadows
deriving DecidableEq, Repr

/-- The line levels `level[·]` (R32) as (line id, level) pairs in canonical form: ids strictly rising; an
id that is not listed is `unknown`.  This is the one addressed store of the model (log 9). -/
abbrev Memory := List (LineId × Bool)

/-- The four waits (R9). -/
inductive Wait where
  | tEn
  | tForce
  | tClear
  | tReset
deriving DecidableEq, Repr

/-- An event of the trace (R69). -/
inductive Event where
  | line (l : LineId) (v : Bool)
  | reg (address : Nat) (v : Byte)
  | wait (t : Wait)
  | fail
deriving DecidableEq, Repr

/-- Which requirement a `ConfigurationError` reports (R21, R210). -/
inductive ConfigFault where
  | missingPins
  | partialLowNibble
deriving DecidableEq, Repr

/-- The result of one request: the tag with its cause (R210, codes 0 to 4; what the causes carry is
DEDUCED, log 16). -/
inductive Reply where
  | ok
  | unsupported
  | configurationError (why : ConfigFault)
  | busError (e : BusErrorValue)
  | initializationError (e : BusErrorValue) (state : Phase)
deriving DecidableEq, Repr

/-- What the bus collaborator answers to one bus call (R52, R53). -/
inductive BusAnswer where
  | ok
  | error (e : BusErrorValue)
deriving DecidableEq, Repr

/-- Why the machine stops with a fault. -/
inductive Fault where
  /-- Raised by `withDisplay`, on behalf of every meaning that needs the DisplayState, when the phase says
  that one exists and there is none (R38: a register that does not exist has no value).  No run reaches
  such a state (log 18).  Safe: the model stops where it could only invent a value. -/
  | noDisplayState
deriving DecidableEq, Repr

/-- Why an instruction or an input is refused. -/
inductive Refusal where
  /-- An instruction that has no meaning in this model yet, by its mnemonic; raised by `exec` alone.
  Safe. -/
  | notModelled (mnemonic : String)
  /-- Raised by the ten Operations and the unrecognised tags outside phase `ready`: "the model refuses
  them" (R161, D16).  Safe. -/
  | operationOutsideReady (phase : Phase)
  /-- Raised by `stop` outside phase `ready`: "a model refuses it" (R201).  Safe. -/
  | stopOutsideReady (phase : Phase)
  /-- Raised by `start` when the build's parameters break the constraints of R8, R9, R27 to R29, R91 or R119
  (log 12).  Safe. -/
  | parametersNotAdmitted
  /-- Raised by `start` on a configuration outside the domain of R23.  Safe. -/
  | configOutsideDomain
  /-- Raised by `start` when the transport is combined and its parameters are not given (R53).  Safe. -/
  | combinedWithoutParameters
  /-- Raised by `start` when the parameters of the combined transport break the constraints of R120.
  Safe. -/
  | combinedParametersNotAdmitted
  /-- Raised by `write` on a single-byte grapheme outside 0x20..0x7E under the policy `refuse` (R146).
  Safe. -/
  | lowcodeGrapheme
  /-- Raised by the reserved capability 11: "not a request: a model refuses it" (R82).  Safe. -/
  | reservedCapability
  /-- Raised by an emitted transfer in a phase in which the block never emits it (R57, R84, R90).  Safe. -/
  | emissionOutsideItsPhase (phase : Phase)
  /-- Raised by a ForceMode nibble in 8-bit mode, where the block sends none (R243).  Safe. -/
  | nibbleIn8bitMode
  /-- Raised by `step` on an emitted word no row of the table holds (R84, R243).  Safe. -/
  | undecodable (why : DecodeError)
deriving DecidableEq, Repr

/-- The state of the machine.  INVENTORY.md lists each piece with its rule. -/
structure State where
  build : Build
  phase : Phase
  display : Option DisplayState
  lines : Memory
  image : Byte
  trace : List Event
  replies : List Reply
  inbox : List Request
  busAnswers : List BusAnswer
  freeIx : Nat
  emission : Option EmitWord
deriving DecidableEq, Repr

/-- Power-on (R38, R240): phase `off`, no DisplayState, every line level unknown, nothing emitted, nothing
answered.  `build`: the defaults (log 1).  `image`, `inbox`, `busAnswers`, `freeIx` and `emission`:
DESIGN CHOICE (logs 3 to 7). -/
def State.reset : State where
  build := Build.default
  phase := .off
  display := none
  lines := []
  image := 0x00
  trace := []
  replies := []
  inbox := []
  busAnswers := []
  freeIx := 0
  emission := none

end Sys2Proof.Machine
end

