-- ==== Sys2Proof/Machine/Ops.lean ====
section
/-!
DEFINITION. The named operations on the state: line levels, shadow registers, outputs, one bus call, the
running of a request's statements, and the outcomes of a request (00_scope R11, 20_memory R52 to R54,
60_exceptions R210 to R219).
-/

namespace Sys2Proof.Machine

/-! ## Line levels -/

/-- The level of a line; `none` is `unknown` (R32). -/
def Memory.read : Memory → LineId → Option Bool
  | [], _ => none
  | (b, w) :: m, a => if a = b then some w else Memory.read m a

/-- Sets the level of one line and leaves every other line unchanged (R52). -/
def Memory.write : Memory → LineId → Bool → Memory
  | [], a, v => [(a, v)]
  | (b, w) :: m, a, v =>
    if a < b then (a, v) :: (b, w) :: m
    else if a = b then (a, v) :: m
    else (b, w) :: Memory.write m a v

/-- The canonical form: line ids strictly rising.  An unlisted line is unknown and no entry says so. -/
abbrev Memory.wf (m : Memory) : Prop := m.Pairwise (fun x y => x.1 < y.1)

/-! ## The DisplayState -/

/-- `BUS_MODE`, "a derived field of the configuration" (R21). -/
def DisplayConfig.busMode (c : DisplayConfig) : BusMode :=
  match c.data with
  | .four _ _ _ _ => .four
  | .eight _ _ _ _ _ _ _ _ => .eight

/-- The assigned data lines in ascending index. -/
def DataLines.ids : DataLines → List LineId
  | .four d4 d5 d6 d7 => [d4, d5, d6, d7]
  | .eight d0 d1 d2 d3 d4 d5 d6 d7 => [d0, d1, d2, d3, d4, d5, d6, d7]

/-- The lines the encoder drives: `rs`, `en` and every assigned data line; never `rw` (R32, R58). -/
def DisplayConfig.lineIds (c : DisplayConfig) : List LineId := c.rs :: c.en :: c.data.ids

/-- `sh[r]` (R11). -/
def Shadows.get (sh : Shadows) : Shadow → Byte
  | .functionSet => sh.functionSet
  | .displayControl => sh.displayControl
  | .entryMode => sh.entryMode
  | .shiftControl => sh.shiftControl

/-- `sh[r] <- v` (R11). -/
def Shadows.set (sh : Shadows) (r : Shadow) (v : Byte) : Shadows :=
  match r with
  | .functionSet => { sh with functionSet := v }
  | .displayControl => { sh with displayControl := v }
  | .entryMode => { sh with entryMode := v }
  | .shiftControl => { sh with shiftControl := v }

/-- `sh[r] <- v` in a DisplayState. -/
def DisplayState.setShadow (d : DisplayState) (r : Shadow) (v : Byte) : DisplayState :=
  { d with sh := d.sh.set r v }

/-! ## Updates of the state -/

/-- `phase <- P` (R11). -/
def State.setPhase (s : State) (p : Phase) : State := { s with phase := p }

/-- The DisplayState becomes `d`. -/
def State.setDisplay (s : State) (d : Option DisplayState) : State := { s with display := d }

/-- `sh[r] <- v` in the state; with no DisplayState there is no register to write (R38). -/
def State.assign (s : State) (r : Shadow) (v : Byte) : State :=
  { s with display := s.display.map (fun d => d.setShadow r v) }

/-- Appends an event to the trace (R69). -/
def State.emit (s : State) (e : Event) : State := { s with trace := s.trace ++ [e] }

/-- Returns a result to the host (R210). -/
def State.reply (s : State) (r : Reply) : State := { s with replies := s.replies ++ [r] }

/-- The port image becomes `v` (R120). -/
def State.setImage (s : State) (v : Byte) : State := { s with image := v }

/-- The level of line `l` becomes `v` (R52). -/
def State.setLine (s : State) (l : LineId) (v : Bool) : State := { s with lines := s.lines.write l v }

/-- The bus collaborator's answer to the next call (log 4). -/
def State.nextAnswer (s : State) : BusAnswer := s.busAnswers.headD .ok

/-- Consumes that answer. -/
def State.dropAnswer (s : State) : State := { s with busAnswers := s.busAnswers.tail }

/-- Consumes one free value (log 3). -/
def State.dropFree (s : State) : State := { s with freeIx := s.freeIx + 1 }

/-! ## One bus call -/

/-- The outcome of statements inside a request: they ran to their end, or a bus call raised `BusError`
(R212). -/
inductive Ran where
  | done (s : State)
  | failed (s : State) (e : BusErrorValue)
deriving DecidableEq, Repr

end Sys2Proof.Machine

namespace Sys2Proof

/-- `BITPOS(l)` (R120). -/
def CombinedParams.bitpos (p : CombinedParams) (l : LineId) : Fin 8 :=
  (p.bitposTable.lookup l).getD p.bitposOther

/-- `image <- (image & ~(1 << BITPOS(l))) | (v << BITPOS(l))` (R120). -/
def CombinedParams.place (p : CombinedParams) (image : Byte) (l : LineId) (v : Bool) : Byte :=
  (image &&& ~~~(bitAt true (p.bitpos l))) ||| bitAt v (p.bitpos l)

end Sys2Proof

namespace Sys2Proof.Machine

/-- The event of `BusLine(l, v)`: `Line(l, v)`, or for the combined transport
`Reg(REG_ADDRESS, image | BACKLIGHT_MASK)` with the new image (R69, R120). -/
def State.busEvent (s : State) (w : Wiring) (l : LineId) (v : Bool) : Event :=
  match w with
  | .discrete => .line l v
  | .combined p => .reg p.regAddress (p.place s.image l v ||| p.backlightMask)

/-- What a bus call that took effect leaves: the line's level, or the port image (R52, R120). -/
def State.busEffect (s : State) (w : Wiring) (l : LineId) (v : Bool) : State :=
  match w with
  | .discrete => s.setLine l v
  | .combined p => s.setImage (p.place s.image l v)

/-- What a bus call that failed leaves: its effect if it took effect, else nothing of it (R217, U9). -/
def State.busEffectIf (s : State) (took : Bool) (w : Wiring) (l : LineId) (v : Bool) : State :=
  { s with
    lines := if took then (s.busEffect w l v).lines else s.lines
    image := if took then (s.busEffect w l v).image else s.image }

/-- `BusLine(l, v)` (R11, R52, R120): the call is in the trace; on success it takes effect; on `BusError`
`Fail` follows it and whether it took effect is a free value (R217, U9; log 3). -/
def State.busLine (s : State) (w : Wiring) (l : LineId) (v : Bool) : Ran :=
  match s.nextAnswer with
  | .ok => .done ((s.busEffect w l v).dropAnswer.emit (s.busEvent w l v))
  | .error e =>
    .failed
      (((s.busEffectIf (Config.failedCallTookEffect s.freeIx) w l v).dropFree.dropAnswer.emit
        (s.busEvent w l v)).emit .fail) e

/-! ## The statements of a request -/

/-- One statement of the pseudocode once its operands are known (R11). -/
inductive Stmt where
  | line (l : LineId) (v : Bool)
  | wait (t : Wait)
  | assign (r : Shadow) (v : Byte)
  | phase (p : Phase)
deriving DecidableEq, Repr

/-- Runs one statement; only `BusLine` can fail (R11). -/
def runStmt (w : Wiring) (st : Stmt) (s : State) : Ran :=
  match st with
  | .line l v => s.busLine w l v
  | .wait t => .done (s.emit (.wait t))
  | .assign r v => .done (s.assign r v)
  | .phase p => .done (s.setPhase p)

/-- Runs statements in the order written; "a statement after a failing `BusLine` or `BusReg` is not
executed" (R11, R64, R212). -/
def runStmts (w : Wiring) : List Stmt → State → Ran
  | [], s => .done s
  | st :: rest, s =>
    match runStmt w st s with
    | .done s' => runStmts w rest s'
    | .failed s' e => .failed s' e

/-! ## Outcomes of a request -/

/-- The outcome type of every meaning. -/
abbrev Out := Host.Outcome State Fault Refusal

/-- TAKING A BUS ERROR (R212, R213, R217): `phase <- Faulted`, the state stays as assigned up to the failing
call, the result goes to the host.  Shared by every request. -/
def State.takeBusError (s : State) (r : Reply) : Out := .next ((s.setPhase .faulted).reply r)

/-- `return (ok, S)` (R160). -/
def State.returnOk (s : State) : Out := .next (s.reply .ok)

/-- `return (unsupported, S)`: no bus event, S unchanged (R160, R174, R214). -/
def State.returnUnsupported (s : State) : Out := .next (s.reply .unsupported)

/-- TAKING A CONFIGURATION ERROR (R211): no bus event, `phase = Off`, no DisplayState.  The port image stays
as it was: only a start whose checks pass sets it to 0x00 (R120, "when start begins", does not place it
before or after the checks of R200; DESIGN CHOICE, log 6). -/
def State.takeConfigurationError (s : State) (why : ConfigFault) : Out :=
  .next (((s.setPhase .off).setDisplay none).reply (.configurationError why))

/-- Hands the DisplayState to a meaning that needs one (R38). -/
def State.withDisplay (s : State) (k : DisplayState → Out) : Out :=
  match s.display with
  | some d => k d
  | none => .fault .noDisplayState

/-- The phase check of an Operation (R161, R216 check 1). -/
def State.inReady (s : State) (k : DisplayState → Out) : Out :=
  if s.phase = .ready then s.withDisplay k else .refused (.operationOutsideReady s.phase)

/-- Runs the statements of an Operation and returns `(ok, S')` or takes the bus error (R160). -/
def State.runOperation (s : State) (d : DisplayState) (body : List Stmt) : Out :=
  match runStmts d.cfg.wiring body s with
  | .done s' => s'.returnOk
  | .failed s' e => s'.takeBusError (.busError e)

end Sys2Proof.Machine
end

