-- ==== Sys2Proof/Machine/Flags.lean ====
section
/-!
DEFINITION. The flag computations: setting and clearing feature bits, and the assembly of the instruction
bytes from their flags (30_encoding R84, R86, R87, 40_bus_primitives R115, R116, 42_operations R170).
-/

namespace Sys2Proof.Machine

/-- "OR ... the bitmask into the named shadow register" (R115). -/
def setFlags (a m : Byte) : Byte := a ||| m

/-- "AND-NOT the bitmask" (R116). -/
def clearFlags (a m : Byte) : Byte := a &&& ~~~m

/-- A flag's mask if the flag is set. -/
def flag (v : Bool) (m : Byte) : Byte := if v then m else 0x00

end Sys2Proof.Machine

namespace Sys2Proof

open Sys2Proof.Machine

/-- The identifier bits of a shadow register's instruction (R26). -/
def Codes.identifier (c : Codes) : Shadow → Byte
  | .functionSet => c.cmdFunctionSet
  | .displayControl => c.cmdDisplayControl
  | .entryMode => c.cmdEntryMode
  | .shiftControl => c.cmdCursorShift

/-- "leading fixed bits up to and including the first `1`" (R84): bit 7 down to a code's most significant
set bit.  DESIGN CHOICE (log 12): a code 0x00 has no first 1, and all eight of its bits are leading bits. -/
def leadingBits (code : Byte) : Byte := 0xFF#8 <<< code.toNat.log2

/-- The identifier bits that a flag or a feature's mask must not touch (R8, R91): the leading bits of R84 and
the set bits of the code, which are among them for every code of one bit (log 12). -/
def Codes.identifierMask (c : Codes) (r : Shadow) : Byte := leadingBits (c.identifier r) ||| c.identifier r

/-- The flag bits of a shadow register, the fields of R27, R28 and R29; every other bit of it is fixed. -/
def Codes.flagBits (c : Codes) : Shadow → Byte
  | .functionSet => c.fs8bit ||| c.fs2line ||| c.fs5x10
  | .displayControl => c.dcDisplay ||| c.dcCursor ||| c.dcBlink
  | .entryMode => c.emIncrement ||| c.emShift
  | .shiftControl => c.csDisplayMove ||| c.csRight

/-- The flag bits a feature may own: all but `FS_8BIT`, of which "no Operation changes it" (R27; log 12). -/
def Codes.featureBits (c : Codes) : Shadow → Byte
  | .functionSet => c.fs2line ||| c.fs5x10
  | .displayControl => c.flagBits .displayControl
  | .entryMode => c.flagBits .entryMode
  | .shiftControl => c.flagBits .shiftControl

/-- `000001is` (R84). -/
def Codes.entryModeByte (c : Codes) (i s : Bool) : Byte :=
  c.cmdEntryMode ||| flag i c.emIncrement ||| flag s c.emShift

/-- `00001dcb` (R84). -/
def Codes.displayControlByte (c : Codes) (d cu b : Bool) : Byte :=
  c.cmdDisplayControl ||| flag d c.dcDisplay ||| flag cu c.dcCursor ||| flag b c.dcBlink

/-- `0001mr00`: the shift byte of R86 (c) and R170. -/
def Codes.shiftByte (c : Codes) (displayMove right : Bool) : Byte :=
  c.cmdCursorShift ||| flag displayMove c.csDisplayMove ||| flag right c.csRight

/-- `001wnf00`: the function-set byte (R87). -/
def Codes.functionSetByte (c : Codes) (eight twoLine tall : Bool) : Byte :=
  c.cmdFunctionSet ||| flag eight c.fs8bit ||| flag twoLine c.fs2line ||| flag tall c.fs5x10

/-- `fs`: the function-set value of a configuration (R87). -/
def Codes.functionSetOf (c : Codes) (cfg : DisplayConfig) : Byte :=
  c.functionSetByte (decide (cfg.busMode = .eight)) (decide (2 ≤ cfg.rows)) cfg.font5x10

/-- The "8-bit function set" nibble, in bits 7..4 (R87, R243). -/
def Codes.forceNibble8 (c : Codes) : Byte := (c.cmdFunctionSet ||| c.fs8bit) &&& 0xF0

/-- The "switch to 4-bit" nibble, in bits 7..4 (R87, R243). -/
def Codes.forceNibble4 (c : Codes) : Byte := c.cmdFunctionSet &&& 0xF0

end Sys2Proof
end

