-- ==== Sys2Proof/Machine/Operands.lean ====
section
/-!
DEFINITION. The operand forms: the configuration and the parameters (10_state R20 to R23, 00_scope R8, R9),
cursor addresses, glyph operands and feature names (42_operations R165, R166, R171, R173), and the character
table (41_character_table R140 to R146).
-/

namespace Sys2Proof.Machine

/-! ## The configuration -/

/-- The pin invariant (R21): `rs`, `en`, `d4..d7` are required; all of `d0..d3` select 8-bit mode, none
of them 4-bit mode, and one to three of them is a `ConfigurationError`. -/
def resolvePins (c : ConfigInput) : Except ConfigFault (LineId × LineId × DataLines) :=
  match c.rs, c.en, c.d4, c.d5, c.d6, c.d7 with
  | some rs, some en, some d4, some d5, some d6, some d7 =>
    match c.d0, c.d1, c.d2, c.d3 with
    | some d0, some d1, some d2, some d3 => .ok (rs, en, .eight d0 d1 d2 d3 d4 d5 d6 d7)
    | none, none, none, none => .ok (rs, en, .four d4 d5 d6 d7)
    | _, _, _, _ => .error .partialLowNibble
  | _, _, _, _, _, _ => .error .missingPins

/-- The DisplayConfig of an input whose pins are resolved; an absent font flag is false (R20). -/
def DisplayConfig.ofInput (c : ConfigInput) (pins : LineId × LineId × DataLines) (w : Wiring) :
    DisplayConfig where
  rs := pins.1
  en := pins.2.1
  rw := c.rw
  data := pins.2.2
  rows := c.rows
  cols := c.cols
  font5x10 := c.font5x10.getD false
  wiring := w

/-- The domain of `rows` and `cols` (R23). -/
def geometryAdmitted (rows cols : Int) : Bool :=
  decide (1 ≤ rows) && decide (rows ≤ 4) && decide (1 ≤ cols) &&
    (if rows ≤ 2 then decide (cols ≤ 64) else decide (cols ≤ 32))

/-- The whole domain of a configuration: geometry, and "rs, en and every assigned d<i> are pairwise
distinct line ids" (R23). -/
def DisplayConfig.inDomain (c : DisplayConfig) : Bool :=
  geometryAdmitted c.rows c.cols && decide c.lineIds.Nodup

/-- The wiring of a build, the same for every `start` (DESIGN CHOICE, log 20); none when the transport is
combined and its parameters are not given (R53, R120). -/
def wiringOf (b : Build) : Option Wiring :=
  match b.transport with
  | .discrete => some .discrete
  | .combined => b.combined.map .combined

/-- `BACKLIGHT_MASK`: "one bit, not in the image of BITPOS, or 0x00" (R120); the image is taken over the
driven lines (DEDUCED, log 13). -/
def backlightAdmitted (mask : Byte) (used : List (Fin 8)) : Bool :=
  decide (mask = 0x00) ||
    (List.finRange 8).any (fun k => decide (mask = bitAt true k) && !used.contains k)

/-- The constraints of R120: `BITPOS` injective on the driven lines, and the backlight mask. -/
def DisplayConfig.wiringAdmitted (c : DisplayConfig) : Bool :=
  match c.wiring with
  | .discrete => true
  | .combined p =>
    decide (c.lineIds.map p.bitpos).Nodup && backlightAdmitted p.backlightMask (c.lineIds.map p.bitpos)

/-! ## The parameters of a build -/

/-- Two masks share no bit. -/
def disjointMasks (a b : Byte) : Bool := decide (a &&& b = 0x00)

/-- A mask lies within the given bits. -/
def maskWithin (m bits : Byte) : Bool := decide (m &&& ~~~bits = 0x00)

/-- A register value holds the identifier of its instruction and nothing else outside its flags: the bits
R27, R28 and R29 fix. -/
def fixedBits (c : Codes) (r : Shadow) (v : Byte) : Bool := decide (v &&& ~~~(c.flagBits r) = c.identifier r)

/-- Masks that are pairwise disjoint. -/
def pairwiseDisjoint : List Byte → Bool
  | [] => true
  | m :: ms => ms.all (disjointMasks m) && pairwiseDisjoint ms

/-- "the flags of one register are disjoint from each other and from the identifier bits of that register"
(R8); in the two initial bytes only the flags are open, "per `ENTRY_MODE_INIT`" and "per
`SHIFT_CONTROL_INIT`" (R29; DEDUCED, log 12). -/
def codesAdmitted (c : Codes) : Bool :=
  pairwiseDisjoint [c.identifierMask .entryMode, c.emIncrement, c.emShift] &&
  pairwiseDisjoint [c.identifierMask .displayControl, c.dcDisplay, c.dcCursor, c.dcBlink] &&
  pairwiseDisjoint [c.identifierMask .shiftControl, c.csDisplayMove, c.csRight] &&
  pairwiseDisjoint [c.identifierMask .functionSet, c.fs8bit, c.fs2line, c.fs5x10] &&
  fixedBits c .entryMode c.entryModeInit && fixedBits c .shiftControl c.shiftControlInit

/-- The minima of R9; in particular "`T_EN = 0` ... is refused" (R119). -/
def timingAdmitted (t : Timing) : Bool :=
  decide (1 ≤ t.tEn) && decide (5 ≤ t.tForce) && decide (20 ≤ t.tClear) && decide (50 ≤ t.tReset)

/-- The constraints on `FEATURES`: "the mask is non-zero, 8 bits, and disjoint from the identifier bits of
its register" (R91); and no feature owns a bit R27, R28 or R29 fix, nor `FS_8BIT` (R27; DEDUCED, log 12). -/
def featuresAdmitted (c : Codes) (fs : List (String × Feature)) : Bool :=
  fs.all (fun f => decide (f.2.mask ≠ 0x00) && disjointMasks f.2.mask (c.identifierMask f.2.owner) &&
    maskWithin f.2.mask (c.featureBits f.2.owner))

/-- A build whose parameters meet the constraints of R8, R9, R27 to R29, R91 and R119. -/
def buildAdmitted (b : Build) : Bool :=
  codesAdmitted b.codes && timingAdmitted b.timing && featuresAdmitted b.codes b.features

/-- `FEATURES[f]`, none if `f` is not in its domain (R91, R171). -/
def featureOf (b : Build) (f : String) : Option Feature := b.features.lookup f

/-! ## Cursor addresses -/

/-- `clamp(x, lo, hi)` on integers (R11). -/
def clamp (x lo hi : Int) : Int := if x < lo then lo else if hi < x then hi else x

/-- `row_offset(r)`, the RowOffsetTable, for rows 0 to 3 (R166). -/
def rowOffset (cols r : Int) : Int :=
  if r = 0 then 0x00 else if r = 1 then 0x40 else if r = 2 then 0x00 + cols else 0x40 + cols

/-- The DDRAM address `a` of `set_cursor` (R165): the operands are clamped first. -/
def ddramAddress (c : DisplayConfig) (row col : Int) : Int :=
  rowOffset c.cols (clamp row 0 (c.rows - 1)) + clamp col 0 (c.cols - 1)

/-- `SET_DDRAM | a` (R86 a). -/
def setDdramByte (a : Int) : Byte := Config.setDdram ||| BitVec.ofInt 8 a

/-! ## Glyph operands -/

/-- The admission test of `create_char` (R173). -/
def glyphAdmitted (idx : Int) (bitmap : List Int) : Bool :=
  decide (0 ≤ idx) && decide (idx ≤ 7) && decide (bitmap.length = 8) &&
    bitmap.all (fun b => decide (0 ≤ b) && decide (b ≤ 255))

/-- `SET_CGRAM | (idx << 3)` (R86 b). -/
def setCgramByte (idx : Int) : Byte := Config.setCgram ||| (BitVec.ofInt 8 idx <<< 3)

/-- The bitmap's bytes, sent whole (R173). -/
def bitmapBytes (bitmap : List Int) : List Byte := bitmap.map (BitVec.ofInt 8)

/-! ## The nibbles of a byte -/

/-- `b & 0xF0` (R56). -/
def highNibble (b : Byte) : Byte := b &&& 0xF0

/-- `(b << 4) & 0xF0` (R56). -/
def lowNibble (b : Byte) : Byte := (b <<< 4) &&& 0xF0

/-! ## The character table -/

/-- The number of UTF-8 bytes of a scalar value (PRESUMED, log 17). -/
def scalarUtf8Len (c : Nat) : Nat :=
  if c < 0x80 then 1 else if c < 0x800 then 2 else if c < 0x10000 then 3 else 4

/-- `utf8_len(g)` (R142). -/
def utf8Len (g : Grapheme) : Nat := (g.map scalarUtf8Len).sum

/-- The 49 codes of R140's codomain: 0x10..0x1F, 0x7F, 0x80..0x9F. -/
def tableCode (k : Fin 49) : Byte :=
  if k.val < 16 then BitVec.ofNat 8 (0x10 + k.val)
  else if k.val = 16 then 0x7F
  else BitVec.ofNat 8 (0x80 + (k.val - 17))

/-- The domain of `CHAR_TABLE`: "multi-byte graphemes only" (R140, R142). -/
def tableKey (g : Grapheme) : Bool := graphemeWellFormed g && decide (1 < utf8Len g)

/-- `MemRead(CHARROM, 1, g)`: `CHAR_TABLE[g]` or no entry; the key of R141 and the open rest (R140).  Outside
the table's domain there is no entry, whatever the build lists (DEDUCED, log 2). -/
def charTable (b : Build) (g : Grapheme) : Option Byte :=
  if g = Config.triangle then some Config.triangleCode
  else if tableKey g then (b.charTable.lookup g).map tableCode
  else none

/-- A single-byte code point outside 0x20..0x7E by `LOWCODE_POLICY`; none is `refuse` (R146). -/
def lowcode (p : LowcodePolicy) (c : Nat) : Option Byte :=
  match p with
  | .refuse => none
  | .passthrough => some (BitVec.ofNat 8 c)
  | .fallback => some Config.fallback

/-- A multi-byte grapheme: its table entry, or the fallback (R142, R144). -/
def mapMultiByte (b : Build) (g : Grapheme) : Byte := (charTable b g).getD Config.fallback

/-- `map_grapheme(g)` (R142); none where the policy `refuse` gives no value.  With `utf8_len(g) = 1` the
grapheme is one scalar value, its first. -/
def mapGrapheme (b : Build) (g : Grapheme) : Option Byte :=
  if utf8Len g = 1 then
    if 0x20 ≤ g.headD 0 ∧ g.headD 0 ≤ 0x7E then some (BitVec.ofNat 8 (g.headD 0))
    else lowcode b.lowcode (g.headD 0)
  else some (mapMultiByte b g)

/-- Whether a text is of its type: "a grapheme is a non-empty finite list of Unicode scalar values"
(R81). -/
def textAdmitted (text : List Grapheme) : Bool := text.all graphemeWellFormed

/-- `map_text(t)`, one code per grapheme in input order (R145); none if some grapheme has no code. -/
def mapText (b : Build) : List Grapheme → Option (List Byte)
  | [] => some []
  | g :: gs =>
    match mapGrapheme b g, mapText b gs with
    | some c, some cs => some (c :: cs)
    | _, _ => none

end Sys2Proof.Machine
end

