-- ==== Sys2Proof/Machine/Primitives.lean ====
section
/-!
DEFINITION. The Protocol Encoder primitives (40_bus_primitives R110 to R117) as the statements they stand
for.  They are not requests: the host cannot call them.
-/

namespace Sys2Proof.Machine

/-- `pulse_en()` (R110). -/
def pulseEn (c : DisplayConfig) : List Stmt :=
  [.line c.en true, .wait .tEn, .line c.en false, .wait .tEn]

/-- Bits `k`, `k+1`, … of `v` on the given lines in order (R55, R56). -/
def dataBits (v : Byte) : Nat → List LineId → List Stmt
  | _, [] => []
  | k, l :: ls => .line l (v.getLsbD k) :: dataBits v (k + 1) ls

/-- `write_nibble(v)` on `d4..d7`: payload in bits 7..4 (R111). -/
def writeNibble (c : DisplayConfig) (d4 d5 d6 d7 : LineId) (v : Byte) : List Stmt :=
  dataBits v 4 [d4, d5, d6, d7] ++ pulseEn c

/-- `write_bus8(b)` on `d0..d7` (R112). -/
def writeBus8 (c : DisplayConfig) (ds : List LineId) (b : Byte) : List Stmt :=
  dataBits b 0 ds ++ pulseEn c

/-- `write_byte(b, r)` (R113): RS once, then two nibbles, high first, or one 8-bit latch. -/
def writeByte (c : DisplayConfig) (b : Byte) (r : Bool) : List Stmt :=
  .line c.rs r ::
    (match c.data with
     | .four d4 d5 d6 d7 =>
       writeNibble c d4 d5 d6 d7 (highNibble b) ++ writeNibble c d4 d5 d6 d7 (lowNibble b)
     | .eight d0 d1 d2 d3 d4 d5 d6 d7 => writeBus8 c [d0, d1, d2, d3, d4, d5, d6, d7] b)

/-- `MemWrite(IR, 1, b)` (R11). -/
def writeIr (c : DisplayConfig) (b : Byte) : List Stmt := writeByte c b false

/-- `MemWrite(DR, 1, b)` (R11). -/
def writeDr (c : DisplayConfig) (b : Byte) : List Stmt := writeByte c b true

/-- `set_feature(r)` (R114): the shadow value as it stands in `d`. -/
def setFeature (d : DisplayState) (r : Shadow) : List Stmt := writeIr d.cfg (d.sh.get r)

/-- `write_shadowed(r, v)` (R117). -/
def writeShadowed (d : DisplayState) (r : Shadow) (v : Byte) : List Stmt :=
  .assign r v :: setFeature (d.setShadow r v) r

/-- `enable_flag(r, m)` (R115). -/
def enableFlag (d : DisplayState) (r : Shadow) (m : Byte) : List Stmt :=
  writeShadowed d r (setFlags (d.sh.get r) m)

/-- `disable_flag(r, m)` (R116). -/
def disableFlag (d : DisplayState) (r : Shadow) (m : Byte) : List Stmt :=
  writeShadowed d r (clearFlags (d.sh.get r) m)

/-- `shift_step(m, r)`, one shift by one column (R170). -/
def shiftStep (c : Codes) (d : DisplayState) (displayMove right : Bool) : List Stmt :=
  writeShadowed d .shiftControl (c.shiftByte displayMove right)

/-- `n` times `shift_step(m, r)` (R167 to R169): "N bus transactions for N columns". -/
def shiftSteps (c : Codes) (d : DisplayState) (displayMove right : Bool) : Nat → List Stmt
  | 0 => []
  | n + 1 => shiftStep c d displayMove right ++ shiftSteps c d displayMove right n

/-- One transfer to DR per code, in order (R164, R173). -/
def writeDrAll (c : DisplayConfig) : List Byte → List Stmt
  | [] => []
  | b :: bs => writeDr c b ++ writeDrAll c bs

end Sys2Proof.Machine
end

