-- ==== Sys2Proof/Machine/Emission.lean ====
section
/-!
DEFINITION. The meanings of the emitted transfers: the encoder's own single transfer of one instruction
byte, data byte or ForceMode nibble (30_encoding R84, R85, 40_bus_primitives R111, R113, R117, 70_reset
R243).  A transfer is part of a request: alone it gives the host no reply (log 7).
-/

namespace Sys2Proof.Machine

/-- Runs one transfer where the block emits it; a `BusError` leaves the block `Faulted` as in any request
(R217). -/
def State.emitTransfer (s : State) (allowed : Bool) (body : DisplayState → List Stmt) : Out :=
  if allowed then
    s.withDisplay (fun d =>
      match runStmts d.cfg.wiring (body d) s with
      | .done s' => .next s'
      | .failed s' _ => .next (s'.setPhase .faulted))
  else .refused (.emissionOutsideItsPhase s.phase)

/-- Whether `FEATURES` has a row owned by the register (R90, R91). -/
def ownsFeature (b : Build) (r : Shadow) : Bool := b.features.any (fun f => decide (f.2.owner = r))

/-- Where a byte of a shadowed register is emitted: its sequencer state, and `ready` when `enable` and
`disable` reach the register (R84, R90). -/
def shadowedIn (s : State) (r : Shadow) (initial : Phase) : Bool :=
  decide (s.phase = initial) || (decide (s.phase = .ready) && ownsFeature s.build r)

/-- Where the display-control and cursor-shift bytes are emitted: their sequencer state, and `ready` by
`stop` and the shifting Operations (R84). -/
def readyOr (s : State) (initial : Phase) : Bool := decide (s.phase = initial) || decide (s.phase = .ready)

/-- `CLEAR` (R162, R246). -/
def execIrClear (s : State) : Out :=
  s.emitTransfer (readyOr s .clear) (fun d => writeIr d.cfg s.build.codes.clear)

/-- `HOME` (R163). -/
def execIrHome (s : State) : Out :=
  s.emitTransfer (decide (s.phase = .ready)) (fun d => writeIr d.cfg s.build.codes.home)

/-- Entry mode, through its shadow (R117, R247, R171). -/
def execIrEntryMode (i sh : Bool) (s : State) : Out :=
  s.emitTransfer (shadowedIn s .entryMode .configureEntryMode)
    (fun d => writeShadowed d .entryMode (s.build.codes.entryModeByte i sh))

/-- Display control, through its shadow (R117, R245, R201). -/
def execIrDisplayControl (on cu b : Bool) (s : State) : Out :=
  s.emitTransfer (readyOr s .configureDisplay)
    (fun d => writeShadowed d .displayControl (s.build.codes.displayControlByte on cu b))

/-- Cursor shift, through its shadow (R117, R170, R248). -/
def execIrCursorShift (m r : Bool) (s : State) : Out :=
  s.emitTransfer (readyOr s .configureShiftControl)
    (fun d => writeShadowed d .shiftControl (s.build.codes.shiftByte m r))

/-- Function set, through its shadow (R117, R244). -/
def execIrFunctionSet (w n f : Bool) (s : State) : Out :=
  s.emitTransfer (shadowedIn s .functionSet .configureFunction)
    (fun d => writeShadowed d .functionSet (s.build.codes.functionSetByte w n f))

/-- `SET_CGRAM | (idx << 3)` (R86 b, R173). -/
def execIrSetCgram (idx : BitVec 3) (s : State) : Out :=
  s.emitTransfer (decide (s.phase = .ready)) (fun d => writeIr d.cfg (setCgramByte idx.toNat))

/-- `SET_DDRAM | a` (R86 a, R165). -/
def execIrSetDdram (a : BitVec 7) (s : State) : Out :=
  s.emitTransfer (decide (s.phase = .ready)) (fun d => writeIr d.cfg (setDdramByte a.toNat))

/-- A native character code to DR (R85, R164). -/
def execDataChar (c : Byte) (s : State) : Out :=
  s.emitTransfer (decide (s.phase = .ready)) (fun d => writeDr d.cfg c)

/-- A glyph bitmap row to DR, unmasked (R85, R173). -/
def execDataBitmapRow (b : Byte) (s : State) : Out :=
  s.emitTransfer (decide (s.phase = .ready)) (fun d => writeDr d.cfg b)

/-- The statements of one unpaired nibble with its latch pulse; RS is not rewritten (R243).  8-bit mode
sends none. -/
def forceNibbleBody (c : DisplayConfig) (v : Byte) : Option (List Stmt) :=
  match c.data with
  | .four d4 d5 d6 d7 => some (writeNibble c d4 d5 d6 d7 v)
  | .eight _ _ _ _ _ _ _ _ => none

/-- One unpaired nibble, emitted in `ForceMode` on the 4-bit path only (R57, R243). -/
def State.forceNibble (s : State) (v : Byte) : Out :=
  if s.phase = .forceMode then
    s.withDisplay (fun d =>
      match forceNibbleBody d.cfg v with
      | some body => s.emitTransfer true (fun _ => body)
      | none => .refused .nibbleIn8bitMode)
  else .refused (.emissionOutsideItsPhase s.phase)

/-- The "8-bit function set" nibble (R243). -/
def execForceNibble8bit (s : State) : Out := s.forceNibble s.build.codes.forceNibble8

/-- The "switch to 4-bit" nibble (R243). -/
def execForceNibble4bit (s : State) : Out := s.forceNibble s.build.codes.forceNibble4

end Sys2Proof.Machine
end

