-- ==== Sys2Proof/Machine/Features.lean ====
section
/-!
DEFINITION. The feature Operations enable and disable (42_operations R171, R172).
-/

namespace Sys2Proof.Machine

/-- `enable(f)` (R171): a name not in `FEATURES` is `unsupported` (D25). -/
def execEnable (feature : String) (s : State) : Out :=
  s.inReady (fun d =>
    match featureOf s.build feature with
    | none => s.returnUnsupported
    | some f => s.runOperation d (enableFlag d f.owner f.mask))

/-- `disable(f)` (R172). -/
def execDisable (feature : String) (s : State) : Out :=
  s.inReady (fun d =>
    match featureOf s.build feature with
    | none => s.returnUnsupported
    | some f => s.runOperation d (disableFlag d f.owner f.mask))

end Sys2Proof.Machine
end

