-- ==== Sys2Proof/Machine/Lifecycle.lean ====
section
/-!
DEFINITION. The lifecycle requests `start` and `stop` and the Initialization Sequencer (43_start_stop R200,
R201, 70_reset_and_hazards R241 to R250).
-/

namespace Sys2Proof.Machine

/-- The order of the sequencer, "linear, no branching back" (R241). -/
def Phase.following : Phase → Phase
  | .reset => .forceMode
  | .forceMode => .configureFunction
  | .configureFunction => .configureDisplay
  | .configureDisplay => .clear
  | .clear => .configureEntryMode
  | .configureEntryMode => .configureShiftControl
  | .configureShiftControl => .ready
  | .off => .off
  | .ready => .ready
  | .faulted => .faulted

/-- The states the sequencer runs, in order (R241). -/
def sequencerStates : List Phase :=
  [.reset, .forceMode, .configureFunction, .configureDisplay, .clear, .configureEntryMode,
    .configureShiftControl]

/-- State `Reset` (R242). -/
def initReset (c : DisplayConfig) : List Stmt :=
  [.line c.rs false, .line c.en false, .wait .tReset]

/-- State `ForceMode` (R243): four unpaired nibbles in 4-bit mode, nothing in 8-bit mode. -/
def initForceMode (k : Codes) (c : DisplayConfig) : List Stmt :=
  match c.data with
  | .four d4 d5 d6 d7 =>
    writeNibble c d4 d5 d6 d7 k.forceNibble8 ++ [.wait .tForce] ++
    writeNibble c d4 d5 d6 d7 k.forceNibble8 ++ [.wait .tForce] ++
    writeNibble c d4 d5 d6 d7 k.forceNibble8 ++
    writeNibble c d4 d5 d6 d7 k.forceNibble4
  | .eight _ _ _ _ _ _ _ _ => []

/-- State `ConfigureFunction` (R244). -/
def initConfigureFunction (d : DisplayState) : List Stmt :=
  match d.cfg.busMode with
  | .four => setFeature d .functionSet
  | .eight =>
    setFeature d .functionSet ++ [.wait .tForce] ++ setFeature d .functionSet ++ [.wait .tForce] ++
      setFeature d .functionSet

/-- The events of one sequencer state (R242 to R248).  `d` is the DisplayState `start` has preloaded; no
state but `ConfigureDisplay` writes a shadow register, and no later one reads that register. -/
def initState (k : Codes) (d : DisplayState) : Phase → List Stmt
  | .reset => initReset d.cfg
  | .forceMode => initForceMode k d.cfg
  | .configureFunction => initConfigureFunction d
  | .configureDisplay => enableFlag d .displayControl k.dcDisplay
  | .clear => writeIr d.cfg k.clear ++ [.wait .tClear]
  | .configureEntryMode => setFeature d .entryMode
  | .configureShiftControl => setFeature d .shiftControl
  | .off => []
  | .ready => []
  | .faulted => []

/-- Runs the given sequencer states in order; each "runs its events and then sets `phase` to the next
state" (R241). -/
def sequencer (k : Codes) (d : DisplayState) : List Phase → List Stmt
  | [] => []
  | p :: ps => initState k d p ++ [.phase p.following] ++ sequencer k d ps

/-- The shadow values `start` preloads (R200 step 2). -/
def preload (k : Codes) (c : DisplayConfig) : Shadows where
  functionSet := k.functionSetOf c
  displayControl := k.cmdDisplayControl
  entryMode := k.entryModeInit
  shiftControl := k.shiftControlInit

/-- The state with the new DisplayState built and the previous one discarded (R200 step 2); the port image
is 0x00 "when start begins" (R120), here once the checks of `start` have passed (DESIGN CHOICE, log 6). -/
def State.beginStart (s : State) (c : DisplayConfig) : State :=
  ((s.setImage 0x00).setDisplay (some ⟨c, preload s.build.codes c⟩)).setPhase .reset

/-- Runs the Initialization Sequencer on an admitted configuration (R200 step 3, R213, R250). -/
def runStart (c : DisplayConfig) (s : State) : Out :=
  match runStmts c.wiring (sequencer s.build.codes ⟨c, preload s.build.codes c⟩ sequencerStates)
      (s.beginStart c) with
  | .done s' => s'.returnOk
  | .failed s' e => s'.takeBusError (.initializationError e s'.phase)

/-- `start(config)` (R200), admitted in every phase (D27): the parameters, the pins (R21), the domain
(R23), then the sequencer (order DEDUCED, log 11). -/
def execStart (config : ConfigInput) (s : State) : Out :=
  if buildAdmitted s.build = false then .refused .parametersNotAdmitted
  else
    match wiringOf s.build with
    | none => .refused .combinedWithoutParameters
    | some w =>
      match resolvePins config with
      | .error why => s.takeConfigurationError why
      | .ok pins =>
        if (DisplayConfig.ofInput config pins w).inDomain = false then .refused .configOutsideDomain
        else if (DisplayConfig.ofInput config pins w).wiringAdmitted = false then
          .refused .combinedParametersNotAdmitted
        else runStart (DisplayConfig.ofInput config pins w) s

/-- Releases the bus: `phase <- Off`, the DisplayState is discarded, `return (ok, none)` (R201). -/
def State.release (s : State) : State := (s.setPhase .off).setDisplay none

/-- `stop` (R201): the display-off command, then the release; admitted in phase `ready` only. -/
def execStop (s : State) : Out :=
  if s.phase = .ready then
    s.withDisplay (fun d =>
      match runStmts d.cfg.wiring (disableFlag d .displayControl s.build.codes.dcDisplay) s with
      | .done s' => s'.release.returnOk
      | .failed s' e => s'.takeBusError (.busError e))
  else .refused (.stopOutsideReady s.phase)

end Sys2Proof.Machine
end

