-- ==== Sys2Proof/Machine/Operations.lean ====
section
/-!
DEFINITION. The Operations that write instruction and data bytes: clear, home, write, set_cursor,
create_char, and the requests the Dispatcher does not recognise (42_operations R162 to R166, R173, R174).
-/

namespace Sys2Proof.Machine

/-- `clear` (R162). -/
def execClear (s : State) : Out :=
  s.inReady (fun d => s.runOperation d (writeIr d.cfg s.build.codes.clear ++ [.wait .tClear]))

/-- `home` (R163). -/
def execHome (s : State) : Out :=
  s.inReady (fun d => s.runOperation d (writeIr d.cfg s.build.codes.home ++ [.wait .tClear]))

/-- `write(text)` (R164): a text outside its type is `unsupported` (R89; DEDUCED, log 5), and a grapheme
without a code refuses the whole request before any bus event (R146). -/
def execWrite (text : List Grapheme) (s : State) : Out :=
  s.inReady (fun d =>
    if textAdmitted text then
      match mapText s.build text with
      | none => .refused .lowcodeGrapheme
      | some codes => s.runOperation d (writeDrAll d.cfg codes)
    else s.returnUnsupported)

/-- `set_cursor(row, col)` (R165). -/
def execSetCursor (row col : Int) (s : State) : Out :=
  s.inReady (fun d => s.runOperation d (writeIr d.cfg (setDdramByte (ddramAddress d.cfg row col))))

/-- `create_char(idx, bitmap)` (R173). -/
def execCreateChar (idx : Int) (bitmap : List Int) (s : State) : Out :=
  s.inReady (fun d =>
    if glyphAdmitted idx bitmap then
      s.runOperation d (writeIr d.cfg (setCgramByte idx) ++ writeDrAll d.cfg (bitmapBytes bitmap))
    else s.returnUnsupported)

/-- An unrecognised tag 101x (R174). -/
def execUnrecognised101x (_x : BitVec 1) (s : State) : Out := s.inReady (fun _ => s.returnUnsupported)

/-- An unrecognised tag 11xx (R174). -/
def execUnrecognised11xx (_x : BitVec 2) (s : State) : Out := s.inReady (fun _ => s.returnUnsupported)

/-- Capability 11, which "is not a request: a model refuses it" (R82). -/
def execReservedCapability (_s : State) : Out := .refused .reservedCapability

end Sys2Proof.Machine
end

