-- ==== Sys2Proof/Machine/Shifts.lean ====
section
/-!
DEFINITION. The shifting Operations scroll, move_left and move_right (42_operations R167 to R170, R175).
-/

namespace Sys2Proof.Machine

/-- `scroll(n)` (R167): direction by the sign of `n`; `n = 0` emits nothing (R175). -/
def execScroll (n : Int) (s : State) : Out :=
  s.inReady (fun d => s.runOperation d (shiftSteps s.build.codes d true (decide (0 < n)) n.natAbs))

/-- `move_left(n)` (R168): a negative `n` is `unsupported` (D14). -/
def execMoveLeft (n : Int) (s : State) : Out :=
  s.inReady (fun d =>
    if n < 0 then s.returnUnsupported
    else s.runOperation d (shiftSteps s.build.codes d false false n.toNat))

/-- `move_right(n)` (R169). -/
def execMoveRight (n : Int) (s : State) : Out :=
  s.inReady (fun d =>
    if n < 0 then s.returnUnsupported
    else s.runOperation d (shiftSteps s.build.codes d false true n.toNat))

end Sys2Proof.Machine
end

