-- ==== Sys2Proof/Machine/Dispatch.lean ====
section
/-!
DEFINITION. The dispatch: one arm per constructor of Instr, each one direct call of its meaning.
-/

namespace Sys2Proof.Machine

def exec (i : Instr) (s : State) : Host.Outcome State Fault Refusal :=
  match i with
  | .start config => Sys2Proof.Machine.execStart config s
  | .stop => Sys2Proof.Machine.execStop s
  | .clear => Sys2Proof.Machine.execClear s
  | .home => Sys2Proof.Machine.execHome s
  | .write text => Sys2Proof.Machine.execWrite text s
  | .setCursor row col => Sys2Proof.Machine.execSetCursor row col s
  | .scroll n => Sys2Proof.Machine.execScroll n s
  | .moveLeft n => Sys2Proof.Machine.execMoveLeft n s
  | .moveRight n => Sys2Proof.Machine.execMoveRight n s
  | .enable feature => Sys2Proof.Machine.execEnable feature s
  | .disable feature => Sys2Proof.Machine.execDisable feature s
  | .createChar idx bitmap => Sys2Proof.Machine.execCreateChar idx bitmap s
  | .unrecognised101x x => Sys2Proof.Machine.execUnrecognised101x x s
  | .unrecognised11xx x => Sys2Proof.Machine.execUnrecognised11xx x s
  | .reservedCapability => Sys2Proof.Machine.execReservedCapability s
  | .irClear => Sys2Proof.Machine.execIrClear s
  | .irHome => Sys2Proof.Machine.execIrHome s
  | .irEntryMode i1 s1 => Sys2Proof.Machine.execIrEntryMode i1 s1 s
  | .irDisplayControl d c b => Sys2Proof.Machine.execIrDisplayControl d c b s
  | .irCursorShift m r => Sys2Proof.Machine.execIrCursorShift m r s
  | .irFunctionSet w n f => Sys2Proof.Machine.execIrFunctionSet w n f s
  | .irSetCgram idx => Sys2Proof.Machine.execIrSetCgram idx s
  | .irSetDdram a => Sys2Proof.Machine.execIrSetDdram a s
  | .dataChar c => Sys2Proof.Machine.execDataChar c s
  | .dataBitmapRow b => Sys2Proof.Machine.execDataBitmapRow b s
  | .forceNibble8bit => Sys2Proof.Machine.execForceNibble8bit s
  | .forceNibble4bit => Sys2Proof.Machine.execForceNibble4bit s

end Sys2Proof.Machine
end

