-- ==== Sys2Proof/Machine/Fetch.lean ====
section
/-!
DEFINITION. Where a step takes its next instruction from, and how a bare table word is placed there
(30_encoding R82, 20_memory R65, 60_exceptions R222, R225).
-/

namespace Sys2Proof.Machine

/-- The word of the next step: a placed transfer of the encoder's own (log 7), else the oldest request of
the host (R64); none when the host has submitted nothing. -/
def State.fetch (s : State) : Option InstrWord :=
  match s.emission with
  | some e => some (.emitted e)
  | none =>
    match s.inbox with
    | r :: _ => some (.request r)
    | [] => none

/-- The state after the word is taken: "constructed by caller, consumed once by Dispatcher, discarded"
(R35). -/
def State.consume (s : State) : State :=
  match s.emission with
  | some _ => { s with emission := none }
  | none => { s with inbox := s.inbox.tail }

/-- Puts a word where the next step takes it from. -/
def State.place (s : State) (iw : InstrWord) : State :=
  match iw with
  | .request r => { s with inbox := r :: s.inbox, emission := none }
  | .emitted e => { s with emission := some e }

/-- The phase an instruction needs to run in; none if it runs in every phase (R161, R200, R201, R84,
R243). -/
def neededPhase : Instr → Option Phase
  | .start _ => none
  | .reservedCapability => none
  | .irFunctionSet _ _ _ => some .configureFunction
  | .forceNibble8bit => some .forceMode
  | .forceNibble4bit => some .forceMode
  | .stop => some .ready
  | .clear => some .ready
  | .home => some .ready
  | .write _ => some .ready
  | .setCursor _ _ => some .ready
  | .scroll _ => some .ready
  | .moveLeft _ => some .ready
  | .moveRight _ => some .ready
  | .enable _ => some .ready
  | .disable _ => some .ready
  | .createChar _ _ => some .ready
  | .unrecognised101x _ => some .ready
  | .unrecognised11xx _ => some .ready
  | .irClear => some .ready
  | .irHome => some .ready
  | .irEntryMode _ _ => some .ready
  | .irDisplayControl _ _ _ => some .ready
  | .irCursorShift _ _ => some .ready
  | .irSetCgram _ => some .ready
  | .irSetDdram _ => some .ready
  | .dataChar _ => some .ready
  | .dataBitmapRow _ => some .ready

/-- The DisplayConfig of program P1 (95_test_vectors): 4-bit, 2 x 16. -/
def configP1 : DisplayConfig where
  rs := 25
  en := 24
  rw := none
  data := .four 23 17 27 22
  rows := 2
  cols := 16
  font5x10 := false
  wiring := .discrete

/-- The state with a display started on P1's configuration and left in the given phase: what an instruction
other than `start` needs before it can be the first (log 8).  A state that is in that phase with a
DisplayState stays as it is. -/
def State.prepared (s : State) (p : Phase) : State :=
  if s.phase = p ∧ s.display.isSome then s
  else
    (s.setDisplay (some
      ⟨configP1, (preload s.build.codes configP1).set .displayControl
        (setFlags s.build.codes.cmdDisplayControl s.build.codes.dcDisplay)⟩)).setPhase p

/-- The state in which an instruction can be the very next one (log 8). -/
def State.preparedFor (s : State) (i : Instr) : State :=
  match neededPhase i with
  | none => s
  | some p => s.prepared p

end Sys2Proof.Machine
end

