-- ==== Sys2Proof/Machine/Step.lean ====
section
/-!
DEFINITION. One step: the next word is taken, decoded and executed whole (10_state R30, R39, 20_memory R65).
-/

namespace Sys2Proof.Machine

/-- One step of the machine.  With no request submitted the block stays as it is (log 5). -/
def step (s : State) : Host.Outcome State Fault Refusal :=
  match s.fetch with
  | none => .next s
  | some iw =>
    match decode iw with
    | .error why => .refused (.undecodable why)
    | .ok i => exec i s.consume

/-- `s` with the instruction of a bare table word placed where `step` takes its next instruction from, its
operands zeros, in a state that can run it (log 8). -/
def State.withFetchWord (s : State) (nbits w : Nat) : State :=
  match tableWord nbits w with
  | none => s
  | some iw =>
    match decode iw with
    | .error _ => s.place iw
    | .ok i => (s.preparedFor i).place iw

end Sys2Proof.Machine
end

