-- ==== Sys2Proof/Machine/Trace.lean ====
section
/-!
DEFINITION. The observations on the event trace: the latch-level and the transfer-level trace (20_memory
R69, R70), the counts of bus calls and waits (40_bus_primitives R118, 42_operations R176) and the minimum
duration (70_reset R251, R275).
-/

namespace Sys2Proof.Machine

/-! ## Replaying the levels -/

/-- The levels an event list is replayed on: the line levels, or the port image for the combined transport
(R32, R69, R120); `none` is an image left unspecified by a failed call (U9). -/
structure View where
  lines : Memory
  image : Option Byte
deriving DecidableEq, Repr

/-- The levels a state holds. -/
def State.view (s : State) : View := ⟨s.lines, some s.image⟩

/-- The level of a line in a view. -/
def View.level (c : DisplayConfig) (v : View) (l : LineId) : Option Bool :=
  match c.wiring with
  | .discrete => v.lines.read l
  | .combined p => v.image.map (fun b => b.getLsbD (p.bitpos l))

/-- The view after a bus call that took effect; waits and `Fail` change no level. -/
def View.after (v : View) : Event → View
  | .line l b => { v with lines := v.lines.write l b }
  | .reg _ b => { v with image := some b }
  | .wait _ => v
  | .fail => v

/-- The view after a failed bus call: its line, or the image, is unspecified (U9). -/
def View.afterFailed (v : View) : Event → View
  | .line l _ => { v with lines := v.lines.filter (fun x => decide (x.1 ≠ l)) }
  | .reg _ _ => { v with image := none }
  | .wait _ => v
  | .fail => v

/-! ## The latch level -/

/-- An item of the latch-level trace.  The value is `(level[rs], w)`; "a Latch whose inputs include an
unknown level has no value" (R69). -/
inductive LatchItem where
  | latch (value : Option (Bool × Byte))
  | wait (t : Wait)
  | fail
deriving DecidableEq, Repr

/-- The number whose bits, least significant first, are the given levels; none if a level is unknown. -/
def packLevels : List (Option Bool) → Option Nat
  | [] => some 0
  | none :: _ => none
  | some b :: bs => (packLevels bs).map (fun n => (if b then 1 else 0) + 2 * n)

/-- What the controller samples at given levels: `(level[rs], the levels of the data lines)` (R69). -/
def sampleLevels (c : DisplayConfig) (f : LineId → Option Bool) : Option (Bool × Byte) :=
  match f c.rs, packLevels (c.data.ids.map f) with
  | some r, some n => some (r, BitVec.ofNat 8 n)
  | _, _ => none

/-- What the controller samples in a view. -/
def View.sample (c : DisplayConfig) (v : View) : Option (Bool × Byte) := sampleLevels c (v.level c)

/-- What an event writes to EN: a `Line(en, v)` its level; behind the combined transport every `Reg` the bit
of EN in its image (R69, R120). -/
def enWrite (c : DisplayConfig) : Event → Option Bool
  | .line l b =>
    match c.wiring with
    | .discrete => if l = c.en then some b else none
    | .combined _ => none
  | .reg _ b =>
    match c.wiring with
    | .discrete => none
    | .combined p => some (b.getLsbD (p.bitpos c.en))
  | .wait _ => none
  | .fail => none

/-- Where a replay stands: whether the last write to EN was a 1, and the levels. -/
structure Replay where
  up : Bool
  view : View
deriving DecidableEq, Repr

/-- The view after an event; `failed` says that `Fail` follows it. -/
def View.next (v : View) (e : Event) (failed : Bool) : View := if failed then v.afterFailed e else v.after e

/-- The replay after an event.  A failed call was made too: "`write_line(l, v)` was called" (R69). -/
def Replay.next (c : DisplayConfig) (r : Replay) (e : Event) (failed : Bool) : Replay :=
  ⟨(enWrite c e).getD r.up, r.view.next e failed⟩

/-- The item of an event: a wait and a `Fail` themselves; a latch "at every `Line(en, 0)` that follows a
`Line(en, 1)` with no other `Line(en, .)` between them", of the levels at that moment (R69). -/
def latchItems (c : DisplayConfig) (r : Replay) (e : Event) (failed : Bool) : List LatchItem :=
  match e with
  | .wait t => [.wait t]
  | .fail => [.fail]
  | .line l b =>
    if r.up = true ∧ enWrite c (.line l b) = some false then
      [.latch ((r.view.next (.line l b) failed).sample c)] else []
  | .reg a b =>
    if r.up = true ∧ enWrite c (.reg a b) = some false then
      [.latch ((r.view.next (.reg a b) failed).sample c)] else []

/-- Whether the event before these failed: `Fail` speaks of "the immediately preceding Line or Reg call"
(R69). -/
def failedBefore (es : List Event) : Bool := decide (es.head? = some .fail)

/-- The latch-level trace of an event list replayed from a given stand (R69). -/
def latchTrace (c : DisplayConfig) : Replay → List Event → List LatchItem
  | _, [] => []
  | r, e :: es => latchItems c r e (failedBefore es) ++ latchTrace c (r.next c e (failedBefore es)) es

/-- Whether the last write to EN in an event list was a 1; without one, `up`. -/
def enRaised (c : DisplayConfig) : Bool → List Event → Bool
  | up, [] => up
  | up, e :: es => enRaised c ((enWrite c e).getD up) es

/-- Where the replay of the machine's trace stands before an Operation, `stop` or a single transfer: EN by
the last `Line(en, .)` of the trace, or by the port image, which is read "in place of `level`" (R69,
R120). -/
def State.replay (c : DisplayConfig) (s : State) : Replay where
  up := match c.wiring with
    | .discrete => enRaised c false s.trace
    | .combined p => s.image.getLsbD (p.bitpos c.en)
  view := s.view

/-- Where it stands before a `start`: EN by the last write to it in the trace; the port image is "0x00 when
start begins" (R120). -/
def State.replayStart (c : DisplayConfig) (s : State) : Replay where
  up := enRaised c false s.trace
  view := ⟨s.lines, some 0x00⟩

/-! ## The transfer level -/

/-- An item of the transfer-level trace (R69). -/
inductive XferItem where
  | xfer (value : Option (Bool × Byte))
  | nib (value : Option (Bool × Byte))
  | wait (t : Wait)
  | fail
deriving DecidableEq, Repr

/-- Whether an item is a transfer. -/
def XferItem.isXfer : XferItem → Bool
  | .xfer _ => true
  | .nib _ => false
  | .wait _ => false
  | .fail => false

/-- `Xfer(r, (h << 4) | l)` (R69). -/
def joinNibbles (h l : Option (Bool × Byte)) : Option (Bool × Byte) :=
  match h, l with
  | some (r, x), some (_, y) => some (r, (x <<< 4) ||| y)
  | _, _ => none

/-- The transfer-level items of latches in 4-bit mode: the first `unpaired` stand alone, the others pair up
(R69).  A `start` is known by its `Wait(T_RESET)`, before which it makes no pulse: the four latches after it
"are the ForceMode nibbles and stand alone".  A high nibble still without its low nibble is no transfer
(log 14). -/
def pairLatches : Nat → Option (Option (Bool × Byte)) → List LatchItem → List XferItem
  | _, _, [] => []
  | k, h, .wait t :: is =>
    .wait t :: (if t = .tReset then pairLatches 4 none is else pairLatches k h is)
  | k, h, .fail :: is => .fail :: pairLatches k h is
  | k + 1, h, .latch x :: is => .nib x :: pairLatches k h is
  | 0, none, .latch x :: is => pairLatches 0 (some x) is
  | 0, some h, .latch x :: is => .xfer (joinNibbles h x) :: pairLatches 0 none is

/-- The transfer-level items of latches in 8-bit mode: each latch is a transfer (R69). -/
def wholeLatches : List LatchItem → List XferItem
  | [] => []
  | .wait t :: is => .wait t :: wholeLatches is
  | .fail :: is => .fail :: wholeLatches is
  | .latch x :: is => .xfer x :: wholeLatches is

/-- The transfer-level trace of an event list that begins between two transfers, where `unpaired` more
latches are ForceMode nibbles (R69). -/
def transferTrace (c : DisplayConfig) (unpaired : Nat) (r : Replay) (es : List Event) : List XferItem :=
  match c.busMode with
  | .four => pairLatches unpaired none (latchTrace c r es)
  | .eight => wholeLatches (latchTrace c r es)

/-- The transfer-level trace as the test vectors show it: "only the waits other than `Wait(T_EN)` are
shown" (95_test_vectors, conventions). -/
def shown (is : List XferItem) : List XferItem := is.filter (fun i => decide (i ≠ .wait .tEn))

/-! ## Counts and duration -/

/-- Whether an event is a bus call. -/
def Event.isCall : Event → Bool
  | .line _ _ => true
  | .reg _ _ => true
  | .wait _ => false
  | .fail => false

/-- The number of bus calls (R118). -/
def busCalls (es : List Event) : Nat := es.countP Event.isCall

/-- The number of waits of one kind (R118, R251). -/
def waitCount (t : Wait) (es : List Event) : Nat := es.countP (fun e => decide (e = .wait t))

/-- The minimum of a wait in milliseconds (R9). -/
def waitMs (t : Timing) : Wait → Nat
  | .tEn => t.tEn
  | .tForce => t.tForce
  | .tClear => t.tClear
  | .tReset => t.tReset

/-- The minimum duration of an event list in milliseconds (R118, R251). -/
def minDuration (t : Timing) : List Event → Nat
  | [] => 0
  | .wait w :: es => waitMs t w + minDuration t es
  | .line _ _ :: es => minDuration t es
  | .reg _ _ :: es => minDuration t es
  | .fail :: es => minDuration t es

/-! ## Instruction classes -/

/-- The shadow register whose instruction a byte is, by the position of its most significant set bit (R84,
the default codes; PRESUMED, log 19). -/
def shadowOfByte (b : Byte) : Option Shadow :=
  if b.getLsbD 7 then none
  else if b.getLsbD 6 then none
  else if b.getLsbD 5 then some .functionSet
  else if b.getLsbD 4 then some .shiftControl
  else if b.getLsbD 3 then some .displayControl
  else if b.getLsbD 2 then some .entryMode
  else none

/-- The last byte of a transfer-level trace that went to IR and belongs to the register (R25). -/
def lastWritten (r : Shadow) : List XferItem → Option Byte
  | [] => none
  | i :: is =>
    match lastWritten r is with
    | some b => some b
    | none =>
      match i with
      | .xfer (some (false, b)) => if shadowOfByte b = some r then some b else none
      | _ => none

end Sys2Proof.Machine
end

