-- ==== Sys2Proof/Safety.lean ====
section
/-!
DEFINITION. What the claims speak of: operands and parameters as the spec asks for them, quiet buses, live
displays, the invariants of the machine, what a
request keeps, and what it means for a request to complete with a given transfer-level trace.
-/

namespace Sys2Proof.Machine

/-! ## What the spec asks of operands and parameters, in the spec's own terms -/

/-- The operand type of `write` (R81): a list of graphemes, each a non-empty list of Unicode scalar values. -/
abbrev IsText (text : List Grapheme) : Prop :=
  ∀ g ∈ text, g ≠ [] ∧ ∀ c ∈ g, c < 0xD800 ∨ (0xE000 ≤ c ∧ c ≤ 0x10FFFF)

/-- An identifier bit of an instruction code (R84): a set bit, or a bit with no set bit of the code above it;
of a code 0x00, which has no first 1, every bit (DESIGN CHOICE, log 12). -/
abbrev IdentifierBit (code : Byte) (k : Nat) : Prop :=
  code.getLsbD k = true ∨ ∀ j < 8, code.getLsbD j = true → j ≤ k

/-- A mask holds no identifier bit of a code (R8, R91). -/
abbrev MaskFits (code mask : Byte) : Prop := ∀ k < 8, mask.getLsbD k = true → ¬ IdentifierBit code k

/-- "the flags of one register are disjoint from each other and from the identifier bits of that register"
(R8). -/
abbrev FlagsFit (code : Byte) (flags : List Byte) : Prop :=
  flags.Pairwise (fun a b => a &&& b = 0x00) ∧ ∀ f ∈ flags, MaskFits code f

/-- A bit of some flag. -/
abbrev FlagBit (flags : List Byte) (k : Nat) : Prop := ∃ f ∈ flags, f.getLsbD k = true

/-- An initial byte is its code outside the flags: only they are "per" the parameter (R29). -/
abbrev InitFits (code : Byte) (flags : List Byte) (init : Byte) : Prop :=
  ∀ k < 8, ¬ FlagBit flags k → init.getLsbD k = code.getLsbD k

/-- The flags of a register that a feature may own: `FS_8BIT` is not among them, "no Operation changes it"
(R27). -/
def ownableFlags (k : Codes) : Shadow → List Byte
  | .functionSet => [k.fs2line, k.fs5x10]
  | .displayControl => [k.dcDisplay, k.dcCursor, k.dcBlink]
  | .entryMode => [k.emIncrement, k.emShift]
  | .shiftControl => [k.csDisplayMove, k.csRight]

/-- Every bit of a feature's mask is in a flag that an Operation may change (R27 to R29). -/
abbrev OwnsFlags (k : Codes) (f : Feature) : Prop :=
  ∀ j < 8, f.mask.getLsbD j = true → FlagBit (ownableFlags k f.owner) j

/-- The constraint of R8 on the codes, register by register, and that of R29 on the two initial bytes
(log 12). -/
abbrev CodesFit (k : Codes) : Prop :=
  FlagsFit k.cmdEntryMode [k.emIncrement, k.emShift] ∧
  FlagsFit k.cmdDisplayControl [k.dcDisplay, k.dcCursor, k.dcBlink] ∧
  FlagsFit k.cmdCursorShift [k.csDisplayMove, k.csRight] ∧
  FlagsFit k.cmdFunctionSet [k.fs8bit, k.fs2line, k.fs5x10] ∧
  InitFits k.cmdEntryMode [k.emIncrement, k.emShift] k.entryModeInit ∧
  InitFits k.cmdCursorShift [k.csDisplayMove, k.csRight] k.shiftControlInit

/-- The constraints of R8, R9, R27 to R29, R91 and R119 on the parameters of a build. -/
abbrev ParametersMeetTheSpec (b : Build) : Prop :=
  CodesFit b.codes ∧
  (1 ≤ b.timing.tEn ∧ 5 ≤ b.timing.tForce ∧ 20 ≤ b.timing.tClear ∧ 50 ≤ b.timing.tReset) ∧
  (∀ f ∈ b.features, f.2.mask ≠ 0x00 ∧ MaskFits (b.codes.identifier f.2.owner) f.2.mask) ∧
  ∀ f ∈ b.features, OwnsFlags b.codes f.2

/-- The domain of a configuration, as R23 lists it: rows, columns, and the line ids of `rs`, `en` and the
assigned data lines. -/
abbrev DomainMeetsTheSpec (rows cols : Int) (lines : List LineId) : Prop :=
  1 ≤ rows ∧ rows ≤ 4 ∧ 1 ≤ cols ∧ (rows ≤ 2 → cols ≤ 64) ∧ (3 ≤ rows → cols ≤ 32) ∧
    lines.Pairwise (fun a b => a ≠ b)

/-- The constraints of R120 over the driven lines: no two on one bit, and the backlight mask 0x00 or one bit
that is none of theirs (log 13). -/
abbrev WiringMeetsTheSpec (q : CombinedParams) (lines : List LineId) : Prop :=
  lines.Pairwise (fun a b => q.bitpos a ≠ q.bitpos b) ∧
  (q.backlightMask = 0x00 ∨ ∃ k : Fin 8, q.backlightMask = 1#8 <<< k.val ∧ ∀ l ∈ lines, q.bitpos l ≠ k)

/-! ## States -/

/-- No bus call fails from this state on: the premise of a claim that needs success (R212, U19). -/
def BusQuiet (s : State) : Prop := ∀ a ∈ s.busAnswers, a = .ok

/-- A configuration `start` admits: the domain of R23 and the constraints of R120. -/
def DisplayConfig.admitted (c : DisplayConfig) : Bool := c.inDomain && c.wiringAdmitted

/-- A display that is ready for Operations: phase `ready` and a DisplayState with an admitted
configuration (R161, R249). -/
structure Live (s : State) (d : DisplayState) : Prop where
  phase : s.phase = .ready
  display : s.display = some d
  admitted : d.cfg.admitted = true

/-- Outside its flags every shadow register is the code of its instruction: the identifier bits of R26, and
0 in every bit that R27, R28 and R29 fix at 0. -/
def FixedBitsHold (k : Codes) (sh : Shadows) : Prop :=
  ∀ r : Shadow, sh.get r &&& ~~~(k.flagBits r) = k.identifier r

/-- The interface bit of the function-set register: "1 iff `BUS_MODE = 8`" (R27). -/
def InterfaceBitFits (k : Codes) (d : DisplayState) : Prop :=
  d.sh.functionSet &&& k.fs8bit = if d.cfg.busMode = .eight then k.fs8bit else 0x00

/-- The invariant of the machine: the line levels are canonical, a DisplayState exists in every phase but
`off` and only there (R30, R38), and it then has an admitted configuration, an admitted build and shadow
registers whose fixed bits are as R26 to R29 say (R8, R23). -/
structure Invariant (s : State) : Prop where
  lines : s.lines.wf
  off : s.display = none ↔ s.phase = .off
  live : ∀ d, s.display = some d →
    d.cfg.admitted = true ∧ buildAdmitted s.build = true ∧ FixedBitsHold s.build.codes d.sh

/-- EN idles low whenever the display is ready: every latch pulse ends with EN at 0 (R38, R110). -/
def EnIdlesLow (s : State) : Prop :=
  ∀ d, s.phase = .ready → s.display = some d → s.view.level d.cfg d.cfg.en = some false

/-- What a request on a display leaves unchanged besides its shadow registers: the build, the inputs not
consumed by it, the free values, the level of every line the configuration does not drive; with the discrete
transport the port image, with the combined one every line level and the image's bits of other lines. -/
structure Kept (s t : State) (c : DisplayConfig) : Prop where
  build : t.build = s.build
  inbox : t.inbox = s.inbox
  emission : t.emission = s.emission
  freeIx : t.freeIx = s.freeIx
  answers : ∃ n, t.busAnswers = s.busAnswers.drop n
  image : c.wiring = .discrete → t.image = s.image
  combined : ∀ p, c.wiring = .combined p → t.lines = s.lines ∧
    ∀ k, k ∉ c.lineIds.map p.bitpos → t.image.getLsbD k = s.image.getLsbD k
  lines : ∀ l, l ∉ c.lineIds → t.lines.read l = s.lines.read l

/-- An Operation completes: it answers a next state in phase `ready` with one more reply `ok`, the shadow
registers `sh'`, everything else kept, and a trace that grows by events whose transfer-level form is
`items`. -/
def Completes (i : Instr) (s : State) (d : DisplayState) (items : List XferItem) (sh' : Shadows) : Prop :=
  ∃ t ev, exec i s = .next t ∧ t.trace = s.trace ++ ev ∧
    shown (transferTrace d.cfg 0 (s.replay d.cfg) ev) = items ∧
    t.replies = s.replies ++ [.ok] ∧ t.phase = .ready ∧ t.display = some { d with sh := sh' } ∧
    Kept s t d.cfg

/-- One transfer of the encoder's own completes: as `Completes`, without a reply, the phase kept. -/
def Emits (i : Instr) (s : State) (d : DisplayState) (items : List XferItem) (sh' : Shadows) : Prop :=
  ∃ t ev, exec i s = .next t ∧ t.trace = s.trace ++ ev ∧
    shown (transferTrace d.cfg 0 (s.replay d.cfg) ev) = items ∧
    t.replies = s.replies ∧ t.phase = s.phase ∧ t.display = some { d with sh := sh' } ∧
    Kept s t d.cfg

/-- An instruction byte (RS = 0) at the transfer level. -/
def irXfer (b : Byte) : XferItem := .xfer (some (false, b))

/-- A data byte (RS = 1) at the transfer level. -/
def drXfer (b : Byte) : XferItem := .xfer (some (true, b))

end Sys2Proof.Machine

namespace Sys2Proof

/-- The ten Operations and the unrecognised tags: the requests of capability 10 (R81, R82). -/
def Instr.isOperation : Instr → Bool
  | .clear | .home | .write _ | .setCursor _ _ | .scroll _ | .moveLeft _ | .moveRight _ | .enable _
  | .disable _ | .createChar _ _ | .unrecognised101x _ | .unrecognised11xx _ => true
  | .start _ | .stop | .reservedCapability => false
  | .irClear | .irHome | .irEntryMode _ _ | .irDisplayControl _ _ _ | .irCursorShift _ _
  | .irFunctionSet _ _ _ | .irSetCgram _ | .irSetDdram _ | .dataChar _ | .dataBitmapRow _
  | .forceNibble8bit | .forceNibble4bit => false

/-- The requests of the host: start, stop and the Operations (R80). -/
def Instr.isRequest : Instr → Bool
  | .start _ => true
  | .stop => true
  | i => i.isOperation

end Sys2Proof

namespace Sys2Proof.Machine

/-- The events of a request up to and including its `k`-th bus call (R217), counting from 1. -/
def throughCall : Nat → List Event → List Event
  | _, [] => []
  | k, e :: es =>
    if e.isCall then
      match k with
      | 0 => []
      | 1 => [e]
      | k + 2 => e :: throughCall (k + 1) es
    else e :: throughCall k es

/-- The bus collaborator lets the next `k` calls succeed and fails the one after them with `e` (R212). -/
def failsAfter (s : State) (k : Nat) (e : BusErrorValue) : State :=
  { s with busAnswers := List.replicate k .ok ++ [.error e] }

/-- The bus collaborator lets every call succeed. -/
def quieted (s : State) : State := { s with busAnswers := [] }

end Sys2Proof.Machine
end

