-- ==== Sys2Proof/Certificates/Slice0/Obligations.lean ====
section
/-!
DEFINITION. The statements for the provers, each citing the rule or section of the spec it formalises.
-/

open Sys2Proof Sys2Proof.Machine

/-! ## Encoding -/

/-- Decoding the word of a well-formed instruction gives the instruction back (30_encoding sections 1
and 2). -/
def Obligations.DecodeOfEncodeGivesTheInstruction : Prop :=
  ∀ i : Instr, i.wellFormed = true → decode (encode i) = .ok i

/-- An emitted word that decodes is the word of its instruction: no bit of an instruction byte, a data byte
or a ForceMode nibble is ignored (30_encoding section 2). -/
def Obligations.EncodeOfDecodeGivesTheEmittedWord : Prop :=
  ∀ (e : EmitWord) (i : Instr), decode (.emitted e) = .ok i → encode i = .emitted e

/-- R82: the request word, capability by capability and tag by tag, with the operands beside it; the tag
is ignored for capabilities 00 and 01, an unrecognised tag returns `unsupported`, and capability 11 is
refused. -/
def Obligations.RequestWordsDecodeByCapabilityAndTag : Prop :=
  ∀ o : Operands,
    (∀ x : BitVec 4, decode (.request ⟨0b00#2 ++ x, o⟩) = .ok (.start o.config)) ∧
    (∀ x : BitVec 4, decode (.request ⟨0b01#2 ++ x, o⟩) = .ok .stop) ∧
    decode (.request ⟨0b10#2 ++ 0b0000#4, o⟩) = .ok .clear ∧
    decode (.request ⟨0b10#2 ++ 0b0001#4, o⟩) = .ok .home ∧
    decode (.request ⟨0b10#2 ++ 0b0010#4, o⟩) = .ok (.write o.text) ∧
    decode (.request ⟨0b10#2 ++ 0b0011#4, o⟩) = .ok (.setCursor o.row o.col) ∧
    decode (.request ⟨0b10#2 ++ 0b0100#4, o⟩) = .ok (.scroll o.n) ∧
    decode (.request ⟨0b10#2 ++ 0b0101#4, o⟩) = .ok (.moveLeft o.n) ∧
    decode (.request ⟨0b10#2 ++ 0b0110#4, o⟩) = .ok (.moveRight o.n) ∧
    decode (.request ⟨0b10#2 ++ 0b0111#4, o⟩) = .ok (.enable o.feature) ∧
    decode (.request ⟨0b10#2 ++ 0b1000#4, o⟩) = .ok (.disable o.feature) ∧
    decode (.request ⟨0b10#2 ++ 0b1001#4, o⟩) = .ok (.createChar o.idx o.bitmap) ∧
    (∀ x : BitVec 1, decode (.request ⟨0b10#2 ++ (0b101#3 ++ x), o⟩) = .ok (.unrecognised101x x)) ∧
    (∀ x : BitVec 2, decode (.request ⟨0b10#2 ++ (0b11#2 ++ x), o⟩) = .ok (.unrecognised11xx x)) ∧
    (∀ x : BitVec 4, decode (.request ⟨0b11#2 ++ x, o⟩) = .ok .reservedCapability) ∧
    (∀ (s : State) (d : DisplayState), s.phase = .ready → s.display = some d →
      (∀ x, exec (.unrecognised101x x) s = .next (s.reply .unsupported)) ∧
      (∀ x, exec (.unrecognised11xx x) s = .next (s.reply .unsupported))) ∧
    (∀ s : State, exec .reservedCapability s = .refused .reservedCapability)

/-- Words written out from the encodings of 30_encoding sections 1 and 2, one for each format and family,
decode to what they stand for. -/
def Obligations.WordsWrittenOutDecode : Prop :=
  decode (.request ⟨0b100011, { row := 1, col := 14 }⟩) = .ok (.setCursor 1 14) ∧
  decode (.request ⟨0b100100, { n := -3 }⟩) = .ok (.scroll (-3)) ∧
  decode (.request ⟨0b100111, { feature := "cursor" }⟩) = .ok (.enable "cursor") ∧
  decode (.emitted (.ir8 0b00001110)) = .ok (.irDisplayControl true true false) ∧
  decode (.emitted (.ir8 0b00011100)) = .ok (.irCursorShift true true) ∧
  decode (.emitted (.ir8 0b00101000)) = .ok (.irFunctionSet false true false) ∧
  decode (.emitted (.ir8 0b01011000)) = .ok (.irSetCgram 3) ∧
  decode (.emitted (.ir8 0b11001110)) = .ok (.irSetDdram 0x4E) ∧
  decode (.emitted (.dr8 .char 0x41)) = .ok (.dataChar 0x41) ∧
  decode (.emitted (.nib4 0b0011)) = .ok .forceNibble8bit ∧
  decode (.emitted (.nib4 0b0010)) = .ok .forceNibble4bit

/-- A step runs the decoded instruction of the oldest request, or of the placed transfer, and takes the word
away; with nothing submitted it leaves the state alone (20_memory section 5; the transfer slot and the idle
step are the model's, logs 5 and 7). -/
def Obligations.StepRunsTheDecodedInstruction : Prop :=
  (∀ (s : State) (r : Request) (rest : List Request) (i : Instr),
    s.emission = none → s.inbox = r :: rest → decode (.request r) = .ok i →
      step s = exec i { s with inbox := rest }) ∧
  (∀ (s : State) (e : EmitWord) (i : Instr),
    s.emission = some e → decode (.emitted e) = .ok i →
      step s = exec i { s with emission := none }) ∧
  (∀ s : State, s.emission = none → s.inbox = [] → step s = .next s)

/-! ## Invariants and whole-machine rules -/

/-- Every step keeps the invariant (10_state sections 1, 2 and 5). -/
def Obligations.StepKeepsTheInvariant : Prop :=
  ∀ s t : State, Invariant s → step s = .next t → Invariant t

/-- The invariant holds at power-on. -/
def Obligations.ResetMeetsTheInvariant : Prop := Invariant State.reset

/-- The interface bit of the function-set register is what the bus mode makes it, and no request changes it:
`start` sets it and every step that serves a request keeps it (10_state section 2, `function_set`; the premise
that no single transfer is placed leaves out the model's own steps, log 7). -/
def Obligations.RequestsKeepTheInterfaceBit : Prop :=
  ∀ s t : State, Invariant s → s.emission = none →
    (∀ d, s.display = some d → InterfaceBitFits s.build.codes d) → step s = .next t →
      ∀ d, t.display = some d → InterfaceBitFits t.build.codes d

/-- Every step keeps EN idling low while the display is ready (40_bus_primitives, the latch pulse; 10_state
section 5, `level[en]`). -/
def Obligations.StepKeepsEnIdlingLow : Prop :=
  ∀ s t : State, Invariant s → EnIdlesLow s → step s = .next t → EnIdlesLow t

/-- Every request that a step serves gives the host exactly one more reply (60_exceptions section 1). -/
def Obligations.EachServedRequestGivesOneReply : Prop :=
  ∀ (s t : State) (r : Request) (rest : List Request),
    s.emission = none → s.inbox = r :: rest → step s = .next t →
      (∃ x, t.replies = s.replies ++ [x]) ∧ t.inbox = rest

/-- No step takes back an event or a reply, and none changes the build's parameters (20_memory sections 5
and 6, 00_scope section 4). -/
def Obligations.StepNeverRewritesOutputsOrParameters : Prop :=
  ∀ s t : State, step s = .next t →
    (∃ ev, t.trace = s.trace ++ ev) ∧ (∃ rs, t.replies = s.replies ++ rs) ∧ t.build = s.build

/-- R22: no instruction but `start` changes the configuration, and `start` takes its configuration from
nothing of the previous state. -/
def Obligations.OnlyStartChangesTheConfiguration : Prop :=
  (∀ (i : Instr) (s t : State) (d' : DisplayState), (∀ c, i ≠ .start c) → exec i s = .next t →
    t.display = some d' → ∃ d, s.display = some d ∧ d'.cfg = d.cfg) ∧
  (∀ (c : ConfigInput) (s s' t t' : State), s'.build = s.build → BusQuiet s → BusQuiet s' →
    exec (.start c) s = .next t → exec (.start c) s' = .next t' → t'.display = t.display)

/-- Whatever is executed, and whether or not calls fail, the lines driven are those the configuration
assigns to `rs`, `en` and the data lines: every `Line` event names one of them, and every other line keeps
its level (20_memory sections 2 and 3, `rw` among them). -/
def Obligations.OnlyConfiguredLinesAreDriven : Prop :=
  ∀ (i : Instr) (s t : State) (d : DisplayState), exec i s = .next t →
    (match i with | .start _ => t.display = some d | _ => s.display = some d) →
      (∀ l v, Event.line l v ∈ t.trace.drop s.trace.length → l ∈ d.cfg.lineIds) ∧
      (∀ l, l ∉ d.cfg.lineIds → t.lines.read l = s.lines.read l)

/-- R161: outside phase `Ready` every Operation is refused; so is `stop`, by a name of its own (43_start_stop,
`stop`). -/
def Obligations.OperationsAreRefusedOutsideReady : Prop :=
  (∀ (i : Instr) (s : State), i.isOperation = true → s.phase ≠ .ready →
    exec i s = .refused (.operationOutsideReady s.phase)) ∧
  (∀ s : State, s.phase ≠ .ready → exec .stop s = .refused (.stopOutsideReady s.phase))

/-- `Ready` is left only by `stop` (to `Off`), by a failed bus call (to `Faulted`, the trace then ends with
`Fail`) or by a new `start` (70_reset section 1, state Ready). -/
def Obligations.ReadyIsLeftOnlyByStopFailureOrStart : Prop :=
  ∀ (i : Instr) (s t : State), s.phase = .ready → exec i s = .next t →
    t.phase = .ready ∨ (i = .stop ∧ t.phase = .off) ∨
      (t.phase = .faulted ∧ t.trace.getLast? = some .fail) ∨ ∃ c, i = .start c

/-- `Faulted` is sticky: nothing but `start` has a next state there (60_exceptions section 2). -/
def Obligations.FaultedIsLeftOnlyByStart : Prop :=
  ∀ (i : Instr) (s t : State), s.phase = .faulted → exec i s = .next t → ∃ c, i = .start c

/-- R214: a result `unsupported` comes with an empty trace and the state unchanged, phase `Ready`, so the
next request is served as if this one had not been made. -/
def Obligations.UnsupportedChangesNothing : Prop :=
  ∀ (i : Instr) (s t : State), exec i s = .next t → t.replies = s.replies ++ [.unsupported] →
    t = { s with replies := s.replies ++ [.unsupported] } ∧ t.phase = .ready

/-- Power-on: phase `Off`, no DisplayState, every line level unknown, an empty trace and no result (10_state
section 5, column power-on). -/
def Obligations.ResetIsPowerOn : Prop :=
  State.reset.phase = .off ∧ State.reset.display = none ∧
    (∀ l, State.reset.lines.read l = none) ∧ State.reset.trace = [] ∧ State.reset.replies = []

/-! ## Operations -/

/-- `clear` and `home` send their byte and then wait `T_CLEAR`; no shadow register changes (42_operations
section 2). -/
def Obligations.ClearAndHomeSendTheirByteThenWait : Prop :=
  ∀ (s : State) (d : DisplayState), Live s d → BusQuiet s →
    Completes .clear s d [irXfer s.build.codes.clear, .wait .tClear] d.sh ∧
    Completes .home s d [irXfer s.build.codes.home, .wait .tClear] d.sh

/-- `write` sends one data transfer per grapheme, in input order, and nothing for the empty text; a text with
a grapheme that has no code is refused; operands that are no text are unsupported (42_operations section 2,
41_character_table; the last clause reads 30_encoding section 3 on operands outside their type, log 5). -/
def Obligations.WriteSendsOneDataTransferPerGrapheme : Prop :=
  ∀ (s : State) (d : DisplayState) (text : List Grapheme), Live s d → BusQuiet s →
    (∀ codes : List Byte, IsText text → text.map (mapGrapheme s.build) = codes.map some →
      Completes (.write text) s d (codes.map drXfer) d.sh) ∧
    exec (.write []) s = .next (s.reply .ok) ∧
    (IsText text → none ∈ text.map (mapGrapheme s.build) →
      exec (.write text) s = .refused .lowcodeGrapheme) ∧
    (¬ IsText text → exec (.write text) s = .next (s.reply .unsupported))

/-- `set_cursor` sends one instruction byte, 0x80 plus the row base and the column of the clamped operands,
for every integer row and column (42_operations section 2). -/
def Obligations.SetCursorSendsTheClampedAddress : Prop :=
  ∀ (s : State) (d : DisplayState) (row col : Int), Live s d → BusQuiet s →
    ∃ b : Byte,
      (b.toNat : Int) = 0x80 + rowOffset d.cfg.cols (max 0 (min row (d.cfg.rows - 1))) +
        max 0 (min col (d.cfg.cols - 1)) ∧
      Completes (.setCursor row col) s d [irXfer b] d.sh

/-- `scroll(n)` sends `|n|` identical display shifts, to the right for positive `n` and to the left for
negative, and the shadow keeps the last byte sent (42_operations section 2). -/
def Obligations.ScrollSendsOneShiftPerColumn : Prop :=
  ∀ (s : State) (d : DisplayState) (n : Int), Live s d → BusQuiet s →
    Completes (.scroll n) s d
      (List.replicate n.natAbs (irXfer (s.build.codes.shiftByte true (decide (0 < n)))))
      (if n = 0 then d.sh else d.sh.set .shiftControl (s.build.codes.shiftByte true (decide (0 < n))))

/-- `move_left(n)` and `move_right(n)` send `n` identical cursor shifts, and a negative `n` is unsupported
(42_operations section 2; the answer to a negative `n` is the spec's decision D14). -/
def Obligations.MovesSendOneShiftPerColumn : Prop :=
  ∀ (s : State) (d : DisplayState) (n : Int), Live s d → BusQuiet s →
    (0 ≤ n →
      Completes (.moveLeft n) s d
        (List.replicate n.natAbs (irXfer (s.build.codes.shiftByte false false)))
        (if n = 0 then d.sh else d.sh.set .shiftControl (s.build.codes.shiftByte false false)) ∧
      Completes (.moveRight n) s d
        (List.replicate n.natAbs (irXfer (s.build.codes.shiftByte false true)))
        (if n = 0 then d.sh else d.sh.set .shiftControl (s.build.codes.shiftByte false true))) ∧
    (n < 0 → exec (.moveLeft n) s = .next (s.reply .unsupported) ∧
      exec (.moveRight n) s = .next (s.reply .unsupported))

/-- R175: a zero delta returns `(ok, S)` with `S` identical, whatever the bus would answer. -/
def Obligations.ZeroDeltaChangesNothing : Prop :=
  ∀ (s : State) (d : DisplayState), s.phase = .ready → s.display = some d →
    exec (.scroll 0) s = .next { s with replies := s.replies ++ [.ok] } ∧
    exec (.moveLeft 0) s = .next { s with replies := s.replies ++ [.ok] } ∧
    exec (.moveRight 0) s = .next { s with replies := s.replies ++ [.ok] }

/-- `enable(f)` sets the feature's bits in its register, keeps the others, and sends the register once, also
when the bits were set already; an unknown name is unsupported (42_operations section 2). -/
def Obligations.EnableSetsTheFeatureBits : Prop :=
  ∀ (s : State) (d : DisplayState) (name : String), Live s d → BusQuiet s →
    (∀ f, s.build.features.lookup name = some f →
      Completes (.enable name) s d [irXfer (d.sh.get f.owner ||| f.mask)]
        (d.sh.set f.owner (d.sh.get f.owner ||| f.mask))) ∧
    (s.build.features.lookup name = none → exec (.enable name) s = .next (s.reply .unsupported))

/-- `disable(f)` clears the feature's bits in its register, keeps the others, and sends the register once; an
unknown name is unsupported (42_operations section 2). -/
def Obligations.DisableClearsTheFeatureBits : Prop :=
  ∀ (s : State) (d : DisplayState) (name : String), Live s d → BusQuiet s →
    (∀ f, s.build.features.lookup name = some f →
      Completes (.disable name) s d [irXfer (d.sh.get f.owner &&& ~~~f.mask)]
        (d.sh.set f.owner (d.sh.get f.owner &&& ~~~f.mask))) ∧
    (s.build.features.lookup name = none → exec (.disable name) s = .next (s.reply .unsupported))

/-- `enable(f)` then `disable(f)` leaves the feature's bits at 0 and every other bit as it was; so the
registers are as before exactly when the bits were 0 before (90_conflicts C2). -/
def Obligations.EnableThenDisableClearsOnlyTheFeature : Prop :=
  ∀ (s : State) (d : DisplayState) (name : String) (f : Feature), Live s d → BusQuiet s →
    s.build.features.lookup name = some f →
      ∃ t u, exec (.enable name) s = .next t ∧ exec (.disable name) t = .next u ∧
        u.display = some { d with sh := d.sh.set f.owner (d.sh.get f.owner &&& ~~~f.mask) } ∧
        (u.display = s.display ↔ d.sh.get f.owner &&& f.mask = 0)

/-- `create_char` sends the CGRAM address byte, 0x40 plus eight times the index, then the eight bitmap bytes
whole and in order; operands outside index 0..7 and eight bytes are unsupported (42_operations section 2). -/
def Obligations.CreateCharSendsNineTransfers : Prop :=
  ∀ (s : State) (d : DisplayState), Live s d → BusQuiet s →
    (∀ (idx : Fin 8) (bytes : List Byte), bytes.length = 8 →
      ∃ b : Byte, b.toNat = 0x40 + 8 * idx.val ∧
        Completes (.createChar idx.val (bytes.map (fun x => (x.toNat : Int)))) s d
          (irXfer b :: bytes.map drXfer) d.sh) ∧
    (∀ (idx : Int) (bitmap : List Int),
      (idx < 0 ∨ 7 < idx ∨ bitmap.length ≠ 8 ∨ ∃ x ∈ bitmap, x < 0 ∨ 255 < x) →
        exec (.createChar idx bitmap) s = .next (s.reply .unsupported))

/-- R174: an unrecognised Operation returns `(unsupported, S)` with no bus event. -/
def Obligations.UnrecognisedTagsAreUnsupported : Prop :=
  ∀ (s : State) (d : DisplayState), s.phase = .ready → s.display = some d →
    (∀ x, exec (.unrecognised101x x) s = .next { s with replies := s.replies ++ [.unsupported] }) ∧
    (∀ x, exec (.unrecognised11xx x) s = .next { s with replies := s.replies ++ [.unsupported] })

/-! ## The character table and cursor addresses -/

/-- R143: ASCII 0x20..0x7E passes through, whatever the table holds. -/
def Obligations.AsciiPassesThrough : Prop :=
  ∀ (b : Build) (c : Nat), 0x20 ≤ c → c ≤ 0x7E → mapGrapheme b [c] = some (BitVec.ofNat 8 c)

/-- A grapheme of more than one UTF-8 byte maps to its table entry, or to 0x3F when it has none; the one key
the source prints maps to 0x10, whatever the open rest of the table holds.  The table has entries for such
graphemes only, each one of its 49 codes (41_character_table). -/
def Obligations.MultiByteGraphemesGoThroughTheTable : Prop :=
  (∀ (b : Build) (g : Grapheme), 1 < (g.map scalarUtf8Len).sum →
    ∃ c, mapGrapheme b g = some c ∧ (∀ x, charTable b g = some x → c = x) ∧
      (charTable b g = none → c = 0x3F)) ∧
  (∀ b : Build, mapGrapheme b [0x25B6, 0xFE0E] = some 0x10) ∧
  (∀ (b : Build) (g : Grapheme) (x : Byte), charTable b g = some x →
    g ≠ [] ∧ (∀ c ∈ g, c < 0xD800 ∨ (0xE000 ≤ c ∧ c ≤ 0x10FFFF)) ∧ 1 < (g.map scalarUtf8Len).sum ∧
    ((0x10 ≤ x.toNat ∧ x.toNat ≤ 0x1F) ∨ x.toNat = 0x7F ∨ (0x80 ≤ x.toNat ∧ x.toNat ≤ 0x9F)))

/-- The codes of a text are as many as its graphemes, each the code of its own grapheme; under the policy
`refuse` every code is ASCII 0x20..0x7E (0x3F among them) or one of the table's ranges, and under every
policy it is below 0xA0 (41_character_table, 20_memory section 4). -/
def Obligations.TextCodesMatchTheirGraphemes : Prop :=
  ∀ (b : Build) (text : List Grapheme) (codes : List Byte), mapText b text = some codes →
    text.map (mapGrapheme b) = codes.map some ∧ codes.length = text.length ∧
    ∀ c ∈ codes, c.toNat < 0xA0 ∧
      (b.lowcode = .refuse →
        (0x20 ≤ c.toNat ∧ c.toNat ≤ 0x7E) ∨ (0x10 ≤ c.toNat ∧ c.toNat ≤ 0x1F) ∨ c.toNat = 0x7F ∨
          (0x80 ≤ c.toNat ∧ c.toNat ≤ 0x9F))

/-- R146: the three policies for a single-byte code point outside 0x20..0x7E; under `refuse` it has no value,
and a `write` that contains such a grapheme is refused. -/
def Obligations.LowcodePolicies : Prop :=
  ∀ (b : Build) (c : Nat), (c ≤ 0x1F ∨ c = 0x7F) →
    (b.lowcode = .refuse → mapGrapheme b [c] = none) ∧
    (b.lowcode = .passthrough → mapGrapheme b [c] = some (BitVec.ofNat 8 c)) ∧
    (b.lowcode = .fallback → mapGrapheme b [c] = some 0x3F) ∧
    (∀ (s : State) (d : DisplayState) (text : List Grapheme), s.build = b → b.lowcode = .refuse →
      s.phase = .ready → s.display = some d → IsText text → [c] ∈ text →
        exec (.write text) s = .refused .lowcodeGrapheme)

/-- R166: the RowOffsetTable. -/
def Obligations.RowOffsetsAreTheTable : Prop :=
  ∀ cols : Int, rowOffset cols 0 = 0x00 ∧ rowOffset cols 1 = 0x40 ∧ rowOffset cols 2 = 0x00 + cols ∧
    rowOffset cols 3 = 0x40 + cols

/-- In an admitted geometry every cursor position of the panel has an address of its own, at most 0x7F, and
every integer row and column lands on one of them (20_memory sections 3 and 4). -/
def Obligations.CursorAddressesAreDistinctAndFit : Prop :=
  ∀ c : DisplayConfig, c.admitted = true →
    (∀ row col, 0 ≤ ddramAddress c row col ∧ ddramAddress c row col ≤ 0x7F) ∧
    (∀ r k r' k', 0 ≤ r → r < c.rows → 0 ≤ k → k < c.cols → 0 ≤ r' → r' < c.rows → 0 ≤ k' → k' < c.cols →
      ddramAddress c r k = ddramAddress c r' k' → r = r' ∧ k = k')

/-! ## Start and stop -/

/-- The pins decide the bus mode: all of `rs`, `en`, `d4..d7` are needed, four low data lines give 8-bit
mode, none gives 4-bit mode, and one to three are an error (10_state section 1). -/
def Obligations.PinsDecideTheBusMode : Prop :=
  ∀ c : ConfigInput,
    let need := c.rs.isSome && c.en.isSome && c.d4.isSome && c.d5.isSome && c.d6.isSome && c.d7.isSome
    let low := ([c.d0, c.d1, c.d2, c.d3].filter Option.isSome).length
    (need = false → resolvePins c = .error .missingPins) ∧
    (need = true → low = 4 → ∃ p, resolvePins c = .ok p ∧ [some p.1, some p.2.1] = [c.rs, c.en] ∧
      p.2.2.ids.map some = [c.d0, c.d1, c.d2, c.d3, c.d4, c.d5, c.d6, c.d7] ∧
      ∀ w, (DisplayConfig.ofInput c p w).busMode = .eight) ∧
    (need = true → low = 0 → ∃ p, resolvePins c = .ok p ∧ [some p.1, some p.2.1] = [c.rs, c.en] ∧
      p.2.2.ids.map some = [c.d4, c.d5, c.d6, c.d7] ∧
      ∀ w, (DisplayConfig.ofInput c p w).busMode = .four) ∧
    (need = true → low ≠ 0 → low ≠ 4 → resolvePins c = .error .partialLowNibble)

/-- A `start` whose pins fail gives the result ConfigurationError with its reason, no bus event, phase
`Off` and no DisplayState, from every state and whatever the bus would answer; nothing but `start` gives
that result (60_exceptions section 1).  That the port image stays too is the model's choice (log 6), and so
is that the parameters are checked before the pins (log 11). -/
def Obligations.StartWithBadPinsIsAConfigurationError : Prop :=
  (∀ (c : ConfigInput) (s : State) (w : Wiring) (why : ConfigFault), buildAdmitted s.build = true →
    wiringOf s.build = some w → resolvePins c = .error why →
      exec (.start c) s = .next { s with
        phase := .off, display := none, replies := s.replies ++ [.configurationError why] }) ∧
  (∀ (i : Instr) (s t : State) (why : ConfigFault), exec i s = .next t →
    t.replies = s.replies ++ [.configurationError why] → ∃ c, i = .start c)

/-- A configuration whose pins are right is refused for its domain exactly when its rows, columns or line ids
are outside the bounds of 10_state section 1: outside them every `start` is refused by that name, inside them
none is, and what the other statements call an admitted configuration is one inside them, behind the combined
transport one whose wiring is admitted too.  That the check's place is after the parameters and the pins and
before the wiring is log 11. -/
def Obligations.StartOutsideTheDomainIsRefused : Prop :=
  ∀ (c : ConfigInput) (s : State) (w : Wiring) (p : LineId × LineId × DataLines),
    buildAdmitted s.build = true → wiringOf s.build = some w → resolvePins c = .ok p →
      (c.rows < 1 ∨ 4 < c.rows ∨ c.cols < 1 ∨ 64 < c.cols ∨ (2 < c.rows ∧ 32 < c.cols) ∨
        ¬ (p.1 :: p.2.1 :: p.2.2.ids).Nodup → exec (.start c) s = .refused .configOutsideDomain) ∧
      (DomainMeetsTheSpec c.rows c.cols (p.1 :: p.2.1 :: p.2.2.ids) →
        exec (.start c) s ≠ .refused .configOutsideDomain) ∧
      ((DisplayConfig.ofInput c p w).admitted = true ↔
        DomainMeetsTheSpec c.rows c.cols (p.1 :: p.2.1 :: p.2.2.ids) ∧
          (w ≠ .discrete → (DisplayConfig.ofInput c p w).wiringAdmitted = true))

/-- A `start` on a build whose parameters break the spec's constraints, or behind a combined transport whose
parameters are not given or break theirs, is refused, each by a name of its own, and where the constraints
are met no start is refused by that name.  The order of the checks is the model's (log 11): the parameters
before everything, the wiring after the pins and the domain.  That a feature and an initial byte move no bit
10_state section 2 fixes is read from there, and that a code 0x00 leaves no bit for a flag or a feature is the
model's choice (log 12). -/
def Obligations.StartWithBadParametersIsRefused : Prop :=
  ∀ (c : ConfigInput) (s : State),
    (buildAdmitted s.build = true ↔ ParametersMeetTheSpec s.build) ∧
    (¬ ParametersMeetTheSpec s.build → exec (.start c) s = .refused .parametersNotAdmitted) ∧
    (ParametersMeetTheSpec s.build →
      exec (.start c) s ≠ .refused .parametersNotAdmitted ∧
      (s.build.transport = .combined → s.build.combined = none →
        exec (.start c) s = .refused .combinedWithoutParameters) ∧
      (∀ (q : CombinedParams) (p : LineId × LineId × DataLines),
        s.build.transport = .combined → s.build.combined = some q → resolvePins c = .ok p →
        (DisplayConfig.ofInput c p (.combined q)).inDomain = true →
          ((DisplayConfig.ofInput c p (.combined q)).wiringAdmitted = true ↔
            WiringMeetsTheSpec q (p.1 :: p.2.1 :: p.2.2.ids)) ∧
          (¬ WiringMeetsTheSpec q (p.1 :: p.2.1 :: p.2.2.ids) →
            exec (.start c) s = .refused .combinedParametersNotAdmitted) ∧
          (WiringMeetsTheSpec q (p.1 :: p.2.1 :: p.2.2.ids) →
            exec (.start c) s ≠ .refused .combinedParametersNotAdmitted)))

/-- The function-set value of a configuration input in a bus mode, as 10_state section 5 composes it: an
absent font flag is false. -/
def functionSetValue (k : Codes) (ci : ConfigInput) (mode : BusMode) : Byte :=
  k.cmdFunctionSet ||| (if mode = .eight then k.fs8bit else 0x00) |||
    (if 2 ≤ ci.rows then k.fs2line else 0x00) ||| (if ci.font5x10 = some true then k.fs5x10 else 0x00)

/-- What a `start` leaves when it succeeds: the registers of 10_state section 5, phase `Ready`, one reply
`ok`, EN and RS low, and everything but the display, the driven lines and the port image as before; the
port image begins at 0x00, and only the bits of driven lines move. -/
def StartLeaves (ci : ConfigInput) (s t : State) (c : DisplayConfig) : Prop :=
  t.phase = .ready ∧ t.replies = s.replies ++ [.ok] ∧
  t.display = some ⟨c, { functionSet := functionSetValue s.build.codes ci c.busMode,
                         displayControl := s.build.codes.cmdDisplayControl ||| s.build.codes.dcDisplay,
                         entryMode := s.build.codes.entryModeInit,
                         shiftControl := s.build.codes.shiftControlInit }⟩ ∧
  t.view.level c c.en = some false ∧ t.view.level c c.rs = some false ∧
  t.build = s.build ∧ t.inbox = s.inbox ∧ t.emission = s.emission ∧ t.freeIx = s.freeIx ∧
  (∃ n, t.busAnswers = s.busAnswers.drop n) ∧
  (c.wiring = .discrete → t.image = 0x00) ∧
  (∀ p, c.wiring = .combined p → t.lines = s.lines ∧
    ∀ k, k ∉ c.lineIds.map p.bitpos → t.image.getLsbD k = false) ∧
  (∀ l, l ∉ c.lineIds → t.lines.read l = s.lines.read l)

/-- `start` on an admitted 4-bit configuration, in every phase: the four ForceMode nibbles with their waits,
then the five register writes (70_reset section 1); whatever the levels and the trace were before. -/
def Obligations.StartRunsTheFourBitSequence : Prop :=
  ∀ (ci : ConfigInput) (s : State) (w : Wiring) (p : LineId × LineId × DataLines) (c : DisplayConfig),
    buildAdmitted s.build = true → wiringOf s.build = some w → resolvePins ci = .ok p →
    c = DisplayConfig.ofInput ci p w → c.admitted = true → c.busMode = .four → BusQuiet s →
      ∃ t ev, exec (.start ci) s = .next t ∧ t.trace = s.trace ++ ev ∧ StartLeaves ci s t c ∧
        shown (transferTrace c 0 (s.replayStart c) ev) =
          [.wait .tReset,
           .nib (some (false, (s.build.codes.cmdFunctionSet ||| s.build.codes.fs8bit) >>> 4)), .wait .tForce,
           .nib (some (false, (s.build.codes.cmdFunctionSet ||| s.build.codes.fs8bit) >>> 4)), .wait .tForce,
           .nib (some (false, (s.build.codes.cmdFunctionSet ||| s.build.codes.fs8bit) >>> 4)),
           .nib (some (false, s.build.codes.cmdFunctionSet >>> 4)),
           irXfer (functionSetValue s.build.codes ci c.busMode),
           irXfer (s.build.codes.cmdDisplayControl ||| s.build.codes.dcDisplay),
           irXfer s.build.codes.clear, .wait .tClear,
           irXfer s.build.codes.entryModeInit,
           irXfer s.build.codes.shiftControlInit]

/-- `start` on an admitted 8-bit configuration, in every phase: three function-set writes with their waits,
then the four other register writes (70_reset section 1).  Where the last write to EN in the trace was a 1,
as after a call that failed on it, the `Line(en, 0)` of state Reset is by 20_memory section 6 one latch more,
with RS 0 and before the first wait (log 10). -/
def Obligations.StartRunsTheEightBitSequence : Prop :=
  ∀ (ci : ConfigInput) (s : State) (w : Wiring) (p : LineId × LineId × DataLines) (c : DisplayConfig),
    buildAdmitted s.build = true → wiringOf s.build = some w → resolvePins ci = .ok p →
    c = DisplayConfig.ofInput ci p w → c.admitted = true → c.busMode = .eight → BusQuiet s →
      ∃ t ev x, exec (.start ci) s = .next t ∧ t.trace = s.trace ++ ev ∧ StartLeaves ci s t c ∧
        (x = none ∨ ∃ b, x = some (false, b)) ∧
        shown (transferTrace c 0 (s.replayStart c) ev) =
          (if (s.replayStart c).up = true then [.xfer x] else []) ++
          [.wait .tReset,
           irXfer (functionSetValue s.build.codes ci c.busMode), .wait .tForce,
           irXfer (functionSetValue s.build.codes ci c.busMode), .wait .tForce,
           irXfer (functionSetValue s.build.codes ci c.busMode),
           irXfer (s.build.codes.cmdDisplayControl ||| s.build.codes.dcDisplay),
           irXfer s.build.codes.clear, .wait .tClear,
           irXfer s.build.codes.entryModeInit,
           irXfer s.build.codes.shiftControlInit]

/-- The event totals of a `start`: 91 calls and at least 108 ms in 4-bit mode, 79 calls and at least 94 ms in
8-bit mode, with the waits of each kind; whatever the levels were before (70_reset section 1). -/
def Obligations.StartEventTotals : Prop :=
  ∀ (ci : ConfigInput) (s : State) (w : Wiring) (p : LineId × LineId × DataLines) (c : DisplayConfig),
    buildAdmitted s.build = true → wiringOf s.build = some w → resolvePins ci = .ok p →
    c = DisplayConfig.ofInput ci p w → c.admitted = true → BusQuiet s →
      ∃ t ev, exec (.start ci) s = .next t ∧ t.trace = s.trace ++ ev ∧ StartLeaves ci s t c ∧
        busCalls ev = (if c.busMode = .four then 91 else 79) ∧
        waitCount .tEn ev = (if c.busMode = .four then 28 else 14) ∧
        waitCount .tForce ev = 2 ∧ waitCount .tClear ev = 1 ∧ waitCount .tReset ev = 1 ∧
        (s.build.timing = Timing.default →
          minDuration s.build.timing ev = (if c.busMode = .four then 108 else 94))

/-- R37: nothing of the state before a `start` shows in what it emits, replies or leaves as display and
phase. -/
def Obligations.NothingSurvivesARestart : Prop :=
  ∀ (c : ConfigInput) (s s' t : State), s'.build = s.build → BusQuiet s → BusQuiet s' →
    exec (.start c) s = .next t →
      ∃ t' ev r, exec (.start c) s' = .next t' ∧ t'.display = t.display ∧ t'.phase = t.phase ∧
        t.trace = s.trace ++ ev ∧ t'.trace = s'.trace ++ ev ∧
        t.replies = s.replies ++ [r] ∧ t'.replies = s'.replies ++ [r]

/-- `stop` sends the display-off byte (display bit cleared, the rest of the register kept), once, then
releases: phase `Off`, no DisplayState, EN low (43_start_stop). -/
def Obligations.StopSendsDisplayOffThenReleases : Prop :=
  ∀ (s : State) (d : DisplayState), Live s d → BusQuiet s →
    ∃ t ev, exec .stop s = .next t ∧ t.trace = s.trace ++ ev ∧
      shown (transferTrace d.cfg 0 (s.replay d.cfg) ev) =
        [irXfer (d.sh.displayControl &&& ~~~s.build.codes.dcDisplay)] ∧
      t.phase = .off ∧ t.display = none ∧ t.replies = s.replies ++ [.ok] ∧
      t.view.level d.cfg d.cfg.en = some false ∧ t.view.level d.cfg d.cfg.rs = some false ∧
      Kept s t d.cfg

/-! ## Emitted transfers -/

/-- The bytes of no shadow register are one transfer each: CLEAR (also in its sequencer state) and HOME, the CGRAM address byte
`01iii000` and the DDRAM address byte `1aaaaaaa` (30_encoding section 2). -/
def Obligations.UnshadowedBytesAreOneTransfer : Prop :=
  ∀ (s : State) (d : DisplayState), s.display = some d → d.cfg.admitted = true → BusQuiet s →
    (s.phase = .ready ∨ s.phase = .clear → Emits .irClear s d [irXfer s.build.codes.clear] d.sh) ∧
    (s.phase = .ready →
      Emits .irHome s d [irXfer s.build.codes.home] d.sh ∧
      (∀ idx : BitVec 3, Emits (.irSetCgram idx) s d [irXfer (0b01#2 ++ idx ++ 0b000#3)] d.sh) ∧
      (∀ a : BitVec 7, Emits (.irSetDdram a) s d [irXfer (0b1#1 ++ a)] d.sh))

/-- The bytes of the shadowed registers are one transfer each and leave the byte in their shadow, in the
sequencer state that sends them and, where an Operation reaches the register, in `Ready`
(40_bus_primitives, the write through a shadow; 30_encoding section 2). -/
def Obligations.ShadowedBytesAreOneTransferAndStay : Prop :=
  ∀ (s : State) (d : DisplayState), s.display = some d → d.cfg.admitted = true → BusQuiet s →
    (∀ i sh, (s.phase = .configureEntryMode ∨
        (s.phase = .ready ∧ ∃ f ∈ s.build.features, f.2.owner = .entryMode)) →
      Emits (.irEntryMode i sh) s d [irXfer (s.build.codes.entryModeByte i sh)]
        (d.sh.set .entryMode (s.build.codes.entryModeByte i sh))) ∧
    (∀ on cu b, (s.phase = .configureDisplay ∨ s.phase = .ready) →
      Emits (.irDisplayControl on cu b) s d [irXfer (s.build.codes.displayControlByte on cu b)]
        (d.sh.set .displayControl (s.build.codes.displayControlByte on cu b))) ∧
    (∀ m r, (s.phase = .configureShiftControl ∨ s.phase = .ready) →
      Emits (.irCursorShift m r) s d [irXfer (s.build.codes.shiftByte m r)]
        (d.sh.set .shiftControl (s.build.codes.shiftByte m r))) ∧
    (∀ w n f, (s.phase = .configureFunction ∨
        (s.phase = .ready ∧ ∃ f ∈ s.build.features, f.2.owner = .functionSet)) →
      Emits (.irFunctionSet w n f) s d [irXfer (s.build.codes.functionSetByte w n f)]
        (d.sh.set .functionSet (s.build.codes.functionSetByte w n f)))

/-- The two kinds of data byte are one transfer each to DR, the byte unchanged (30_encoding section 2); a step
of one transfer alone, without a reply, is the model's own (log 7). -/
def Obligations.DataBytesAreOneTransfer : Prop :=
  ∀ (s : State) (d : DisplayState) (b : Byte), Live s d → BusQuiet s →
    Emits (.dataChar b) s d [drXfer b] d.sh ∧ Emits (.dataBitmapRow b) s d [drXfer b] d.sh

/-- In `ForceMode` on the 4-bit path each of the two nibbles is one unpaired latch with RS as it stands; on
the 8-bit path there is none (70_reset section 1, state ForceMode); a step of one nibble alone, without a
reply, and its refusal in 8-bit mode are the model's own (log 7). -/
def Obligations.ForceNibblesAreUnpairedLatches : Prop :=
  ∀ (s : State) (d : DisplayState), s.phase = .forceMode → s.display = some d →
    d.cfg.admitted = true → BusQuiet s →
    (∀ r, d.cfg.busMode = .four → s.view.level d.cfg d.cfg.rs = some r →
      (∃ t ev, exec .forceNibble8bit s = .next t ∧ t.trace = s.trace ++ ev ∧
        shown (transferTrace d.cfg 1 (s.replay d.cfg) ev) =
          [.nib (some (r, (s.build.codes.cmdFunctionSet ||| s.build.codes.fs8bit) >>> 4))] ∧
        t.display = s.display ∧ t.phase = s.phase ∧ t.replies = s.replies ∧ Kept s t d.cfg) ∧
      (∃ t ev, exec .forceNibble4bit s = .next t ∧ t.trace = s.trace ++ ev ∧
        shown (transferTrace d.cfg 1 (s.replay d.cfg) ev) =
          [.nib (some (r, s.build.codes.cmdFunctionSet >>> 4))] ∧
        t.display = s.display ∧ t.phase = s.phase ∧ t.replies = s.replies ∧ Kept s t d.cfg)) ∧
    (d.cfg.busMode = .eight →
      exec .forceNibble8bit s = .refused .nibbleIn8bitMode ∧
      exec .forceNibble4bit s = .refused .nibbleIn8bitMode)

/-- With the default codes an instruction byte that the machine sends is the byte of its table word: what the
decoder reads off the bus is what was sent (30_encoding section 2; the default codes are log 1, a step of one
byte alone is log 7). -/
def Obligations.EmittedByteIsTheTableWord : Prop :=
  ∀ (i : Instr) (b : Byte) (s t : State) (d : DisplayState), encode i = .emitted (.ir8 b) →
    s.build.codes = Codes.default → s.display = some d → d.cfg.admitted = true → BusQuiet s →
    exec i s = .next t →
      ∃ ev, t.trace = s.trace ++ ev ∧ shown (transferTrace d.cfg 0 (s.replay d.cfg) ev) = [irXfer b]

/-- Where the block emits a byte or a nibble (30_encoding section 2, column emitted by; 70_reset section 1):
its own sequencer state, and `Ready` where an Operation or `stop` sends it. -/
def EmittedIn (s : State) : Instr → Prop
  | .irClear => s.phase = .clear ∨ s.phase = .ready
  | .irEntryMode _ _ => s.phase = .configureEntryMode ∨
      (s.phase = .ready ∧ ∃ f ∈ s.build.features, f.2.owner = .entryMode)
  | .irDisplayControl _ _ _ => s.phase = .configureDisplay ∨ s.phase = .ready
  | .irCursorShift _ _ => s.phase = .configureShiftControl ∨ s.phase = .ready
  | .irFunctionSet _ _ _ => s.phase = .configureFunction ∨
      (s.phase = .ready ∧ ∃ f ∈ s.build.features, f.2.owner = .functionSet)
  | .forceNibble8bit => s.phase = .forceMode
  | .forceNibble4bit => s.phase = .forceMode
  | _ => s.phase = .ready

/-- Where the block never emits a byte or a nibble (30_encoding section 2, column emitted by) the model
refuses it, so in `Off`, `Reset` and `Faulted` it refuses every one.  The refusal is the model's choice
(log 7): the spec says where the block emits a transfer, and gives no step to a transfer alone. -/
def Obligations.TransfersElsewhereAreRefused : Prop :=
  (∀ (s : State) (i : Instr) (e : EmitWord), encode i = .emitted e → ¬ EmittedIn s i →
    exec i s = .refused (.emissionOutsideItsPhase s.phase)) ∧
  (∀ (s : State) (i : Instr) (e : EmitWord), encode i = .emitted e →
    s.phase = .off ∨ s.phase = .reset ∨ s.phase = .faulted → ¬ EmittedIn s i)

/-! ## Observations -/

/-- One transfer on discrete lines, event by event, for every byte and both values of RS: RS, the data lines
in ascending order and EN high, wait, EN low, wait, twice in 4-bit mode and once in 8-bit mode; 13 calls and 4
waits, or 11 and 2; its minimum duration is `4 * T_EN` or `2 * T_EN` (40_bus_primitives, write_byte and the
event counts).  It is said of the primitive that every request sends its bytes by, of the requests `clear` and
`home`, and of every emitted byte of the opcode table in its place; a step of an emitted byte alone is the
model's own (log 7), and the table's instruction bytes rest on the default codes (log 1). -/
def Obligations.OneTransferIsTheseLineEvents : Prop :=
  ∀ (s : State) (d : DisplayState), s.display = some d → BusQuiet s → d.cfg.wiring = .discrete →
    let hi (v : Byte) (d4 d5 d6 d7 : LineId) : List Event :=
      [.line d4 (v.getLsbD 4), .line d5 (v.getLsbD 5), .line d6 (v.getLsbD 6), .line d7 (v.getLsbD 7)]
    let lo (v : Byte) (d0 d1 d2 d3 : LineId) : List Event :=
      [.line d0 (v.getLsbD 0), .line d1 (v.getLsbD 1), .line d2 (v.getLsbD 2), .line d3 (v.getLsbD 3)]
    let pulse : List Event := [.line d.cfg.en true, .wait .tEn, .line d.cfg.en false, .wait .tEn]
    let sends (events : Bool → Byte → List Event) : Prop :=
      (∀ (r : Bool) (b : Byte), ∃ t, runStmts d.cfg.wiring (writeByte d.cfg b r) s = .done t ∧
        t.trace = s.trace ++ events r b) ∧
      (s.phase = .ready →
        (∃ t, exec .clear s = .next t ∧
          t.trace = s.trace ++ (events false s.build.codes.clear ++ [.wait .tClear])) ∧
        (∃ t, exec .home s = .next t ∧
          t.trace = s.trace ++ (events false s.build.codes.home ++ [.wait .tClear]))) ∧
      (∀ (i : Instr) (k : DataKind) (b : Byte), encode i = .emitted (.dr8 k b) → EmittedIn s i →
        ∃ t, exec i s = .next t ∧ t.trace = s.trace ++ events true b) ∧
      (∀ (i : Instr) (b : Byte), encode i = .emitted (.ir8 b) → EmittedIn s i →
        s.build.codes = Codes.default → ∃ t, exec i s = .next t ∧ t.trace = s.trace ++ events false b)
    (∀ d4 d5 d6 d7, d.cfg.data = .four d4 d5 d6 d7 →
      let events (r : Bool) (v : Byte) : List Event :=
        .line d.cfg.rs r :: (hi v d4 d5 d6 d7 ++ pulse ++ (lo v d4 d5 d6 d7 ++ pulse))
      sends events ∧
      ∀ r v, busCalls (events r v) = 13 ∧ waitCount .tEn (events r v) = 4 ∧
        minDuration s.build.timing (events r v) = 4 * s.build.timing.tEn) ∧
    (∀ d0 d1 d2 d3 d4 d5 d6 d7, d.cfg.data = .eight d0 d1 d2 d3 d4 d5 d6 d7 →
      let events (r : Bool) (v : Byte) : List Event :=
        .line d.cfg.rs r :: (lo v d0 d1 d2 d3 ++ hi v d4 d5 d6 d7 ++ pulse)
      sends events ∧
      ∀ r v, busCalls (events r v) = 11 ∧ waitCount .tEn (events r v) = 2 ∧
        minDuration s.build.timing (events r v) = 2 * s.build.timing.tEn)

/-- Every transfer of an Operation costs 13 bus calls and 4 waits `T_EN` in 4-bit mode, 11 and 2 in 8-bit
mode; the only other wait is the `T_CLEAR` of `clear` and `home` (40_bus_primitives, event counts;
42_operations section 2, transfers per request). -/
def Obligations.EachTransferHasItsCost : Prop :=
  ∀ (i : Instr) (s t : State) (d : DisplayState) (ev : List Event), i.isOperation = true → Live s d →
    BusQuiet s → exec i s = .next t → t.trace = s.trace ++ ev →
      let n := (transferTrace d.cfg 0 (s.replay d.cfg) ev).countP XferItem.isXfer
      busCalls ev = n * (if d.cfg.busMode = .four then 13 else 11) ∧
      waitCount .tEn ev = n * (if d.cfg.busMode = .four then 4 else 2) ∧
      waitCount .tForce ev = 0 ∧ waitCount .tReset ev = 0 ∧
      waitCount .tClear ev = (if i = .clear ∨ i = .home then 1 else 0)

/-- After an Operation that made a transfer, or `stop`, the lines hold the last one: RS its register, the data
lines its byte in 8-bit mode and its low nibble in 4-bit mode, EN low (10_state section 5, the levels). -/
def Obligations.LinesHoldTheLastTransfer : Prop :=
  ∀ (i : Instr) (s t : State) (d : DisplayState) (ev : List Event) (r : Bool) (b : Byte),
    i.isOperation = true ∨ i = .stop → Live s d → BusQuiet s → exec i s = .next t →
    t.trace = s.trace ++ ev →
    ((transferTrace d.cfg 0 (s.replay d.cfg) ev).filter XferItem.isXfer).getLast? = some (.xfer (some (r, b))) →
      t.view.level d.cfg d.cfg.rs = some r ∧ t.view.level d.cfg d.cfg.en = some false ∧
      d.cfg.data.ids.map (t.view.level d.cfg) =
        (if d.cfg.busMode = .four then [0, 1, 2, 3] else [0, 1, 2, 3, 4, 5, 6, 7]).map (fun k => some (b.getLsbD k))

/-- The events of a run on discrete lines, each `Line(l, v)` replaced as 40_bus_primitives R120 says. -/
def registerEvents (p : CombinedParams) : Byte → List Event → List Event
  | _, [] => []
  | image, .line l v :: es =>
    let new := (image &&& ~~~(1#8 <<< (p.bitpos l).val)) |||
      ((if v then 1#8 else 0#8) <<< (p.bitpos l).val)
    .reg p.regAddress (new ||| p.backlightMask) :: registerEvents p new es
  | image, .reg a b :: es => .reg a b :: registerEvents p image es
  | image, .wait t :: es => .wait t :: registerEvents p image es
  | image, .fail :: es => .fail :: registerEvents p image es

/-- The combined transport makes the calls of the discrete one with each line write replaced by one register
write of the new port image, the backlight mask ORed in: every Operation, `stop` and the emitted transfers,
and `start`, which begins with the image 0x00 (40_bus_primitives, combined transport).  BITPOS is a total map
with a position for the lines its table does not list (log 13); the emitted transfers are the model's own
steps (log 7).  In the first clause the two builds agree in codes, features, character table and
low-code policy only: the transport is one of their other parameters (log 20). -/
def Obligations.CombinedTransportSubstitutesRegisterWrites : Prop :=
  (∀ (i : Instr) (s s' t : State) (d : DisplayState) (p : CombinedParams) (ev : List Event),
    (∀ c, i ≠ .start c) → BusQuiet s → BusQuiet s' → s'.phase = s.phase →
    s.display = some d → d.cfg.wiring = .discrete →
    s'.display = some { d with cfg := { d.cfg with wiring := .combined p } } →
    s'.build.codes = s.build.codes → s'.build.features = s.build.features →
    s'.build.charTable = s.build.charTable → s'.build.lowcode = s.build.lowcode →
    exec i s = .next t → t.trace = s.trace ++ ev →
      ∃ t', exec i s' = .next t' ∧ t'.trace = s'.trace ++ registerEvents p s'.image ev) ∧
  (∀ (ci : ConfigInput) (s s' t : State) (p : CombinedParams) (ev : List Event) (q : LineId × LineId × DataLines),
    BusQuiet s → BusQuiet s' → s.build.transport = .discrete →
    s'.build = { s.build with transport := .combined, combined := some p } → resolvePins ci = .ok q →
    (DisplayConfig.ofInput ci q (.combined p)).admitted = true →
    exec (.start ci) s = .next t → t.trace = s.trace ++ ev →
      ∃ t', exec (.start ci) s' = .next t' ∧ t'.trace = s'.trace ++ registerEvents p 0x00 ev)

/-- The bus mode and the transport do not change what an Operation sends: on two displays that differ only
in their lines, their bus mode and their transport it gives the same transfers, replies and shadow registers
(30_encoding section 2, mode-dependent framing; 40_bus_primitives, combined transport). -/
def Obligations.ModeAndTransportDoNotChangeTheTransfers : Prop :=
  ∀ (i : Instr) (s s' t : State) (d d' : DisplayState) (ev : List Event), i.isOperation = true →
    Live s d → Live s' d' → BusQuiet s → BusQuiet s' →
    s'.build.codes = s.build.codes → s'.build.features = s.build.features →
    s'.build.charTable = s.build.charTable → s'.build.lowcode = s.build.lowcode →
    d'.sh = d.sh → d'.cfg.rows = d.cfg.rows → d'.cfg.cols = d.cfg.cols →
    exec i s = .next t → t.trace = s.trace ++ ev →
      ∃ t' ev' r, exec i s' = .next t' ∧ t'.trace = s'.trace ++ ev' ∧
        shown (transferTrace d'.cfg 0 (s'.replay d'.cfg) ev') = shown (transferTrace d.cfg 0 (s.replay d.cfg) ev) ∧
        t.replies = s.replies ++ [r] ∧ t'.replies = s'.replies ++ [r] ∧
        t'.display.map (·.sh) = t.display.map (·.sh)

/-- The shadow invariant, as every Operation keeps it: if the Operation sent a byte of register `r`, the last
such byte is now in its shadow, and if it sent none the shadow is as before; with the default codes and
features (10_state section 2, shadow invariant; the defaults are log 1). -/
def Obligations.ShadowsFollowTheBus : Prop :=
  ∀ (i : Instr) (s t : State) (d : DisplayState) (ev : List Event), i.isOperation = true → Live s d →
    BusQuiet s → s.build.codes = Codes.default → s.build.features = Config.featuresDefault →
    (∀ r, shadowOfByte (d.sh.get r) = some r) → exec i s = .next t → t.trace = s.trace ++ ev →
      ∃ d', t.display = some d' ∧ (∀ r, shadowOfByte (d'.sh.get r) = some r) ∧
        ∀ r, d'.sh.get r = (lastWritten r (shown (transferTrace d.cfg 0 (s.replay d.cfg) ev))).getD (d.sh.get r)

/-- The shadow invariant where it begins: after a successful `start` every shadow register holds the last
byte of its instruction that was sent; with the default codes (10_state section 2; the defaults are log 1). -/
def Obligations.StartEstablishesTheShadowInvariant : Prop :=
  ∀ (ci : ConfigInput) (s : State) (w : Wiring) (p : LineId × LineId × DataLines) (c : DisplayConfig),
    buildAdmitted s.build = true → s.build.codes = Codes.default → wiringOf s.build = some w →
    resolvePins ci = .ok p → c = DisplayConfig.ofInput ci p w → c.admitted = true → BusQuiet s →
      ∃ t ev d, exec (.start ci) s = .next t ∧ t.trace = s.trace ++ ev ∧ t.display = some d ∧
        ∀ r, shadowOfByte (d.sh.get r) = some r ∧
          lastWritten r (shown (transferTrace c 0 (s.replayStart c) ev)) = some (d.sh.get r)

/-! ## Failures -/

/-- The levels after a failed call: those before it, or those it would have left; `ev` ends with the call and
`v` is where the events began (60_exceptions, state after a BusError). -/
def OldOrNew (t : State) (c : DisplayConfig) (v : View) (ev : List Event) : Prop :=
  (∀ l ∈ c.lineIds, t.view.level c l = (ev.dropLast.foldl View.after v).level c l) ∨
  (∀ l ∈ c.lineIds, t.view.level c l = (ev.foldl View.after v).level c l)

/-- What a request that a failing bus call stopped leaves unchanged, from the state `s` in which its calls
began: the build, the inputs not consumed by it; with the discrete transport the port image, with the combined
one every line level and the image's bits of other lines; the level of every line the configuration does not
drive.  One free value is used up (log 3). -/
def KeptOnFailure (s t : State) (c : DisplayConfig) : Prop :=
  t.build = s.build ∧ t.inbox = s.inbox ∧ t.emission = s.emission ∧ t.busAnswers = [] ∧
  t.freeIx = s.freeIx + 1 ∧
  (c.wiring = .discrete → t.image = s.image) ∧
  (∀ p, c.wiring = .combined p → t.lines = s.lines ∧
    ∀ k, k ∉ c.lineIds.map p.bitpos → t.image.getLsbD k = s.image.getLsbD k) ∧
  (∀ l, l ∉ c.lineIds → t.lines.read l = s.lines.read l)

/-- A bus call that fails stops an Operation there: with the first `k` calls good and the next one failing
with `e`, the trace is that of the undisturbed run up to and including the failing call, then `Fail`; the
result is BusError with the collaborator's value; the shadow registers stay as assigned, with no rollback;
the phase is `Faulted`; the levels are those the calls before it left, but for the failing line, and the
rest is as `KeptOnFailure` says (60_exceptions section 2).  That line's level is unspecified there; that it is the old or the new one is the
model's choice (log 3, within 93 item U9). -/
def Obligations.BusErrorStopsTheOperationAtTheCall : Prop :=
  ∀ (i : Instr) (s q : State) (d : DisplayState) (ev : List Event) (k : Nat) (e : BusErrorValue),
    i.isOperation = true → Live s d →
    exec i (quieted s) = .next q → q.trace = s.trace ++ ev → k < busCalls ev →
      ∃ t, exec i (failsAfter s k e) = .next t ∧ t.trace = s.trace ++ throughCall (k + 1) ev ++ [.fail] ∧
        t.phase = .faulted ∧ t.replies = s.replies ++ [.busError e] ∧ t.display = q.display ∧
        OldOrNew t d.cfg s.view (throughCall (k + 1) ev) ∧ KeptOnFailure s t d.cfg

/-- The same for `stop`: nothing is released, the DisplayState stays with its display bit already cleared, and
the phase is `Faulted` (43_start_stop, `stop`; 60_exceptions section 2).  The failing line's level is
unspecified; that it is the old or the new one is the model's choice (log 3, within 93 item U9). -/
def Obligations.BusErrorStopsTheShutdown : Prop :=
  ∀ (s q : State) (d : DisplayState) (ev : List Event) (k : Nat) (e : BusErrorValue), Live s d →
    exec .stop (quieted s) = .next q → q.trace = s.trace ++ ev → k < busCalls ev →
      ∃ t, exec .stop (failsAfter s k e) = .next t ∧
        t.trace = s.trace ++ throughCall (k + 1) ev ++ [.fail] ∧
        t.phase = .faulted ∧ t.replies = s.replies ++ [.busError e] ∧
        t.display = some { d with
          sh := d.sh.set .displayControl (d.sh.displayControl &&& ~~~s.build.codes.dcDisplay) } ∧
        OldOrNew t d.cfg s.view (throughCall (k + 1) ev) ∧ KeptOnFailure s t d.cfg

/-- A bus call that fails during `start` is an initialization error that names the sequencer state in which
it struck; the remaining states are not run, the phase is `Faulted`, and the shadow registers hold what
`start` preloaded, the display bit set from `ConfigureDisplay` on (60_exceptions sections 1 and 2, 70_reset
section 1).  The states are told by the number of the failing call.  The failing line's level is unspecified;
that it is the old or the new one is the model's choice (log 3, within 93 item U9). -/
def Obligations.BusErrorInStartIsAnInitializationError : Prop :=
  ∀ (ci : ConfigInput) (s q : State) (w : Wiring) (p : LineId × LineId × DataLines) (c : DisplayConfig)
    (ev : List Event) (k : Nat) (e : BusErrorValue),
    buildAdmitted s.build = true → wiringOf s.build = some w → resolvePins ci = .ok p →
    c = DisplayConfig.ofInput ci p w → c.admitted = true →
    exec (.start ci) (quieted s) = .next q → q.trace = s.trace ++ ev → k < busCalls ev →
      let state : Phase :=
        if c.busMode = .four then
          if k < 2 then .reset else if k < 26 then .forceMode else if k < 39 then .configureFunction
          else if k < 52 then .configureDisplay else if k < 65 then .clear
          else if k < 78 then .configureEntryMode else .configureShiftControl
        else
          if k < 2 then .reset else if k < 35 then .configureFunction
          else if k < 46 then .configureDisplay else if k < 57 then .clear
          else if k < 68 then .configureEntryMode else .configureShiftControl
      ∃ t, exec (.start ci) (failsAfter s k e) = .next t ∧
        t.trace = s.trace ++ throughCall (k + 1) ev ++ [.fail] ∧ t.phase = .faulted ∧
        t.replies = s.replies ++ [.initializationError e state] ∧
        t.display = some ⟨c, { functionSet := functionSetValue s.build.codes ci c.busMode,
                               displayControl :=
                                 if state = .reset ∨ state = .forceMode ∨ state = .configureFunction then
                                   s.build.codes.cmdDisplayControl
                                 else s.build.codes.cmdDisplayControl ||| s.build.codes.dcDisplay,
                               entryMode := s.build.codes.entryModeInit,
                               shiftControl := s.build.codes.shiftControlInit }⟩ ∧
        OldOrNew t c ⟨s.lines, some 0x00⟩ (throughCall (k + 1) ev) ∧
        KeptOnFailure { s with image := 0x00 } t c
end

