-- ==== Sys2Proof/Laws/Memory.lean ====
section
/-!
SUPPORT. The laws of the line levels: read after write, and the canonical form.
-/

namespace Sys2Proof.Machine

@[simp] theorem Memory.read_nil (a : LineId) : Memory.read [] a = none := rfl

@[simp] theorem Memory.read_write_self (m : Memory) (a : LineId) (v : Bool) :
    Memory.read (Memory.write m a v) a = some v := by
  induction m with
  | nil => simp [Memory.write, Memory.read]
  | cons x m ih =>
    obtain ⟨b, w⟩ := x
    simp only [Memory.write]
    split
    · simp [Memory.read]
    · split
      · simp [Memory.read]
      · simp [Memory.read, *]

theorem Memory.read_write_of_ne (m : Memory) {a l : LineId} (v : Bool) (h : l ≠ a) :
    Memory.read (Memory.write m a v) l = Memory.read m l := by
  induction m with
  | nil => simp [Memory.write, Memory.read, h]
  | cons x m ih =>
    obtain ⟨b, w⟩ := x
    simp only [Memory.write]
    split
    · simp [Memory.read, h]
    · split
      · subst_vars; simp [Memory.read, h]
      · simp [Memory.read, ih]

theorem Memory.mem_write (m : Memory) (a : LineId) (v : Bool) (x : LineId × Bool)
    (h : x ∈ Memory.write m a v) : x = (a, v) ∨ x ∈ m := by
  induction m with
  | nil => simpa [Memory.write] using h
  | cons y m ih =>
    obtain ⟨b, w⟩ := y
    simp only [Memory.write] at h
    split at h
    · simpa using h
    · split at h
      · rcases List.mem_cons.mp h with h | h
        · exact .inl h
        · exact .inr (List.mem_cons_of_mem _ h)
      · rcases List.mem_cons.mp h with h | h
        · exact .inr (h ▸ List.mem_cons_self)
        · rcases ih h with h | h
          · exact .inl h
          · exact .inr (List.mem_cons_of_mem _ h)

/-- Writing a level keeps the canonical form. -/
theorem Memory.wf_write (m : Memory) (a : LineId) (v : Bool) (h : m.wf) : (Memory.write m a v).wf := by
  induction m with
  | nil => simp [Memory.write, Memory.wf]
  | cons y m ih =>
    obtain ⟨b, w⟩ := y
    have hb := List.pairwise_cons.mp h
    simp only [Memory.write]
    split
    · rename_i hab
      refine List.pairwise_cons.mpr ⟨fun x hx => ?_, h⟩
      rcases List.mem_cons.mp hx with rfl | hx
      · exact hab
      · exact lt_trans hab (hb.1 x hx)
    · split
      · rename_i _ hab
        refine List.pairwise_cons.mpr ⟨fun x hx => ?_, hb.2⟩
        subst hab
        exact hb.1 x hx
      · rename_i h1 h2
        refine List.pairwise_cons.mpr ⟨fun x hx => ?_, ih hb.2⟩
        rcases Memory.mem_write m a v x hx with rfl | hx
        · exact lt_of_le_of_ne (not_lt.mp h1) (Ne.symm h2)
        · exact hb.1 x hx

end Sys2Proof.Machine
end

