-- ==== Sys2Proof/Laws/State.lean ====
section
/-!
SUPPORT. One lemma per field per update of the state, true by rfl.
-/

namespace Sys2Proof.Machine

variable (s : State)

/-! ## setPhase -/

@[simp] theorem State.setPhase_build (p : Phase) :
    (s.setPhase p).build = s.build := rfl
@[simp] theorem State.setPhase_phase (p : Phase) :
    (s.setPhase p).phase = p := rfl
@[simp] theorem State.setPhase_display (p : Phase) :
    (s.setPhase p).display = s.display := rfl
@[simp] theorem State.setPhase_lines (p : Phase) :
    (s.setPhase p).lines = s.lines := rfl
@[simp] theorem State.setPhase_image (p : Phase) :
    (s.setPhase p).image = s.image := rfl
@[simp] theorem State.setPhase_trace (p : Phase) :
    (s.setPhase p).trace = s.trace := rfl
@[simp] theorem State.setPhase_replies (p : Phase) :
    (s.setPhase p).replies = s.replies := rfl
@[simp] theorem State.setPhase_inbox (p : Phase) :
    (s.setPhase p).inbox = s.inbox := rfl
@[simp] theorem State.setPhase_busAnswers (p : Phase) :
    (s.setPhase p).busAnswers = s.busAnswers := rfl
@[simp] theorem State.setPhase_freeIx (p : Phase) :
    (s.setPhase p).freeIx = s.freeIx := rfl
@[simp] theorem State.setPhase_emission (p : Phase) :
    (s.setPhase p).emission = s.emission := rfl

/-! ## setDisplay -/

@[simp] theorem State.setDisplay_build (d : Option DisplayState) :
    (s.setDisplay d).build = s.build := rfl
@[simp] theorem State.setDisplay_phase (d : Option DisplayState) :
    (s.setDisplay d).phase = s.phase := rfl
@[simp] theorem State.setDisplay_display (d : Option DisplayState) :
    (s.setDisplay d).display = d := rfl
@[simp] theorem State.setDisplay_lines (d : Option DisplayState) :
    (s.setDisplay d).lines = s.lines := rfl
@[simp] theorem State.setDisplay_image (d : Option DisplayState) :
    (s.setDisplay d).image = s.image := rfl
@[simp] theorem State.setDisplay_trace (d : Option DisplayState) :
    (s.setDisplay d).trace = s.trace := rfl
@[simp] theorem State.setDisplay_replies (d : Option DisplayState) :
    (s.setDisplay d).replies = s.replies := rfl
@[simp] theorem State.setDisplay_inbox (d : Option DisplayState) :
    (s.setDisplay d).inbox = s.inbox := rfl
@[simp] theorem State.setDisplay_busAnswers (d : Option DisplayState) :
    (s.setDisplay d).busAnswers = s.busAnswers := rfl
@[simp] theorem State.setDisplay_freeIx (d : Option DisplayState) :
    (s.setDisplay d).freeIx = s.freeIx := rfl
@[simp] theorem State.setDisplay_emission (d : Option DisplayState) :
    (s.setDisplay d).emission = s.emission := rfl

/-! ## assign -/

@[simp] theorem State.assign_build (r : Shadow) (v : Byte) :
    (s.assign r v).build = s.build := rfl
@[simp] theorem State.assign_phase (r : Shadow) (v : Byte) :
    (s.assign r v).phase = s.phase := rfl
@[simp] theorem State.assign_display (r : Shadow) (v : Byte) :
    (s.assign r v).display = s.display.map (fun d => d.setShadow r v) := rfl
@[simp] theorem State.assign_lines (r : Shadow) (v : Byte) :
    (s.assign r v).lines = s.lines := rfl
@[simp] theorem State.assign_image (r : Shadow) (v : Byte) :
    (s.assign r v).image = s.image := rfl
@[simp] theorem State.assign_trace (r : Shadow) (v : Byte) :
    (s.assign r v).trace = s.trace := rfl
@[simp] theorem State.assign_replies (r : Shadow) (v : Byte) :
    (s.assign r v).replies = s.replies := rfl
@[simp] theorem State.assign_inbox (r : Shadow) (v : Byte) :
    (s.assign r v).inbox = s.inbox := rfl
@[simp] theorem State.assign_busAnswers (r : Shadow) (v : Byte) :
    (s.assign r v).busAnswers = s.busAnswers := rfl
@[simp] theorem State.assign_freeIx (r : Shadow) (v : Byte) :
    (s.assign r v).freeIx = s.freeIx := rfl
@[simp] theorem State.assign_emission (r : Shadow) (v : Byte) :
    (s.assign r v).emission = s.emission := rfl

/-! ## emit -/

@[simp] theorem State.emit_build (e : Event) :
    (s.emit e).build = s.build := rfl
@[simp] theorem State.emit_phase (e : Event) :
    (s.emit e).phase = s.phase := rfl
@[simp] theorem State.emit_display (e : Event) :
    (s.emit e).display = s.display := rfl
@[simp] theorem State.emit_lines (e : Event) :
    (s.emit e).lines = s.lines := rfl
@[simp] theorem State.emit_image (e : Event) :
    (s.emit e).image = s.image := rfl
@[simp] theorem State.emit_trace (e : Event) :
    (s.emit e).trace = s.trace ++ [e] := rfl
@[simp] theorem State.emit_replies (e : Event) :
    (s.emit e).replies = s.replies := rfl
@[simp] theorem State.emit_inbox (e : Event) :
    (s.emit e).inbox = s.inbox := rfl
@[simp] theorem State.emit_busAnswers (e : Event) :
    (s.emit e).busAnswers = s.busAnswers := rfl
@[simp] theorem State.emit_freeIx (e : Event) :
    (s.emit e).freeIx = s.freeIx := rfl
@[simp] theorem State.emit_emission (e : Event) :
    (s.emit e).emission = s.emission := rfl

/-! ## reply -/

@[simp] theorem State.reply_build (r : Reply) :
    (s.reply r).build = s.build := rfl
@[simp] theorem State.reply_phase (r : Reply) :
    (s.reply r).phase = s.phase := rfl
@[simp] theorem State.reply_display (r : Reply) :
    (s.reply r).display = s.display := rfl
@[simp] theorem State.reply_lines (r : Reply) :
    (s.reply r).lines = s.lines := rfl
@[simp] theorem State.reply_image (r : Reply) :
    (s.reply r).image = s.image := rfl
@[simp] theorem State.reply_trace (r : Reply) :
    (s.reply r).trace = s.trace := rfl
@[simp] theorem State.reply_replies (r : Reply) :
    (s.reply r).replies = s.replies ++ [r] := rfl
@[simp] theorem State.reply_inbox (r : Reply) :
    (s.reply r).inbox = s.inbox := rfl
@[simp] theorem State.reply_busAnswers (r : Reply) :
    (s.reply r).busAnswers = s.busAnswers := rfl
@[simp] theorem State.reply_freeIx (r : Reply) :
    (s.reply r).freeIx = s.freeIx := rfl
@[simp] theorem State.reply_emission (r : Reply) :
    (s.reply r).emission = s.emission := rfl

/-! ## setImage -/

@[simp] theorem State.setImage_build (v : Byte) :
    (s.setImage v).build = s.build := rfl
@[simp] theorem State.setImage_phase (v : Byte) :
    (s.setImage v).phase = s.phase := rfl
@[simp] theorem State.setImage_display (v : Byte) :
    (s.setImage v).display = s.display := rfl
@[simp] theorem State.setImage_lines (v : Byte) :
    (s.setImage v).lines = s.lines := rfl
@[simp] theorem State.setImage_image (v : Byte) :
    (s.setImage v).image = v := rfl
@[simp] theorem State.setImage_trace (v : Byte) :
    (s.setImage v).trace = s.trace := rfl
@[simp] theorem State.setImage_replies (v : Byte) :
    (s.setImage v).replies = s.replies := rfl
@[simp] theorem State.setImage_inbox (v : Byte) :
    (s.setImage v).inbox = s.inbox := rfl
@[simp] theorem State.setImage_busAnswers (v : Byte) :
    (s.setImage v).busAnswers = s.busAnswers := rfl
@[simp] theorem State.setImage_freeIx (v : Byte) :
    (s.setImage v).freeIx = s.freeIx := rfl
@[simp] theorem State.setImage_emission (v : Byte) :
    (s.setImage v).emission = s.emission := rfl

/-! ## setLine -/

@[simp] theorem State.setLine_build (l : LineId) (v : Bool) :
    (s.setLine l v).build = s.build := rfl
@[simp] theorem State.setLine_phase (l : LineId) (v : Bool) :
    (s.setLine l v).phase = s.phase := rfl
@[simp] theorem State.setLine_display (l : LineId) (v : Bool) :
    (s.setLine l v).display = s.display := rfl
@[simp] theorem State.setLine_lines (l : LineId) (v : Bool) :
    (s.setLine l v).lines = s.lines.write l v := rfl
@[simp] theorem State.setLine_image (l : LineId) (v : Bool) :
    (s.setLine l v).image = s.image := rfl
@[simp] theorem State.setLine_trace (l : LineId) (v : Bool) :
    (s.setLine l v).trace = s.trace := rfl
@[simp] theorem State.setLine_replies (l : LineId) (v : Bool) :
    (s.setLine l v).replies = s.replies := rfl
@[simp] theorem State.setLine_inbox (l : LineId) (v : Bool) :
    (s.setLine l v).inbox = s.inbox := rfl
@[simp] theorem State.setLine_busAnswers (l : LineId) (v : Bool) :
    (s.setLine l v).busAnswers = s.busAnswers := rfl
@[simp] theorem State.setLine_freeIx (l : LineId) (v : Bool) :
    (s.setLine l v).freeIx = s.freeIx := rfl
@[simp] theorem State.setLine_emission (l : LineId) (v : Bool) :
    (s.setLine l v).emission = s.emission := rfl

/-! ## dropAnswer -/

@[simp] theorem State.dropAnswer_build :
    (s.dropAnswer).build = s.build := rfl
@[simp] theorem State.dropAnswer_phase :
    (s.dropAnswer).phase = s.phase := rfl
@[simp] theorem State.dropAnswer_display :
    (s.dropAnswer).display = s.display := rfl
@[simp] theorem State.dropAnswer_lines :
    (s.dropAnswer).lines = s.lines := rfl
@[simp] theorem State.dropAnswer_image :
    (s.dropAnswer).image = s.image := rfl
@[simp] theorem State.dropAnswer_trace :
    (s.dropAnswer).trace = s.trace := rfl
@[simp] theorem State.dropAnswer_replies :
    (s.dropAnswer).replies = s.replies := rfl
@[simp] theorem State.dropAnswer_inbox :
    (s.dropAnswer).inbox = s.inbox := rfl
@[simp] theorem State.dropAnswer_busAnswers :
    (s.dropAnswer).busAnswers = s.busAnswers.tail := rfl
@[simp] theorem State.dropAnswer_freeIx :
    (s.dropAnswer).freeIx = s.freeIx := rfl
@[simp] theorem State.dropAnswer_emission :
    (s.dropAnswer).emission = s.emission := rfl

/-! ## dropFree -/

@[simp] theorem State.dropFree_build :
    (s.dropFree).build = s.build := rfl
@[simp] theorem State.dropFree_phase :
    (s.dropFree).phase = s.phase := rfl
@[simp] theorem State.dropFree_display :
    (s.dropFree).display = s.display := rfl
@[simp] theorem State.dropFree_lines :
    (s.dropFree).lines = s.lines := rfl
@[simp] theorem State.dropFree_image :
    (s.dropFree).image = s.image := rfl
@[simp] theorem State.dropFree_trace :
    (s.dropFree).trace = s.trace := rfl
@[simp] theorem State.dropFree_replies :
    (s.dropFree).replies = s.replies := rfl
@[simp] theorem State.dropFree_inbox :
    (s.dropFree).inbox = s.inbox := rfl
@[simp] theorem State.dropFree_busAnswers :
    (s.dropFree).busAnswers = s.busAnswers := rfl
@[simp] theorem State.dropFree_freeIx :
    (s.dropFree).freeIx = s.freeIx + 1 := rfl
@[simp] theorem State.dropFree_emission :
    (s.dropFree).emission = s.emission := rfl

/-! ## release -/

@[simp] theorem State.release_build :
    (s.release).build = s.build := rfl
@[simp] theorem State.release_phase :
    (s.release).phase = .off := rfl
@[simp] theorem State.release_display :
    (s.release).display = none := rfl
@[simp] theorem State.release_lines :
    (s.release).lines = s.lines := rfl
@[simp] theorem State.release_image :
    (s.release).image = s.image := rfl
@[simp] theorem State.release_trace :
    (s.release).trace = s.trace := rfl
@[simp] theorem State.release_replies :
    (s.release).replies = s.replies := rfl
@[simp] theorem State.release_inbox :
    (s.release).inbox = s.inbox := rfl
@[simp] theorem State.release_busAnswers :
    (s.release).busAnswers = s.busAnswers := rfl
@[simp] theorem State.release_freeIx :
    (s.release).freeIx = s.freeIx := rfl
@[simp] theorem State.release_emission :
    (s.release).emission = s.emission := rfl

/-! ## beginStart -/

@[simp] theorem State.beginStart_build (c : DisplayConfig) :
    (s.beginStart c).build = s.build := rfl
@[simp] theorem State.beginStart_phase (c : DisplayConfig) :
    (s.beginStart c).phase = .reset := rfl
@[simp] theorem State.beginStart_display (c : DisplayConfig) :
    (s.beginStart c).display = some ⟨c, preload s.build.codes c⟩ := rfl
@[simp] theorem State.beginStart_lines (c : DisplayConfig) :
    (s.beginStart c).lines = s.lines := rfl
@[simp] theorem State.beginStart_image (c : DisplayConfig) :
    (s.beginStart c).image = 0x00 := rfl
@[simp] theorem State.beginStart_trace (c : DisplayConfig) :
    (s.beginStart c).trace = s.trace := rfl
@[simp] theorem State.beginStart_replies (c : DisplayConfig) :
    (s.beginStart c).replies = s.replies := rfl
@[simp] theorem State.beginStart_inbox (c : DisplayConfig) :
    (s.beginStart c).inbox = s.inbox := rfl
@[simp] theorem State.beginStart_busAnswers (c : DisplayConfig) :
    (s.beginStart c).busAnswers = s.busAnswers := rfl
@[simp] theorem State.beginStart_freeIx (c : DisplayConfig) :
    (s.beginStart c).freeIx = s.freeIx := rfl
@[simp] theorem State.beginStart_emission (c : DisplayConfig) :
    (s.beginStart c).emission = s.emission := rfl

/-! ## Views and shadows -/

@[simp] theorem State.view_lines : s.view.lines = s.lines := rfl
@[simp] theorem State.view_image : s.view.image = some s.image := rfl

@[simp] theorem Shadows.get_set_self (sh : Shadows) (r : Shadow) (v : Byte) : (sh.set r v).get r = v := by
  cases r <;> rfl

theorem Shadows.get_set_of_ne (sh : Shadows) {r q : Shadow} (v : Byte) (h : q ≠ r) :
    (sh.set r v).get q = sh.get q := by
  cases r <;> cases q <;> first | rfl | exact absurd rfl h

@[simp] theorem Shadows.set_set (sh : Shadows) (r : Shadow) (v w : Byte) :
    (sh.set r v).set r w = sh.set r w := by
  cases r <;> rfl

@[simp] theorem DisplayState.setShadow_cfg (d : DisplayState) (r : Shadow) (v : Byte) :
    (d.setShadow r v).cfg = d.cfg := rfl

@[simp] theorem DisplayState.setShadow_sh (d : DisplayState) (r : Shadow) (v : Byte) :
    (d.setShadow r v).sh = d.sh.set r v := rfl

end Sys2Proof.Machine
end

