-- ==== Sys2Proof/Laws/Run.lean ====
section
/-!
SUPPORT. What running statements can do, said once: on success the state is `applyStmts`, on a failure it is
`applyStmts` of the statements before the failing call and the failed call itself; then the fields of
`applyStmts`.
-/

namespace Sys2Proof.Machine

/-- The effect of one statement that succeeds. -/
def Stmt.apply (w : Wiring) (st : Stmt) (s : State) : State :=
  match st with
  | .line l v => (s.busEffect w l v).dropAnswer.emit (s.busEvent w l v)
  | .wait t => s.emit (.wait t)
  | .assign r v => s.assign r v
  | .phase p => s.setPhase p

/-- The effect of statements that all succeed. -/
def applyStmts (w : Wiring) : List Stmt → State → State
  | [], s => s
  | st :: rest, s => applyStmts w rest (st.apply w s)

@[simp] theorem applyStmts_nil (w : Wiring) (s : State) : applyStmts w [] s = s := rfl

@[simp] theorem applyStmts_cons (w : Wiring) (st : Stmt) (l : List Stmt) (s : State) :
    applyStmts w (st :: l) s = applyStmts w l (st.apply w s) := rfl

theorem applyStmts_append (w : Wiring) (l l' : List Stmt) (s : State) :
    applyStmts w (l ++ l') s = applyStmts w l' (applyStmts w l s) := by
  induction l generalizing s with
  | nil => rfl
  | cons st l ih => simp [ih]

/-- What a failed call leaves: the call and `Fail` in the trace, its effect open (R217). -/
def failedCall (w : Wiring) (l : LineId) (v : Bool) (s : State) : State :=
  ((s.busEffectIf (Config.failedCallTookEffect s.freeIx) w l v).dropFree.dropAnswer.emit
    (s.busEvent w l v)).emit .fail

theorem busLine_ok {w : Wiring} {l : LineId} {v : Bool} {s : State} (h : s.nextAnswer = .ok) :
    s.busLine w l v = .done ((Stmt.line l v).apply w s) := by
  simp [State.busLine, h, Stmt.apply]

theorem busLine_error {w : Wiring} {l : LineId} {v : Bool} {s : State} {e : BusErrorValue}
    (h : s.nextAnswer = .error e) : s.busLine w l v = .failed (failedCall w l v s) e := by
  simp [State.busLine, h, failedCall]

/-- One statement, inverted: it succeeds, or it is a bus call that the collaborator fails. -/
theorem runStmt_cases (w : Wiring) (st : Stmt) (s : State) :
    runStmt w st s = .done (st.apply w s) ∨
      ∃ l v e, st = .line l v ∧ s.nextAnswer = .error e ∧
        runStmt w st s = .failed (failedCall w l v s) e := by
  cases st with
  | line l v =>
    cases h : s.nextAnswer with
    | ok => exact .inl (busLine_ok h)
    | error e => exact .inr ⟨l, v, e, rfl, rfl, busLine_error h⟩
  | wait t => exact .inl rfl
  | assign r v => exact .inl rfl
  | phase p => exact .inl rfl

/-- Statements, inverted: they all succeed, or some call fails and nothing after it runs. -/
theorem runStmts_cases (w : Wiring) (l : List Stmt) (s : State) :
    runStmts w l s = .done (applyStmts w l s) ∨
      ∃ l1 a v l2 e, l = l1 ++ .line a v :: l2 ∧ (applyStmts w l1 s).nextAnswer = .error e ∧
        runStmts w l1 s = .done (applyStmts w l1 s) ∧
        runStmts w l s = .failed (failedCall w a v (applyStmts w l1 s)) e := by
  induction l generalizing s with
  | nil => exact .inl rfl
  | cons st l ih =>
    rcases runStmt_cases w st s with h | ⟨a, v, e, rfl, he, h⟩
    · rcases ih (st.apply w s) with hl | ⟨l1, a, v, l2, e, rfl, he, hd, hl⟩
      · exact .inl (by simp [runStmts, h, hl])
      · exact .inr ⟨st :: l1, a, v, l2, e, rfl, he, by simp [runStmts, h, hd], by simp [runStmts, h, hl]⟩
    · exact .inr ⟨[], a, v, l, e, rfl, he, rfl, by simp [runStmts, h]⟩

theorem runStmts_done {w : Wiring} {l : List Stmt} {s s' : State} (h : runStmts w l s = .done s') :
    s' = applyStmts w l s := by
  rcases runStmts_cases w l s with hd | ⟨_, _, _, _, _, _, _, _, hf⟩
  · rw [hd] at h; cases h; rfl
  · rw [hf] at h; cases h

theorem runStmts_failed {w : Wiring} {l : List Stmt} {s s' : State} {e : BusErrorValue}
    (h : runStmts w l s = .failed s' e) :
    ∃ l1 a v l2, l = l1 ++ .line a v :: l2 ∧ (applyStmts w l1 s).nextAnswer = .error e ∧
      s' = failedCall w a v (applyStmts w l1 s) := by
  rcases runStmts_cases w l s with hd | ⟨l1, a, v, l2, e', hl, he, _, hf⟩
  · rw [hd] at h; cases h
  · rw [hf] at h; cases h; exact ⟨l1, a, v, l2, hl, he, rfl⟩

/-! ## Quiet buses -/

theorem nextAnswer_of_quiet {s : State} (h : BusQuiet s) : s.nextAnswer = .ok := by
  unfold State.nextAnswer
  cases ha : s.busAnswers with
  | nil => rfl
  | cons a l => exact h a (by simp [ha])

theorem busQuiet_apply {w : Wiring} {st : Stmt} {s : State} (h : BusQuiet s) : BusQuiet (st.apply w s) := by
  intro a ha
  cases st <;> cases w <;>
    first
    | exact h a (List.mem_of_mem_tail ha)
    | exact h a ha

/-- On a quiet bus every statement succeeds. -/
theorem runStmts_quiet {w : Wiring} {l : List Stmt} {s : State} (h : BusQuiet s) :
    runStmts w l s = .done (applyStmts w l s) := by
  induction l generalizing s with
  | nil => rfl
  | cons st l ih =>
    have hst : runStmt w st s = .done (st.apply w s) := by
      rcases runStmt_cases w st s with h' | ⟨_, _, _, _, he, _⟩
      · exact h'
      · rw [nextAnswer_of_quiet h] at he; cases he
    simp [runStmts, hst, ih (busQuiet_apply h)]

/-! ## The fields of `applyStmts` -/

variable (w : Wiring) (l : List Stmt) (s : State)

@[simp] theorem State.busEffect_build (a : LineId) (v : Bool) : (s.busEffect w a v).build = s.build := by
  cases w <;> rfl
@[simp] theorem State.busEffect_phase (a : LineId) (v : Bool) : (s.busEffect w a v).phase = s.phase := by
  cases w <;> rfl
@[simp] theorem State.busEffect_display (a : LineId) (v : Bool) :
    (s.busEffect w a v).display = s.display := by cases w <;> rfl
@[simp] theorem State.busEffect_trace (a : LineId) (v : Bool) : (s.busEffect w a v).trace = s.trace := by
  cases w <;> rfl
@[simp] theorem State.busEffect_replies (a : LineId) (v : Bool) :
    (s.busEffect w a v).replies = s.replies := by cases w <;> rfl
@[simp] theorem State.busEffect_inbox (a : LineId) (v : Bool) : (s.busEffect w a v).inbox = s.inbox := by
  cases w <;> rfl
@[simp] theorem State.busEffect_busAnswers (a : LineId) (v : Bool) :
    (s.busEffect w a v).busAnswers = s.busAnswers := by cases w <;> rfl
@[simp] theorem State.busEffect_freeIx (a : LineId) (v : Bool) : (s.busEffect w a v).freeIx = s.freeIx := by
  cases w <;> rfl
@[simp] theorem State.busEffect_emission (a : LineId) (v : Bool) :
    (s.busEffect w a v).emission = s.emission := by cases w <;> rfl

@[simp] theorem applyStmts_build : (applyStmts w l s).build = s.build := by
  induction l generalizing s with
  | nil => rfl
  | cons st l ih => rw [applyStmts_cons, ih]; cases st <;> simp [Stmt.apply]

@[simp] theorem applyStmts_replies : (applyStmts w l s).replies = s.replies := by
  induction l generalizing s with
  | nil => rfl
  | cons st l ih => rw [applyStmts_cons, ih]; cases st <;> simp [Stmt.apply]

@[simp] theorem applyStmts_inbox : (applyStmts w l s).inbox = s.inbox := by
  induction l generalizing s with
  | nil => rfl
  | cons st l ih => rw [applyStmts_cons, ih]; cases st <;> simp [Stmt.apply]

@[simp] theorem applyStmts_freeIx : (applyStmts w l s).freeIx = s.freeIx := by
  induction l generalizing s with
  | nil => rfl
  | cons st l ih => rw [applyStmts_cons, ih]; cases st <;> simp [Stmt.apply]

@[simp] theorem applyStmts_emission : (applyStmts w l s).emission = s.emission := by
  induction l generalizing s with
  | nil => rfl
  | cons st l ih => rw [applyStmts_cons, ih]; cases st <;> simp [Stmt.apply]

/-- The lines a statement list drives. -/
def drivenLines : List Stmt → List LineId
  | [] => []
  | .line l _ :: r => l :: drivenLines r
  | .wait _ :: r => drivenLines r
  | .assign _ _ :: r => drivenLines r
  | .phase _ :: r => drivenLines r

@[simp] theorem drivenLines_append (l l' : List Stmt) :
    drivenLines (l ++ l') = drivenLines l ++ drivenLines l' := by
  induction l with
  | nil => rfl
  | cons st l ih => cases st <;> simp [drivenLines, ih]

/-- The answers left are those not consumed, one per bus call. -/
theorem applyStmts_busAnswers :
    (applyStmts w l s).busAnswers = s.busAnswers.drop (drivenLines l).length := by
  induction l generalizing s with
  | nil => rfl
  | cons st l ih =>
    rw [applyStmts_cons, ih]
    cases st <;> simp [Stmt.apply, drivenLines]

/-- A line that is not driven keeps its level. -/
theorem applyStmts_lines_read {a : LineId} (h : a ∉ drivenLines l) :
    (applyStmts w l s).lines.read a = s.lines.read a := by
  induction l generalizing s with
  | nil => rfl
  | cons st l ih =>
    rw [applyStmts_cons]
    cases st with
    | line b v =>
      simp only [drivenLines, List.mem_cons, not_or] at h
      rw [ih _ h.2]
      cases w with
      | discrete => exact Memory.read_write_of_ne _ _ h.1
      | combined p => rfl
    | wait t => exact ih _ h
    | assign r v => exact ih _ h
    | phase p => exact ih _ h

/-- The line levels stay in canonical form. -/
theorem applyStmts_lines_wf (h : s.lines.wf) : (applyStmts w l s).lines.wf := by
  induction l generalizing s with
  | nil => exact h
  | cons st l ih =>
    refine ih _ ?_
    cases st with
    | line b v => cases w with
      | discrete => exact Memory.wf_write _ _ _ h
      | combined p => exact h
    | wait t => exact h
    | assign r v => exact h
    | phase p => exact h

/-- With the discrete transport the port image is not touched. -/
theorem applyStmts_image_discrete : (applyStmts .discrete l s).image = s.image := by
  induction l generalizing s with
  | nil => rfl
  | cons st l ih => rw [applyStmts_cons, ih]; cases st <;> rfl

/-- The events of statements that all succeed. -/
def eventsOf (w : Wiring) (image : Byte) : List Stmt → List Event
  | [] => []
  | .line l v :: r =>
    match w with
    | .discrete => .line l v :: eventsOf .discrete image r
    | .combined p =>
      .reg p.regAddress (p.place image l v ||| p.backlightMask) ::
        eventsOf (.combined p) (p.place image l v) r
  | .wait t :: r => .wait t :: eventsOf w image r
  | .assign _ _ :: r => eventsOf w image r
  | .phase _ :: r => eventsOf w image r

theorem applyStmts_trace : (applyStmts w l s).trace = s.trace ++ eventsOf w s.image l := by
  induction l generalizing s with
  | nil => simp [eventsOf]
  | cons st l ih =>
    rw [applyStmts_cons, ih]
    cases st with
    | line b v => cases w <;>
        simp [Stmt.apply, eventsOf, State.busEvent, State.busEffect]
    | wait t => simp [Stmt.apply, eventsOf]
    | assign r v => simp [Stmt.apply, eventsOf]
    | phase p => simp [Stmt.apply, eventsOf]

/-- The shadow registers after the assignments of a statement list. -/
def shadowsAfter : List Stmt → Shadows → Shadows
  | [], sh => sh
  | .assign r v :: l, sh => shadowsAfter l (sh.set r v)
  | .line _ _ :: l, sh => shadowsAfter l sh
  | .wait _ :: l, sh => shadowsAfter l sh
  | .phase _ :: l, sh => shadowsAfter l sh

@[simp] theorem shadowsAfter_append (l l' : List Stmt) (sh : Shadows) :
    shadowsAfter (l ++ l') sh = shadowsAfter l' (shadowsAfter l sh) := by
  induction l generalizing sh with
  | nil => rfl
  | cons st l ih => cases st <;> simp [shadowsAfter, ih]

theorem applyStmts_display :
    (applyStmts w l s).display =
      s.display.map (fun d => { d with sh := shadowsAfter l d.sh }) := by
  induction l generalizing s with
  | nil => cases h : s.display <;> simp [shadowsAfter, h]
  | cons st l ih =>
    rw [applyStmts_cons, ih]
    cases st with
    | assign r v =>
      simp only [Stmt.apply, State.assign_display, Option.map_map, shadowsAfter]
      rfl
    | line b v => simp [Stmt.apply, shadowsAfter]
    | wait t => simp [Stmt.apply, shadowsAfter]
    | phase p => simp [Stmt.apply, shadowsAfter]

/-- The phase after the `phase <- P` statements of a list. -/
def phaseAfter : List Stmt → Phase → Phase
  | [], p => p
  | .phase q :: l, _ => phaseAfter l q
  | .line _ _ :: l, p => phaseAfter l p
  | .wait _ :: l, p => phaseAfter l p
  | .assign _ _ :: l, p => phaseAfter l p

@[simp] theorem phaseAfter_append (l l' : List Stmt) (p : Phase) :
    phaseAfter (l ++ l') p = phaseAfter l' (phaseAfter l p) := by
  induction l generalizing p with
  | nil => rfl
  | cons st l ih => cases st <;> simp [phaseAfter, ih]

theorem applyStmts_phase : (applyStmts w l s).phase = phaseAfter l s.phase := by
  induction l generalizing s with
  | nil => rfl
  | cons st l ih =>
    rw [applyStmts_cons, ih]
    cases st <;> simp [Stmt.apply, phaseAfter]

/-! ## The fields of a failed call -/

@[simp] theorem failedCall_build (a : LineId) (v : Bool) : (failedCall w a v s).build = s.build := rfl
@[simp] theorem failedCall_phase (a : LineId) (v : Bool) : (failedCall w a v s).phase = s.phase := rfl
@[simp] theorem failedCall_display (a : LineId) (v : Bool) : (failedCall w a v s).display = s.display := rfl
@[simp] theorem failedCall_replies (a : LineId) (v : Bool) : (failedCall w a v s).replies = s.replies := rfl
@[simp] theorem failedCall_inbox (a : LineId) (v : Bool) : (failedCall w a v s).inbox = s.inbox := rfl
@[simp] theorem failedCall_emission (a : LineId) (v : Bool) :
    (failedCall w a v s).emission = s.emission := rfl
@[simp] theorem failedCall_trace (a : LineId) (v : Bool) :
    (failedCall w a v s).trace = s.trace ++ [s.busEvent w a v, .fail] := by
  simp [failedCall, State.emit, State.dropAnswer, State.dropFree, State.busEffectIf]
@[simp] theorem failedCall_freeIx (a : LineId) (v : Bool) :
    (failedCall w a v s).freeIx = s.freeIx + 1 := rfl
@[simp] theorem failedCall_busAnswers (a : LineId) (v : Bool) :
    (failedCall w a v s).busAnswers = s.busAnswers.tail := rfl

/-- The levels after a failed call: those before it, or those it would have left. -/
theorem failedCall_levels (a : LineId) (v : Bool) :
    ((failedCall w a v s).lines = s.lines ∧ (failedCall w a v s).image = s.image) ∨
    ((failedCall w a v s).lines = (s.busEffect w a v).lines ∧
      (failedCall w a v s).image = (s.busEffect w a v).image) := by
  cases h : Config.failedCallTookEffect s.freeIx
  · exact .inl (by simp [failedCall, State.emit, State.dropAnswer, State.dropFree, State.busEffectIf, h])
  · exact .inr (by simp [failedCall, State.emit, State.dropAnswer, State.dropFree, State.busEffectIf, h])

/-- A failed call changes the level of no other line. -/
theorem failedCall_lines_read {a b : LineId} {v : Bool} (h : b ≠ a) :
    (failedCall w a v s).lines.read b = s.lines.read b := by
  rcases failedCall_levels w s a v with ⟨e, _⟩ | ⟨e, _⟩ <;> rw [e]
  cases w with
  | discrete => exact Memory.read_write_of_ne _ _ h
  | combined p => rfl

theorem failedCall_lines_wf {a : LineId} {v : Bool} (h : s.lines.wf) : (failedCall w a v s).lines.wf := by
  rcases failedCall_levels w s a v with ⟨e, _⟩ | ⟨e, _⟩ <;> rw [e]
  · exact h
  · cases w with
    | discrete => exact Memory.wf_write _ _ _ h
    | combined p => exact h

end Sys2Proof.Machine
end

