-- ==== Sys2Proof/Laws/Observe.lean ====
section
/-!
SUPPORT. The observations of statements, once for both transports: replayed on the levels, the events of a
statement list give the latches of its own line writes.
-/

namespace Sys2Proof.Machine

/-! ## Bits of the port image -/

theorem bitAt_getLsbD (v : Bool) (k k' : Fin 8) :
    (bitAt v k).getLsbD k' = (decide (k' = k) && v) := by
  revert k k'; cases v <;> decide

theorem getLsbD_place (p : CombinedParams) (image : Byte) (l : LineId) (v : Bool) (k : Fin 8) :
    (p.place image l v).getLsbD k = if k = p.bitpos l then v else image.getLsbD k := by
  have hk : (k : Nat) < 8 := k.isLt
  simp only [CombinedParams.place, BitVec.getLsbD_or, BitVec.getLsbD_and, BitVec.getLsbD_not,
    bitAt_getLsbD]
  by_cases h : k = p.bitpos l <;> simp [h]

/-- The bits the backlight mask leaves alone. -/
theorem getLsbD_backlight {mask : Byte} {used : List (Fin 8)} (h : backlightAdmitted mask used = true)
    {k : Fin 8} (hk : k ∈ used) : mask.getLsbD k = false := by
  simp only [backlightAdmitted, Bool.or_eq_true, decide_eq_true_eq, List.any_eq_true, Bool.and_eq_true,
    Bool.not_eq_true', List.contains_eq_mem, decide_eq_false_iff_not] at h
  rcases h with rfl | ⟨j, _, rfl, hj⟩
  · simp
  · rw [bitAt_getLsbD]
    have : k ≠ j := fun e => hj (e ▸ hk)
    simp [this]

/-! ## Admitted configurations -/

theorem admitted_nodup {c : DisplayConfig} (h : c.admitted = true) : c.lineIds.Nodup := by
  simp only [DisplayConfig.admitted, DisplayConfig.inDomain, Bool.and_eq_true, decide_eq_true_eq] at h
  exact h.1.2

theorem admitted_bitpos {c : DisplayConfig} {p : CombinedParams} (h : c.admitted = true)
    (hw : c.wiring = .combined p) {a b : LineId} (ha : a ∈ c.lineIds) (hb : b ∈ c.lineIds)
    (hab : p.bitpos a = p.bitpos b) : a = b := by
  simp only [DisplayConfig.admitted, DisplayConfig.wiringAdmitted, hw, Bool.and_eq_true,
    decide_eq_true_eq] at h
  exact List.inj_on_of_nodup_map h.2.1 ha hb hab

theorem admitted_backlight {c : DisplayConfig} {p : CombinedParams} (h : c.admitted = true)
    (hw : c.wiring = .combined p) {a : LineId} (ha : a ∈ c.lineIds) :
    p.backlightMask.getLsbD (p.bitpos a) = false := by
  simp only [DisplayConfig.admitted, DisplayConfig.wiringAdmitted, hw, Bool.and_eq_true] at h
  exact getLsbD_backlight h.2.2 (List.mem_map_of_mem ha)

/-! ## Replaying statements on levels -/

/-- The levels as a function of the line. -/
abbrev Levels := LineId → Option Bool

/-- One line driven. -/
def Levels.drive (f : Levels) (l : LineId) (v : Bool) : Levels := fun a => if a = l then some v else f a

/-- The latches and waits of a statement list that runs on given levels; `up` says whether EN was last
written 1. -/
def stmtLatches (c : DisplayConfig) : Bool → Levels → List Stmt → List LatchItem
  | _, _, [] => []
  | up, f, .line l v :: r =>
    (if l = c.en ∧ up = true ∧ v = false then [.latch (sampleLevels c (Levels.drive f l v))] else []) ++
      stmtLatches c (if l = c.en then v else up) (Levels.drive f l v) r
  | up, f, .wait t :: r => .wait t :: stmtLatches c up f r
  | up, f, .assign _ _ :: r => stmtLatches c up f r
  | up, f, .phase _ :: r => stmtLatches c up f r

/-- Whether EN was last written 1, after a statement list. -/
def upAfter (c : DisplayConfig) : Bool → List Stmt → Bool
  | up, [] => up
  | up, .line l v :: r => upAfter c (if l = c.en then v else up) r
  | up, .wait _ :: r => upAfter c up r
  | up, .assign _ _ :: r => upAfter c up r
  | up, .phase _ :: r => upAfter c up r

/-- The levels after a statement list. -/
def levelsAfter : Levels → List Stmt → Levels
  | f, [] => f
  | f, .line l v :: r => levelsAfter (Levels.drive f l v) r
  | f, .wait _ :: r => levelsAfter f r
  | f, .assign _ _ :: r => levelsAfter f r
  | f, .phase _ :: r => levelsAfter f r

theorem stmtLatches_append (c : DisplayConfig) (up : Bool) (f : Levels) (l l' : List Stmt) :
    stmtLatches c up f (l ++ l') =
      stmtLatches c up f l ++ stmtLatches c (upAfter c up l) (levelsAfter f l) l' := by
  induction l generalizing up f with
  | nil => rfl
  | cons st l ih => cases st <;> simp [stmtLatches, levelsAfter, upAfter, ih, List.append_assoc]

theorem upAfter_append (c : DisplayConfig) (up : Bool) (l l' : List Stmt) :
    upAfter c up (l ++ l') = upAfter c (upAfter c up l) l' := by
  induction l generalizing up with
  | nil => rfl
  | cons st l ih => cases st <;> simp [upAfter, ih]

theorem levelsAfter_append (f : Levels) (l l' : List Stmt) :
    levelsAfter f (l ++ l') = levelsAfter (levelsAfter f l) l' := by
  induction l generalizing f with
  | nil => rfl
  | cons st l ih => cases st <;> simp [levelsAfter, ih]

/-- The levels a view and a port image stand for, on the driven lines. -/
structure Stands (c : DisplayConfig) (f : Levels) (v : View) (image : Byte) : Prop where
  level : ∀ l ∈ c.lineIds, v.level c l = f l
  image : ∀ p, c.wiring = .combined p → ∀ l ∈ c.lineIds, some (image.getLsbD (p.bitpos l)) = f l

/-- A state's own view stands for its levels. -/
theorem stands_view (c : DisplayConfig) (s : State) : Stands c (s.view.level c) s.view s.image where
  level _ _ := rfl
  image p hp l _ := by simp [View.level, hp]

theorem eventsOf_head_ne_fail (w : Wiring) (image : Byte) (l : List Stmt) :
    (eventsOf w image l).head? ≠ some .fail := by
  induction l generalizing image with
  | nil => simp [eventsOf]
  | cons st l ih => cases st <;> first | exact ih _ | (cases w <;> simp [eventsOf])

/-- One event that did not fail. -/
theorem latchTrace_cons {c : DisplayConfig} {r : Replay} {e : Event} {es : List Event}
    (h : failedBefore es = false) :
    latchTrace c r (e :: es) = latchItems c r e false ++ latchTrace c (r.next c e false) es := by
  rw [latchTrace, h]

/-- The events of statements hold no `Fail`. -/
theorem failedBefore_eventsOf (w : Wiring) (image : Byte) (l : List Stmt) :
    failedBefore (eventsOf w image l) = false := by
  simp [failedBefore, eventsOf_head_ne_fail]

theorem sample_eq {c : DisplayConfig} {f : Levels} {v : View} (h : ∀ l ∈ c.lineIds, v.level c l = f l) :
    v.sample c = sampleLevels c f := by
  have hr : v.level c c.rs = f c.rs := h _ (by simp [DisplayConfig.lineIds])
  have hd : c.data.ids.map (v.level c) = c.data.ids.map f :=
    List.map_congr_left fun l hl => h l (by simp [DisplayConfig.lineIds, hl])
  simp only [View.sample, sampleLevels, hr, hd]

theorem stands_discrete {c : DisplayConfig} {f : Levels} {v : View} {image : Byte}
    (hw : c.wiring = .discrete) (h : Stands c f v image) (l : LineId) (b : Bool) :
    Stands c (Levels.drive f l b) (v.after (.line l b)) image where
  level a ha := by
    have := h.level a ha
    simp only [View.level, hw, View.after, Levels.drive] at this ⊢
    split
    · subst_vars; simp
    · rw [Memory.read_write_of_ne _ _ ‹_›]; exact this
  image p hp := by simp [hw] at hp

theorem stands_combined {c : DisplayConfig} {p : CombinedParams} {f : Levels} {v : View} {image : Byte}
    (hc : c.admitted = true) (hw : c.wiring = .combined p) (h : Stands c f v image) {l : LineId}
    (hl : l ∈ c.lineIds) (b : Bool) (addr : Nat) :
    Stands c (Levels.drive f l b) (v.after (.reg addr (p.place image l b ||| p.backlightMask)))
      (p.place image l b) := by
  have key : ∀ a ∈ c.lineIds, some ((p.place image l b).getLsbD (p.bitpos a)) = Levels.drive f l b a := by
    intro a ha
    rw [getLsbD_place]
    simp only [Levels.drive]
    by_cases hab : a = l
    · simp [hab]
    · have : p.bitpos a ≠ p.bitpos l := fun e => hab (admitted_bitpos hc hw ha hl e)
      simp only [this, if_false, hab]
      exact h.image p hw a ha
  refine ⟨fun a ha => ?_, fun q hq => ?_⟩
  · simp only [View.level, hw, View.after, Option.map_some, BitVec.getLsbD_or,
      admitted_backlight hc hw ha, Bool.or_false]
    exact key a ha
  · rw [hw] at hq; cases hq; exact key

/-- A replay stands where statements run: its view for the levels, its record of EN for theirs, and behind
the combined transport EN's bit of the image is what was last written to EN. -/
structure StandsAt (c : DisplayConfig) (up : Bool) (f : Levels) (r : Replay) (image : Byte) : Prop where
  stands : Stands c f r.view image
  raised : r.up = up
  en : ∀ p, c.wiring = .combined p → f c.en = some up

/-- A state's own replay stands at its levels. -/
theorem standsAt_replay (c : DisplayConfig) (s : State) :
    StandsAt c (s.replay c).up (s.view.level c) (s.replay c) s.image where
  stands := stands_view c s
  raised := rfl
  en p hp := by simp [State.replay, View.level, hp]

theorem enWrite_combined {c : DisplayConfig} {p : CombinedParams} (hc : c.admitted = true)
    (hw : c.wiring = .combined p) {image : Byte} {g : Levels} (l : LineId) (b : Bool)
    (h : ∀ a ∈ c.lineIds, some ((p.place image l b).getLsbD (p.bitpos a)) = g a) :
    enWrite c (.reg p.regAddress (p.place image l b ||| p.backlightMask)) = g c.en := by
  have he : c.en ∈ c.lineIds := by simp [DisplayConfig.lineIds]
  simp only [enWrite, hw, BitVec.getLsbD_or, admitted_backlight hc hw he, Bool.or_false]
  exact h _ he

/-- THE LATCH-LEVEL TRACE OF STATEMENTS (R69, R120): for either transport it is the latches of the line
writes. -/
theorem latchTrace_eventsOf {c : DisplayConfig} (hc : c.admitted = true) (l : List Stmt) :
    ∀ {up : Bool} {f : Levels} {r : Replay} {image : Byte}, (∀ a ∈ drivenLines l, a ∈ c.lineIds) →
      StandsAt c up f r image → latchTrace c r (eventsOf c.wiring image l) = stmtLatches c up f l := by
  induction l with
  | nil => intros; rfl
  | cons st l ih =>
    intro up f r image hd h
    cases st with
    | wait t =>
      have hn := failedBefore_eventsOf c.wiring image l
      simp only [eventsOf, latchTrace, stmtLatches, latchItems, hn, List.singleton_append, List.cons.injEq,
        true_and]
      exact ih hd ⟨h.stands, h.raised, h.en⟩
    | assign r b => exact ih hd h
    | phase p => exact ih hd h
    | line a b =>
      have ha : a ∈ c.lineIds := hd a (by simp [drivenLines])
      have hd' : ∀ x ∈ drivenLines l, x ∈ c.lineIds := fun x hx => hd x (by simp [drivenLines, hx])
      have hup := h.raised
      cases hw : c.wiring with
      | discrete =>
        have h' := stands_discrete hw h.stands a b
        have hn := failedBefore_eventsOf .discrete image l
        have hi := ih (r := r.next c (.line a b) false) (up := if a = c.en then b else up) hd'
          ⟨h', by simp only [Replay.next, enWrite, hw, hup]; split <;> rfl, by simp [hw]⟩
        rw [hw] at hi
        have hs : (r.view.next (.line a b) false).sample c = _ := sample_eq h'.level
        simp only [eventsOf, latchTrace, hn, hi, stmtLatches, latchItems, enWrite, hw, hup, hs]
        by_cases hae : a = c.en <;> simp [hae]
      | combined p =>
        have h' := stands_combined hc hw h.stands ha b p.regAddress
        have hn := failedBefore_eventsOf (.combined p) (p.place image a b) l
        have hen := enWrite_combined hc hw a b (h'.image p hw)
        have hlev : Levels.drive f a b c.en = some (if a = c.en then b else up) := by
          simp only [Levels.drive, eq_comm (a := c.en)]
          split
          · rfl
          · exact h.en p hw
        have hi := ih (r := r.next c (.reg p.regAddress (p.place image a b ||| p.backlightMask)) false)
          (up := if a = c.en then b else up) hd'
          ⟨h', by simp only [Replay.next, hen, hlev, Option.getD_some], fun _ _ => hlev⟩
        rw [hw] at hi
        have hs : (r.view.next (.reg p.regAddress (p.place image a b ||| p.backlightMask)) false).sample c =
            _ := sample_eq h'.level
        simp only [eventsOf, latchTrace, hn, hi, stmtLatches, latchItems, hen, hlev, hup, hs,
          Option.some.injEq]
        by_cases hae : a = c.en
        · simp [hae]
        · cases up <;> simp [hae]

/-- The view of the state statements leave stands for the levels after them. -/
theorem view_applyStmts {c : DisplayConfig} (hc : c.admitted = true) (l : List Stmt) :
    ∀ {f : Levels} {s : State}, (∀ a ∈ drivenLines l, a ∈ c.lineIds) →
      (∀ a ∈ c.lineIds, s.view.level c a = f a) →
      ∀ a ∈ c.lineIds, (applyStmts c.wiring l s).view.level c a = levelsAfter f l a := by
  induction l with
  | nil => intro f s _ h; exact h
  | cons st l ih =>
    intro f s hd h
    cases st with
    | wait t => exact ih hd h
    | assign r b => exact ih hd h
    | phase p => exact ih hd h
    | line a b =>
      have ha : a ∈ c.lineIds := hd a (by simp [drivenLines])
      have hd' : ∀ x ∈ drivenLines l, x ∈ c.lineIds := fun x hx => hd x (by simp [drivenLines, hx])
      refine ih (f := Levels.drive f a b) hd' (fun x hx => ?_)
      have hs := h x hx
      cases hw : c.wiring with
      | discrete =>
        simp only [View.level, hw, Levels.drive, State.view_lines, Stmt.apply, State.busEffect,
          State.emit_lines, State.dropAnswer_lines, State.setLine_lines] at hs ⊢
        split
        · subst_vars; simp
        · rw [Memory.read_write_of_ne _ _ ‹_›]; exact hs
      | combined p =>
        simp only [View.level, hw, Levels.drive, State.view_image, Option.map_some, Stmt.apply,
          State.busEffect, State.emit_image, State.dropAnswer_image, State.setImage_image,
          getLsbD_place] at hs ⊢
        by_cases hab : x = a
        · simp [hab]
        · have : p.bitpos x ≠ p.bitpos a := fun e => hab (admitted_bitpos hc hw hx ha e)
          simp only [this, if_false, hab]
          exact hs

end Sys2Proof.Machine
end

