-- ==== Sys2Proof/Laws/Transfers.lean ====
section
/-!
SUPPORT. The transfer-level trace of the primitives: `write_byte` is one transfer in either bus mode, and
statement lists are read transfer by transfer.
-/

namespace Sys2Proof.Machine

/-! ## The lines the primitives drive -/

theorem drivenLines_dataBits (v : Byte) (k : Nat) (ls : List LineId) :
    drivenLines (dataBits v k ls) = ls := by
  induction ls generalizing k with
  | nil => rfl
  | cons l ls ih => simp [dataBits, drivenLines, ih]

theorem drivenLines_writeByte (c : DisplayConfig) (b : Byte) (r : Bool) :
    ∀ l ∈ drivenLines (writeByte c b r), l ∈ c.lineIds := by
  intro l hl
  cases hd : c.data <;>
    simp [writeByte, hd, writeNibble, writeBus8, pulseEn, drivenLines, drivenLines_dataBits,
      DisplayConfig.lineIds, DataLines.ids] at hl ⊢ <;> tauto

theorem drivenLines_writeNibble {c : DisplayConfig} {d4 d5 d6 d7 : LineId}
    (hd : c.data = .four d4 d5 d6 d7) (v : Byte) :
    ∀ l ∈ drivenLines (writeNibble c d4 d5 d6 d7 v), l ∈ c.lineIds := by
  intro l hl
  simp [hd, writeNibble, pulseEn, drivenLines, drivenLines_dataBits, DisplayConfig.lineIds,
    DataLines.ids] at hl ⊢
  tauto

/-! ## One nibble, one byte -/

theorem pack_high (v : Byte) : BitVec.ofNat 8 ((if v.getLsbD 4 then 1 else 0) +
    2 * ((if v.getLsbD 5 then 1 else 0) + 2 * ((if v.getLsbD 6 then 1 else 0) +
      2 * ((if v.getLsbD 7 then 1 else 0) + 2 * 0)))) = v >>> 4 := by
  revert v; decide

theorem pack_byte (v : Byte) : BitVec.ofNat 8 ((if v.getLsbD 0 then 1 else 0) +
    2 * ((if v.getLsbD 1 then 1 else 0) + 2 * ((if v.getLsbD 2 then 1 else 0) +
      2 * ((if v.getLsbD 3 then 1 else 0) + 2 * ((if v.getLsbD 4 then 1 else 0) +
        2 * ((if v.getLsbD 5 then 1 else 0) + 2 * ((if v.getLsbD 6 then 1 else 0) +
          2 * ((if v.getLsbD 7 then 1 else 0) + 2 * 0)))))))) = v := by
  revert v; decide

/-- The nibbles join to the byte they were split from (R56, R69). -/
theorem join_split (b : Byte) (r : Bool) :
    joinNibbles (some (r, highNibble b >>> 4)) (some (r, lowNibble b >>> 4)) = some (r, b) := by
  simp only [joinNibbles, highNibble, lowNibble, Option.some.injEq, Prod.mk.injEq, true_and]
  revert b; decide

/-- Driving data lines latches nothing and leaves EN alone: EN is not among them. -/
theorem stmtLatches_dataBits {c : DisplayConfig} (up : Bool) (f : Levels) (v : Byte) (k : Nat)
    {ls : List LineId} (hen : c.en ∉ ls) :
    stmtLatches c up f (dataBits v k ls) = [] ∧ upAfter c up (dataBits v k ls) = up := by
  induction ls generalizing f k with
  | nil => exact ⟨rfl, rfl⟩
  | cons l ls ih =>
    simp only [List.mem_cons, not_or] at hen
    have hne : ¬ l = c.en := fun e => hen.1 e.symm
    simpa [dataBits, stmtLatches, upAfter, hne] using ih (Levels.drive f l (v.getLsbD k)) (k + 1) hen.2

/-- Data lines leave every other line alone. -/
theorem levelsAfter_dataBits_of_notMem (f : Levels) (v : Byte) (k : Nat) {ls : List LineId} {a : LineId}
    (h : a ∉ ls) : levelsAfter f (dataBits v k ls) a = f a := by
  induction ls generalizing f k with
  | nil => rfl
  | cons l ls ih =>
    simp only [List.mem_cons, not_or] at h
    simp only [dataBits, levelsAfter, ih _ _ h.2, Levels.drive, h.1, if_false]

/-- Bits `k`, `k+1`, … of `v`, `n` of them. -/
def bitsFrom (v : Byte) (k : Nat) : Nat → List (Option Bool)
  | 0 => []
  | n + 1 => some (v.getLsbD k) :: bitsFrom v (k + 1) n

/-- Distinct data lines hold the bits in order. -/
theorem map_levelsAfter_dataBits (f : Levels) (v : Byte) (k : Nat) {ls : List LineId} (h : ls.Nodup) :
    ls.map (levelsAfter f (dataBits v k ls)) = bitsFrom v k ls.length := by
  induction ls generalizing f k with
  | nil => rfl
  | cons l ls ih =>
    have hl := List.nodup_cons.mp h
    simp only [List.map_cons, dataBits, levelsAfter, List.length_cons, bitsFrom, ih _ _ hl.2,
      levelsAfter_dataBits_of_notMem _ _ _ hl.1, Levels.drive, if_true]

theorem levelsAfter_pulseEn (c : DisplayConfig) (f : Levels) (a : LineId) :
    levelsAfter f (pulseEn c) a = if a = c.en then some false else f a := by
  simp only [pulseEn, levelsAfter, Levels.drive]
  split <;> rfl

/-- The pulse is one latch of what the lines hold, whatever was written to EN before (R110). -/
theorem stmtLatches_pulseEn {c : DisplayConfig} (hc : c.admitted = true) (up : Bool) (f : Levels) :
    stmtLatches c up f (pulseEn c) = [.wait .tEn, .latch (sampleLevels c f), .wait .tEn] ∧
      upAfter c up (pulseEn c) = false := by
  have hn := admitted_nodup hc
  simp only [DisplayConfig.lineIds, List.nodup_cons, List.mem_cons, not_or] at hn
  have hs : sampleLevels c (Levels.drive (Levels.drive f c.en true) c.en false) = sampleLevels c f := by
    have h1 : Levels.drive (Levels.drive f c.en true) c.en false c.rs = f c.rs := by
      simp [Levels.drive, hn.1.1]
    have h2 : c.data.ids.map (Levels.drive (Levels.drive f c.en true) c.en false) = c.data.ids.map f :=
      List.map_congr_left fun l hl => by
        have : l ≠ c.en := fun e => hn.2.1 (e ▸ hl)
        simp [Levels.drive, this]
    simp only [sampleLevels, h1, h2]
  exact ⟨by simp [pulseEn, stmtLatches, hs], by simp [pulseEn, upAfter]⟩

/-- Data bits and a pulse on all data lines: one latch of those bits; EN ends at 0 and RS as it was. -/
theorem stmtLatches_dataBits_pulse {c : DisplayConfig} (hc : c.admitted = true) (v : Byte) (k : Nat)
    {up : Bool} {f : Levels} {r : Bool} (hr : f c.rs = some r) {n : Nat}
    (hp : packLevels (bitsFrom v k c.data.ids.length) = some n) :
    stmtLatches c up f (dataBits v k c.data.ids ++ pulseEn c) =
        [.wait .tEn, .latch (some (r, BitVec.ofNat 8 n)), .wait .tEn] ∧
      upAfter c up (dataBits v k c.data.ids ++ pulseEn c) = false ∧
      levelsAfter f (dataBits v k c.data.ids ++ pulseEn c) c.en = some false ∧
      levelsAfter f (dataBits v k c.data.ids ++ pulseEn c) c.rs = some r := by
  have hn := admitted_nodup hc
  simp only [DisplayConfig.lineIds, List.nodup_cons, List.mem_cons, not_or] at hn
  have hrs : levelsAfter f (dataBits v k c.data.ids) c.rs = some r := by
    rw [levelsAfter_dataBits_of_notMem _ _ _ hn.1.2, hr]
  refine ⟨?_, ?_, ?_, ?_⟩
  · rw [stmtLatches_append, (stmtLatches_dataBits _ _ _ _ hn.2.1).1, (stmtLatches_pulseEn hc _ _).1]
    simp only [sampleLevels, hrs, map_levelsAfter_dataBits _ _ _ hn.2.2, hp, List.nil_append]
  · rw [upAfter_append, (stmtLatches_pulseEn hc _ f).2]
  · rw [levelsAfter_append, levelsAfter_pulseEn, if_pos rfl]
  · rw [levelsAfter_append, levelsAfter_pulseEn, if_neg hn.1.1, hrs]

/-- One nibble is one latch of its payload; the pulse leaves EN at 0 and RS as it was (R110, R111). -/
theorem stmtLatches_writeNibble {c : DisplayConfig} (hc : c.admitted = true) {d4 d5 d6 d7 : LineId}
    (hd : c.data = .four d4 d5 d6 d7) (v : Byte) {up : Bool} {f : Levels} {r : Bool}
    (hr : f c.rs = some r) :
    stmtLatches c up f (writeNibble c d4 d5 d6 d7 v) =
        [.wait .tEn, .latch (some (r, v >>> 4)), .wait .tEn] ∧
      upAfter c up (writeNibble c d4 d5 d6 d7 v) = false ∧
      levelsAfter f (writeNibble c d4 d5 d6 d7 v) c.en = some false ∧
      levelsAfter f (writeNibble c d4 d5 d6 d7 v) c.rs = some r := by
  rw [← pack_high]
  have h := stmtLatches_dataBits_pulse hc v 4 (up := up) hr (n := (if v.getLsbD 4 then 1 else 0) +
    2 * ((if v.getLsbD 5 then 1 else 0) + 2 * ((if v.getLsbD 6 then 1 else 0) +
      2 * ((if v.getLsbD 7 then 1 else 0) + 2 * 0)))) (by rw [hd]; rfl)
  rw [hd] at h
  exact h

/-- One 8-bit latch is one latch of its byte (R112). -/
theorem stmtLatches_writeBus8 {c : DisplayConfig} (hc : c.admitted = true)
    {d0 d1 d2 d3 d4 d5 d6 d7 : LineId} (hd : c.data = .eight d0 d1 d2 d3 d4 d5 d6 d7) (v : Byte)
    {up : Bool} {f : Levels} {r : Bool} (hr : f c.rs = some r) :
    stmtLatches c up f (writeBus8 c [d0, d1, d2, d3, d4, d5, d6, d7] v) =
        [.wait .tEn, .latch (some (r, v)), .wait .tEn] ∧
      upAfter c up (writeBus8 c [d0, d1, d2, d3, d4, d5, d6, d7] v) = false ∧
      levelsAfter f (writeBus8 c [d0, d1, d2, d3, d4, d5, d6, d7] v) c.en = some false ∧
      levelsAfter f (writeBus8 c [d0, d1, d2, d3, d4, d5, d6, d7] v) c.rs = some r := by
  have h := stmtLatches_dataBits_pulse hc v 0 (up := up) hr (n := (if v.getLsbD 0 then 1 else 0) +
    2 * ((if v.getLsbD 1 then 1 else 0) + 2 * ((if v.getLsbD 2 then 1 else 0) +
      2 * ((if v.getLsbD 3 then 1 else 0) + 2 * ((if v.getLsbD 4 then 1 else 0) +
        2 * ((if v.getLsbD 5 then 1 else 0) + 2 * ((if v.getLsbD 6 then 1 else 0) +
          2 * ((if v.getLsbD 7 then 1 else 0) + 2 * 0)))))))) (by rw [hd]; rfl)
  rw [hd, pack_byte] at h
  exact h

/-! ## Statement lists at the transfer level -/

/-- The transfer-level trace of statements that run on given levels, between two transfers. -/
def stmtXfers (c : DisplayConfig) (up : Bool) (f : Levels) (l : List Stmt) : List XferItem :=
  match c.busMode with
  | .four => pairLatches 0 none (stmtLatches c up f l)
  | .eight => wholeLatches (stmtLatches c up f l)

theorem stmtXfers_nil (c : DisplayConfig) (up : Bool) (f : Levels) : stmtXfers c up f [] = [] := by
  unfold stmtXfers; split <;> rfl

theorem stmtXfers_assign (c : DisplayConfig) (up : Bool) (f : Levels) (r : Shadow) (v : Byte)
    (l : List Stmt) : stmtXfers c up f (.assign r v :: l) = stmtXfers c up f l := rfl

theorem stmtXfers_phase (c : DisplayConfig) (up : Bool) (f : Levels) (q : Phase) (l : List Stmt) :
    stmtXfers c up f (.phase q :: l) = stmtXfers c up f l := rfl

/-- A wait other than the one that opens a `start` is itself. -/
theorem stmtXfers_wait (c : DisplayConfig) (up : Bool) (f : Levels) {t : Wait} (ht : t ≠ .tReset)
    (l : List Stmt) : stmtXfers c up f (.wait t :: l) = .wait t :: stmtXfers c up f l := by
  unfold stmtXfers; split <;> simp [stmtLatches, pairLatches, wholeLatches, ht]

/-- ONE BYTE IS ONE TRANSFER, in either bus mode and whatever follows it (R113). -/
theorem stmtXfers_writeByte {c : DisplayConfig} (hc : c.admitted = true) (up : Bool) (f : Levels) (b : Byte)
    (r : Bool) (l : List Stmt) :
    shown (stmtXfers c up f (writeByte c b r ++ l)) =
      .xfer (some (r, b)) :: shown (stmtXfers c false (levelsAfter f (writeByte c b r)) l) := by
  have hne : ¬ c.rs = c.en := by
    have hn := admitted_nodup hc
    simp only [DisplayConfig.lineIds, List.nodup_cons, List.mem_cons, not_or] at hn
    exact hn.1.1
  have hr : Levels.drive f c.rs r c.rs = some r := by simp [Levels.drive]
  have hrs : stmtLatches c up f (writeByte c b r ++ l) =
      stmtLatches c up (Levels.drive f c.rs r) ((writeByte c b r).tail ++ l) := by
    simp [writeByte, stmtLatches, hne]
  have hla : levelsAfter f (writeByte c b r) =
      levelsAfter (Levels.drive f c.rs r) (writeByte c b r).tail := rfl
  unfold stmtXfers
  rw [hrs, hla, stmtLatches_append]
  cases hd : c.data with
  | four d4 d5 d6 d7 =>
    obtain ⟨h1, h2, _, h3⟩ := stmtLatches_writeNibble hc hd (highNibble b) (up := up) hr
    obtain ⟨k1, k2, _, _⟩ := stmtLatches_writeNibble hc hd (lowNibble b) (up := false) h3
    simp only [DisplayConfig.busMode, hd, writeByte, List.tail_cons, stmtLatches_append, upAfter_append, h1,
      h2, k1, k2, List.cons_append, List.nil_append, pairLatches, join_split]
    rfl
  | eight d0 d1 d2 d3 d4 d5 d6 d7 =>
    obtain ⟨h1, h2, _⟩ := stmtLatches_writeBus8 hc hd b (up := up) hr
    simp only [DisplayConfig.busMode, hd, writeByte, List.tail_cons, h1, h2, List.cons_append,
      List.nil_append, wholeLatches]
    rfl

/-- After a byte EN is at 0 (R110). -/
theorem levelsAfter_writeByte_en {c : DisplayConfig} (hc : c.admitted = true) (f : Levels) (b : Byte)
    (r : Bool) : levelsAfter f (writeByte c b r) c.en = some false := by
  have hr : Levels.drive f c.rs r c.rs = some r := by simp [Levels.drive]
  have hla : levelsAfter f (writeByte c b r) =
      levelsAfter (Levels.drive f c.rs r) (writeByte c b r).tail := rfl
  rw [hla]
  cases hd : c.data with
  | four d4 d5 d6 d7 =>
    obtain ⟨_, _, _, h3⟩ := stmtLatches_writeNibble hc hd (highNibble b) (up := false) hr
    simp only [writeByte, hd, List.tail_cons, levelsAfter_append]
    exact (stmtLatches_writeNibble hc hd (lowNibble b) (up := false) h3).2.2.1
  | eight d0 d1 d2 d3 d4 d5 d6 d7 =>
    simp only [writeByte, hd, List.tail_cons]
    exact (stmtLatches_writeBus8 hc hd b (up := false) hr).2.2.1

/-- A sequence of data bytes is a sequence of data transfers, in order (R164). -/
theorem stmtXfers_writeDrAll {c : DisplayConfig} (hc : c.admitted = true) (up : Bool) (f : Levels)
    (bs : List Byte) : shown (stmtXfers c up f (writeDrAll c bs)) = bs.map drXfer := by
  induction bs generalizing up f with
  | nil => simp [writeDrAll, stmtXfers_nil, shown]
  | cons b bs ih => simp only [writeDrAll, writeDr, stmtXfers_writeByte hc, ih, List.map_cons]; rfl

/-- A count of shift steps is that many identical transfers (R167, R170). -/
theorem stmtXfers_shiftSteps (k : Codes) {d : DisplayState} (hc : d.cfg.admitted = true) (up : Bool)
    (f : Levels) (m r : Bool) (n : Nat) :
    shown (stmtXfers d.cfg up f (shiftSteps k d m r n)) = List.replicate n (irXfer (k.shiftByte m r)) := by
  induction n generalizing up f with
  | zero => simp [shiftSteps, stmtXfers_nil, shown]
  | succ n ih =>
    simp only [shiftSteps, shiftStep, writeShadowed, setFeature, writeIr, List.cons_append,
      stmtXfers_assign, DisplayState.setShadow_cfg, stmtXfers_writeByte hc, ih, List.replicate_succ,
      DisplayState.setShadow_sh, Shadows.get_set_self]
    rfl

end Sys2Proof.Machine
end

