-- ==== Sys2Proof/Laws/Plans.lean ====
section
/-!
SUPPORT. What an Operation does, said once: a plan that depends on the build, the shadow registers and the
geometry alone, and the laws of plans; every Operation is its plan (`exec_operation`).
-/

namespace Sys2Proof.Machine

/-- A part of an Operation: a shadow assignment, one whole transfer, or a wait. -/
inductive Piece where
  | assign (r : Shadow) (v : Byte)
  | byte (rs : Bool) (b : Byte)
  | wait (t : Wait)
deriving DecidableEq, Repr

/-- The statements of a part on a configuration. -/
def Piece.stmts (c : DisplayConfig) : Piece → List Stmt
  | .assign r v => [.assign r v]
  | .byte rs b => writeByte c b rs
  | .wait t => [.wait t]

/-- The statements of a list of parts. -/
def expand (c : DisplayConfig) : List Piece → List Stmt
  | [] => []
  | p :: ps => p.stmts c ++ expand c ps

theorem expand_append (c : DisplayConfig) (ps qs : List Piece) :
    expand c (ps ++ qs) = expand c ps ++ expand c qs := by
  induction ps with
  | nil => rfl
  | cons p ps ih => simp [expand, ih]

/-- What an Operation does in phase `ready`. -/
inductive Plan where
  | refuse
  | unsupported
  | run (ps : List Piece)
deriving DecidableEq, Repr

/-- `n` shift steps (R170). -/
def shiftPieces (v : Byte) : Nat → List Piece
  | 0 => []
  | n + 1 => .assign .shiftControl v :: .byte false v :: shiftPieces v n

/-- The plan of each Operation; the other constructors have none. -/
def plan (b : Build) (sh : Shadows) (c : DisplayConfig) : Instr → Plan
  | .clear => .run [.byte false b.codes.clear, .wait .tClear]
  | .home => .run [.byte false b.codes.home, .wait .tClear]
  | .write text =>
    if textAdmitted text then
      match mapText b text with
      | none => .refuse
      | some codes => .run (codes.map (.byte true))
    else .unsupported
  | .setCursor row col => .run [.byte false (setDdramByte (ddramAddress c row col))]
  | .scroll n => .run (shiftPieces (b.codes.shiftByte true (decide (0 < n))) n.natAbs)
  | .moveLeft n =>
    if n < 0 then .unsupported else .run (shiftPieces (b.codes.shiftByte false false) n.toNat)
  | .moveRight n =>
    if n < 0 then .unsupported else .run (shiftPieces (b.codes.shiftByte false true) n.toNat)
  | .enable f =>
    match featureOf b f with
    | none => .unsupported
    | some f =>
      .run [.assign f.owner (setFlags (sh.get f.owner) f.mask),
        .byte false (setFlags (sh.get f.owner) f.mask)]
  | .disable f =>
    match featureOf b f with
    | none => .unsupported
    | some f =>
      .run [.assign f.owner (clearFlags (sh.get f.owner) f.mask),
        .byte false (clearFlags (sh.get f.owner) f.mask)]
  | .createChar idx bitmap =>
    if glyphAdmitted idx bitmap then
      .run (.byte false (setCgramByte idx) :: (bitmapBytes bitmap).map (.byte true))
    else .unsupported
  | .unrecognised101x _ => .unsupported
  | .unrecognised11xx _ => .unsupported
  | .start _ => .unsupported
  | .stop => .unsupported
  | .reservedCapability => .unsupported
  | .irClear => .unsupported
  | .irHome => .unsupported
  | .irEntryMode _ _ => .unsupported
  | .irDisplayControl _ _ _ => .unsupported
  | .irCursorShift _ _ => .unsupported
  | .irFunctionSet _ _ _ => .unsupported
  | .irSetCgram _ => .unsupported
  | .irSetDdram _ => .unsupported
  | .dataChar _ => .unsupported
  | .dataBitmapRow _ => .unsupported
  | .forceNibble8bit => .unsupported
  | .forceNibble4bit => .unsupported

/-- Carrying a plan out. -/
def Plan.carryOut (s : State) (d : DisplayState) : Plan → Out
  | .refuse => .refused .lowcodeGrapheme
  | .unsupported => .next (s.reply .unsupported)
  | .run ps => s.runOperation d (expand d.cfg ps)

/-! ## The statements of the primitives are parts -/

theorem expand_bytes (c : DisplayConfig) (bs : List Byte) :
    expand c (bs.map (.byte true)) = writeDrAll c bs := by
  induction bs with
  | nil => rfl
  | cons b bs ih => simp [expand, Piece.stmts, writeDrAll, writeDr, ih]

theorem expand_shadowed (d : DisplayState) (r : Shadow) (v : Byte) :
    expand d.cfg [.assign r v, .byte false v] = writeShadowed d r v := by
  simp [expand, Piece.stmts, writeShadowed, setFeature, writeIr]

theorem expand_shiftPieces (k : Codes) (d : DisplayState) (m r : Bool) (n : Nat) :
    expand d.cfg (shiftPieces (k.shiftByte m r) n) = shiftSteps k d m r n := by
  induction n with
  | zero => rfl
  | succ n ih =>
    simp only [shiftPieces, expand, ih, shiftSteps, shiftStep]
    rw [← expand_shadowed]
    simp [expand]

/-! ## Every Operation is its plan -/

theorem inReady_of {s : State} {d : DisplayState} {k : DisplayState → Out} (hp : s.phase = .ready)
    (hd : s.display = some d) : s.inReady k = k d := by
  simp [State.inReady, State.withDisplay, hp, hd]

/-- EVERY OPERATION IS ITS PLAN in phase `ready` (R160). -/
theorem exec_operation {i : Instr} {s : State} {d : DisplayState} (hi : i.isOperation = true)
    (hp : s.phase = .ready) (hd : s.display = some d) :
    exec i s = (plan s.build d.sh d.cfg i).carryOut s d := by
  cases i <;>
    first
    | exact absurd hi Bool.false_ne_true
    | skip
  case clear =>
    simp [exec, execClear, inReady_of hp hd, plan, Plan.carryOut, expand, Piece.stmts, writeIr]
  case home =>
    simp [exec, execHome, inReady_of hp hd, plan, Plan.carryOut, expand, Piece.stmts, writeIr]
  case write text =>
    simp only [exec, execWrite, inReady_of hp hd, plan]
    split
    · cases mapText s.build text <;> simp [Plan.carryOut, expand_bytes]
    · simp [Plan.carryOut, State.returnUnsupported]
  case setCursor row col =>
    simp [exec, execSetCursor, inReady_of hp hd, plan, Plan.carryOut, expand, Piece.stmts, writeIr]
  case scroll n =>
    simp [exec, execScroll, inReady_of hp hd, plan, Plan.carryOut, expand_shiftPieces]
  case moveLeft n =>
    simp only [exec, execMoveLeft, inReady_of hp hd, plan]
    split <;> simp [Plan.carryOut, expand_shiftPieces, State.returnUnsupported]
  case moveRight n =>
    simp only [exec, execMoveRight, inReady_of hp hd, plan]
    split <;> simp [Plan.carryOut, expand_shiftPieces, State.returnUnsupported]
  case enable f =>
    simp only [exec, execEnable, inReady_of hp hd, plan]
    cases featureOf s.build f <;>
      simp [Plan.carryOut, expand_shadowed, enableFlag, State.returnUnsupported]
  case disable f =>
    simp only [exec, execDisable, inReady_of hp hd, plan]
    cases featureOf s.build f <;>
      simp [Plan.carryOut, expand_shadowed, disableFlag, State.returnUnsupported]
  case createChar idx bitmap =>
    simp only [exec, execCreateChar, inReady_of hp hd, plan]
    split <;> simp [Plan.carryOut, expand, Piece.stmts, expand_bytes, writeIr, State.returnUnsupported]
  case unrecognised101x x =>
    simp [exec, execUnrecognised101x, inReady_of hp hd, plan, Plan.carryOut, State.returnUnsupported]
  case unrecognised11xx x =>
    simp [exec, execUnrecognised11xx, inReady_of hp hd, plan, Plan.carryOut, State.returnUnsupported]

/-! ## The laws of parts -/

/-- The transfer-level items of parts. -/
def itemsOf : List Piece → List XferItem
  | [] => []
  | .assign _ _ :: ps => itemsOf ps
  | .byte rs b :: ps => .xfer (some (rs, b)) :: itemsOf ps
  | .wait t :: ps => .wait t :: itemsOf ps

/-- The shadow registers after parts. -/
def shadowsOf : List Piece → Shadows → Shadows
  | [], sh => sh
  | .assign r v :: ps, sh => shadowsOf ps (sh.set r v)
  | .byte _ _ :: ps, sh => shadowsOf ps sh
  | .wait _ :: ps, sh => shadowsOf ps sh

/-- Parts that do not open a `start` are their items, whatever was written to EN before. -/
theorem stmtXfers_expand {c : DisplayConfig} (hc : c.admitted = true) (up : Bool) (f : Levels)
    {ps : List Piece} (hps : .wait .tReset ∉ ps) :
    shown (stmtXfers c up f (expand c ps)) = shown (itemsOf ps) := by
  induction ps generalizing up f with
  | nil => simp [expand, stmtXfers_nil, itemsOf]
  | cons p ps ih =>
    simp only [List.mem_cons, not_or] at hps
    replace ih := fun up f => ih up f hps.2
    cases p with
    | assign r v => simp only [expand, Piece.stmts, List.cons_append, List.nil_append, stmtXfers_assign, ih,
        itemsOf]
    | byte rs b =>
      simp only [expand, Piece.stmts, stmtXfers_writeByte hc, ih, itemsOf]
      simp [shown]
    | wait t =>
      have ht : t ≠ .tReset := fun e => hps.1 (by rw [e])
      simp only [expand, Piece.stmts, List.cons_append, List.nil_append, stmtXfers_wait _ _ _ ht, itemsOf]
      have := ih up f
      simp only [shown, List.filter_cons] at this ⊢
      rw [this]

theorem shadowsAfter_writeByte (c : DisplayConfig) (b : Byte) (r : Bool) (sh : Shadows) :
    shadowsAfter (writeByte c b r) sh = sh := by
  cases hd : c.data <;> simp [writeByte, hd, writeNibble, writeBus8, pulseEn, shadowsAfter, dataBits]

theorem phaseAfter_writeByte (c : DisplayConfig) (b : Byte) (r : Bool) (p : Phase) :
    phaseAfter (writeByte c b r) p = p := by
  cases hd : c.data <;> simp [writeByte, hd, writeNibble, writeBus8, pulseEn, phaseAfter, dataBits]

theorem shadowsAfter_expand (c : DisplayConfig) (ps : List Piece) (sh : Shadows) :
    shadowsAfter (expand c ps) sh = shadowsOf ps sh := by
  induction ps generalizing sh with
  | nil => rfl
  | cons p ps ih =>
    cases p <;> simp [expand, Piece.stmts, shadowsAfter, shadowsAfter_writeByte, shadowsOf, ih]

theorem phaseAfter_expand (c : DisplayConfig) (ps : List Piece) (q : Phase) :
    phaseAfter (expand c ps) q = q := by
  induction ps generalizing q with
  | nil => rfl
  | cons p ps ih => cases p <;> simp [expand, Piece.stmts, phaseAfter, phaseAfter_writeByte, ih]

theorem drivenLines_expand (c : DisplayConfig) (ps : List Piece) :
    ∀ l ∈ drivenLines (expand c ps), l ∈ c.lineIds := by
  induction ps with
  | nil => simp [expand, drivenLines]
  | cons p ps ih =>
    intro l hl
    rw [expand, drivenLines_append, List.mem_append] at hl
    rcases hl with hl | hl
    · cases p with
      | byte rs b => exact drivenLines_writeByte c b rs l hl
      | assign r v => simp [Piece.stmts, drivenLines] at hl
      | wait t => simp [Piece.stmts, drivenLines] at hl
    · exact ih l hl

/-- What a `write` that runs sends. -/
theorem plan_write_run {b : Build} {sh : Shadows} {c : DisplayConfig} {text : List Grapheme} {ps : List Piece}
    (h : plan b sh c (.write text) = .run ps) :
    textAdmitted text = true ∧ ∃ codes, mapText b text = some codes ∧ ps = codes.map (.byte true) := by
  simp only [plan] at h
  split at h
  · rename_i ht
    split at h
    · cases h
    · rename_i codes hm
      cases h
      exact ⟨ht, codes, hm, rfl⟩
  · cases h

/-- No Operation opens a `start`. -/
theorem plan_noReset {b : Build} {sh : Shadows} {c : DisplayConfig} {i : Instr} {ps : List Piece}
    (h : plan b sh c i = .run ps) : .wait .tReset ∉ ps := by
  have hs : ∀ (v : Byte) (n : Nat), Piece.wait .tReset ∉ shiftPieces v n := by
    intro v n; induction n with
    | zero => simp [shiftPieces]
    | succ n ih => simpa [shiftPieces] using ih
  cases i <;> simp only [plan] at h
  case write => obtain ⟨_, codes, _, rfl⟩ := plan_write_run (b := b) (sh := sh) (c := c) h; simp
  all_goals first
    | (split at h <;> cases h <;> first | exact hs _ _ | simp)
    | (cases h <;> first | exact hs _ _ | simp)

theorem shadowsOf_bytes (bs : List Byte) (sh : Shadows) : shadowsOf (bs.map (.byte true)) sh = sh := by
  induction bs with
  | nil => rfl
  | cons b bs ih => simpa [shadowsOf] using ih

theorem shadowsOf_shiftPieces (v : Byte) (n : Nat) (sh : Shadows) :
    shadowsOf (shiftPieces v n) sh = if n = 0 then sh else sh.set .shiftControl v := by
  induction n generalizing sh with
  | zero => rfl
  | succ n ih =>
    simp only [shiftPieces, shadowsOf, ih]
    split <;> simp

theorem itemsOf_bytes (bs : List Byte) : itemsOf (bs.map (.byte true)) = bs.map drXfer := by
  induction bs with
  | nil => rfl
  | cons b bs ih => simp [itemsOf, ih, drXfer]

theorem itemsOf_shiftPieces (v : Byte) (n : Nat) : itemsOf (shiftPieces v n) = List.replicate n (irXfer v) := by
  induction n with
  | zero => rfl
  | succ n ih => simp [shiftPieces, itemsOf, ih, List.replicate_succ, irXfer]

/-! ## Requests on a quiet bus -/

theorem runOperation_quiet {s : State} {d : DisplayState} (h : BusQuiet s) (body : List Stmt) :
    s.runOperation d body = .next ((applyStmts d.cfg.wiring body s).reply .ok) := by
  simp [State.runOperation, runStmts_quiet h, State.returnOk]

/-- With the combined transport no line level moves. -/
theorem applyStmts_lines_combined (p : CombinedParams) (l : List Stmt) (s : State) :
    (applyStmts (.combined p) l s).lines = s.lines := by
  induction l generalizing s with
  | nil => rfl
  | cons st l ih => rw [applyStmts_cons, ih]; cases st <;> rfl

/-- The image bits of other lines stay. -/
theorem applyStmts_image_combined {c : DisplayConfig} {p : CombinedParams} (l : List Stmt) (s : State)
    (hl : ∀ a ∈ drivenLines l, a ∈ c.lineIds) {k : Fin 8} (hk : k ∉ c.lineIds.map p.bitpos) :
    (applyStmts (.combined p) l s).image.getLsbD k = s.image.getLsbD k := by
  induction l generalizing s with
  | nil => rfl
  | cons st l ih =>
    rw [applyStmts_cons]
    cases st with
    | line a v =>
      rw [ih _ fun x hx => hl x (by simp [drivenLines, hx])]
      have : k ≠ p.bitpos a := fun e =>
        hk (e ▸ List.mem_map_of_mem (hl a (by simp [drivenLines])))
      have hp := getLsbD_place p s.image a v k
      rw [if_neg this] at hp
      exact hp
    | wait t => exact ih _ hl
    | assign r v => exact ih _ hl
    | phase q => exact ih _ hl

/-- What statements on driven lines keep. -/
theorem kept_applyStmts {c : DisplayConfig} {l : List Stmt} (s : State)
    (hl : ∀ a ∈ drivenLines l, a ∈ c.lineIds) : Kept s (applyStmts c.wiring l s) c where
  build := by simp
  inbox := by simp
  emission := by simp
  freeIx := by simp
  answers := ⟨_, applyStmts_busAnswers _ _ _⟩
  image hw := by rw [hw]; exact applyStmts_image_discrete _ _
  combined p hw := by
    rw [hw]
    exact ⟨applyStmts_lines_combined p l s, fun k hk => applyStmts_image_combined l s hl hk⟩
  lines a ha := applyStmts_lines_read _ _ _ fun h => ha (hl a h)

/-- The transfer-level trace of the events statements add to a state's trace. -/
theorem transferTrace_eventsOf {c : DisplayConfig} (hc : c.admitted = true) (s : State) {l : List Stmt}
    (hl : ∀ a ∈ drivenLines l, a ∈ c.lineIds) :
    transferTrace c 0 (s.replay c) (eventsOf c.wiring s.image l) =
      stmtXfers c (s.replay c).up (s.view.level c) l := by
  unfold transferTrace stmtXfers
  have h := latchTrace_eventsOf hc l hl (standsAt_replay c s)
  cases c.busMode <;> simp only [h]

/-- A PLAN THAT RUNS COMPLETES: its items, its shadow registers, nothing else. -/
theorem completes_of_plan {i : Instr} {s : State} {d : DisplayState} {ps : List Piece}
    (hi : i.isOperation = true) (h : Live s d) (hq : BusQuiet s) (hp : plan s.build d.sh d.cfg i = .run ps) :
    Completes i s d (shown (itemsOf ps)) (shadowsOf ps d.sh) := by
  refine ⟨(applyStmts d.cfg.wiring (expand d.cfg ps) s).reply .ok,
    eventsOf d.cfg.wiring s.image (expand d.cfg ps), ?_, ?_, ?_, ?_, ?_, ?_, ?_⟩
  · rw [exec_operation hi h.phase h.display, hp]
    exact runOperation_quiet hq _
  · simp [applyStmts_trace]
  · rw [transferTrace_eventsOf h.admitted s (drivenLines_expand _ _),
      stmtXfers_expand h.admitted _ _ (plan_noReset hp)]
  · simp
  · simp [applyStmts_phase, phaseAfter_expand, h.phase]
  · simp [applyStmts_display, h.display, shadowsAfter_expand]
  · have k := kept_applyStmts s (drivenLines_expand d.cfg ps)
    exact ⟨k.build, k.inbox, k.emission, k.freeIx, k.answers, k.image, k.combined, k.lines⟩

end Sys2Proof.Machine
end

