-- ==== Sys2Proof/Laws/Counts.lean ====
section
/-!
SUPPORT. Counting: the bus calls and waits of statements and of parts (40_bus_primitives R118).
-/

namespace Sys2Proof.Machine

/-- One bus call per driven line. -/
theorem busCalls_eventsOf (w : Wiring) (image : Byte) (l : List Stmt) :
    busCalls (eventsOf w image l) = (drivenLines l).length := by
  induction l generalizing image with
  | nil => rfl
  | cons st l ih =>
    cases st with
    | line a v =>
      cases w <;> simp only [eventsOf, busCalls, List.countP_cons, drivenLines, List.length_cons] <;>
        simp [Event.isCall] <;> exact ih _
    | wait t =>
      simp only [eventsOf, busCalls, List.countP_cons, drivenLines]; simp [Event.isCall]; exact ih _
    | assign r v => exact ih _
    | phase q => exact ih _

/-- The waits of statements, in order. -/
def stmtWaits : List Stmt → List Wait
  | [] => []
  | .wait t :: l => t :: stmtWaits l
  | .line _ _ :: l => stmtWaits l
  | .assign _ _ :: l => stmtWaits l
  | .phase _ :: l => stmtWaits l

@[simp] theorem stmtWaits_append (l l' : List Stmt) :
    stmtWaits (l ++ l') = stmtWaits l ++ stmtWaits l' := by
  induction l with
  | nil => rfl
  | cons a l ih => cases a <;> simp [stmtWaits, ih]

theorem waitCount_eventsOf (t : Wait) (w : Wiring) (image : Byte) (l : List Stmt) :
    waitCount t (eventsOf w image l) = (stmtWaits l).count t := by
  induction l generalizing image with
  | nil => rfl
  | cons st l ih =>
    cases st with
    | line a v =>
      cases w <;> simp only [eventsOf, waitCount, List.countP_cons, stmtWaits] <;> simp <;> exact ih _
    | wait q =>
      simp only [eventsOf, waitCount, List.countP_cons, stmtWaits, List.count_cons]
      have := ih image
      unfold waitCount at this
      rw [this]
      by_cases hq : q = t <;> simp [hq]
    | assign r v => exact ih _
    | phase q => exact ih _

theorem minDuration_eventsOf (t : Timing) (w : Wiring) (image : Byte) (l : List Stmt) :
    minDuration t (eventsOf w image l) = ((stmtWaits l).map (waitMs t)).sum := by
  induction l generalizing image with
  | nil => rfl
  | cons st l ih =>
    cases st with
    | line a v => cases w <;> simp only [eventsOf, minDuration, stmtWaits] <;> exact ih _
    | wait q => simp [eventsOf, minDuration, stmtWaits, ih]
    | assign r v => exact ih _
    | phase q => exact ih _

/-- A transfer is 13 bus calls in 4-bit mode and 11 in 8-bit mode. -/
theorem length_drivenLines_writeByte (c : DisplayConfig) (b : Byte) (r : Bool) :
    (drivenLines (writeByte c b r)).length = (if c.busMode = .four then 13 else 11) := by
  cases hd : c.data <;>
    simp [writeByte, hd, writeNibble, writeBus8, dataBits, pulseEn, drivenLines, DisplayConfig.busMode]

/-- Its waits are four and two `T_EN`. -/
theorem stmtWaits_writeByte (c : DisplayConfig) (b : Byte) (r : Bool) :
    stmtWaits (writeByte c b r) =
      (if c.busMode = .four then [.tEn, .tEn, .tEn, .tEn] else [.tEn, .tEn]) := by
  cases hd : c.data <;>
    simp [writeByte, hd, writeNibble, writeBus8, dataBits, pulseEn, stmtWaits, DisplayConfig.busMode]

/-- The number of transfers of parts. -/
def byteCount : List Piece → Nat
  | [] => 0
  | .byte _ _ :: ps => byteCount ps + 1
  | .assign _ _ :: ps => byteCount ps
  | .wait _ :: ps => byteCount ps

/-- The waits of parts besides those of their transfers. -/
def pieceWaits : List Piece → List Wait
  | [] => []
  | .wait t :: ps => t :: pieceWaits ps
  | .byte _ _ :: ps => pieceWaits ps
  | .assign _ _ :: ps => pieceWaits ps

theorem countP_itemsOf (ps : List Piece) : (itemsOf ps).countP XferItem.isXfer = byteCount ps := by
  induction ps with
  | nil => rfl
  | cons p ps ih => cases p <;> simp [itemsOf, List.countP_cons, ih, XferItem.isXfer, byteCount]

theorem length_drivenLines_expand (c : DisplayConfig) (ps : List Piece) :
    (drivenLines (expand c ps)).length = byteCount ps * (if c.busMode = .four then 13 else 11) := by
  induction ps with
  | nil => simp [expand, drivenLines, byteCount]
  | cons p ps ih =>
    cases p with
    | byte r b =>
      simp only [expand, Piece.stmts, drivenLines_append, List.length_append,
        length_drivenLines_writeByte, ih, byteCount]
      ring
    | assign r b => simpa [expand, Piece.stmts, drivenLines, byteCount] using ih
    | wait r => simpa [expand, Piece.stmts, drivenLines, byteCount] using ih

theorem count_stmtWaits_expand (c : DisplayConfig) (ps : List Piece) (t : Wait) :
    (stmtWaits (expand c ps)).count t = (pieceWaits ps).count t +
      byteCount ps * (if t = .tEn then (if c.busMode = .four then 4 else 2) else 0) := by
  induction ps with
  | nil => simp [expand, stmtWaits, byteCount, pieceWaits]
  | cons p ps ih =>
    cases p with
    | byte r b =>
      simp only [expand, Piece.stmts, stmtWaits_append, List.count_append, stmtWaits_writeByte, ih,
        byteCount, pieceWaits]
      cases t <;> cases c.busMode <;> simp <;> ring
    | assign r b => simpa [expand, Piece.stmts, stmtWaits, byteCount, pieceWaits] using ih
    | wait r =>
      simp only [expand, Piece.stmts, List.cons_append, List.nil_append, stmtWaits, List.count_cons, ih,
        byteCount, pieceWaits]
      ring

theorem pieceWaits_bytes (bs : List Byte) : pieceWaits (bs.map (.byte true)) = [] := by
  induction bs with
  | nil => rfl
  | cons b bs ih => simpa [pieceWaits] using ih

theorem pieceWaits_shiftPieces (v : Byte) (n : Nat) : pieceWaits (shiftPieces v n) = [] := by
  induction n with
  | zero => rfl
  | succ n ih => simpa [shiftPieces, pieceWaits] using ih

end Sys2Proof.Machine
end

