-- ==== Sys2Proof/Laws/Effects.lean ====
section
/-!
SUPPORT. What an instruction can do, said once: `exec_next` lists every way `exec` answers a next state, each
as statements that ran to their end or stopped at a failing call (`Ended`).
-/

namespace Sys2Proof.Machine

/-- How statements that started in `s` ended: all ran and `good` closed the request, or a call failed and
`bad` did. -/
inductive Ended (w : Wiring) (l : List Stmt) (s : State) (good : State → State)
    (bad : BusErrorValue → State → State) (t : State) : Prop
  | done (h : t = good (applyStmts w l s)) : Ended w l s good bad t
  | failed (l1 : List Stmt) (a : LineId) (v : Bool) (l2 : List Stmt) (e : BusErrorValue)
      (hl : l = l1 ++ .line a v :: l2) (he : (applyStmts w l1 s).nextAnswer = .error e)
      (h : t = bad e (failedCall w a v (applyStmts w l1 s))) : Ended w l s good bad t

theorem ended_of_run {w : Wiring} {l : List Stmt} {s t : State} {good : State → State}
    {bad : BusErrorValue → State → State}
    (h : (match runStmts w l s with
      | .done s' => Host.Outcome.next (good s')
      | .failed s' e => Host.Outcome.next (bad e s') : Out) = .next t) : Ended w l s good bad t := by
  rcases runStmts_cases w l s with hd | ⟨l1, a, v, l2, e, hl, he, _, hf⟩
  · rw [hd] at h; cases h; exact .done rfl
  · rw [hf] at h; cases h; exact .failed l1 a v l2 e hl he rfl

/-- The closing of a request by a bus error: the phase and the reply (R212, R217). -/
def closeFaulted (r : BusErrorValue → Phase → Reply) (e : BusErrorValue) (s : State) : State :=
  (s.setPhase .faulted).reply (r e s.phase)

/-- The parts of an emitted byte's transfer; none for the other constructors. -/
def emitPieces (b : Build) : Instr → Option (List Piece)
  | .irClear => some [.byte false b.codes.clear]
  | .irHome => some [.byte false b.codes.home]
  | .irEntryMode i s =>
    some [.assign .entryMode (b.codes.entryModeByte i s), .byte false (b.codes.entryModeByte i s)]
  | .irDisplayControl d c l =>
    some [.assign .displayControl (b.codes.displayControlByte d c l),
      .byte false (b.codes.displayControlByte d c l)]
  | .irCursorShift m r =>
    some [.assign .shiftControl (b.codes.shiftByte m r), .byte false (b.codes.shiftByte m r)]
  | .irFunctionSet w n f =>
    some [.assign .functionSet (b.codes.functionSetByte w n f),
      .byte false (b.codes.functionSetByte w n f)]
  | .irSetCgram idx => some [.byte false (setCgramByte idx.toNat)]
  | .irSetDdram a => some [.byte false (setDdramByte a.toNat)]
  | .dataChar c => some [.byte true c]
  | .dataBitmapRow c => some [.byte true c]
  | .forceNibble8bit => none
  | .forceNibble4bit => none
  | .start _ => none
  | .stop => none
  | .clear => none
  | .home => none
  | .write _ => none
  | .setCursor _ _ => none
  | .scroll _ => none
  | .moveLeft _ => none
  | .moveRight _ => none
  | .enable _ => none
  | .disable _ => none
  | .createChar _ _ => none
  | .unrecognised101x _ => none
  | .unrecognised11xx _ => none
  | .reservedCapability => none

/-- The nibble of a ForceMode instruction; none for the other constructors. -/
def emitNibble (b : Build) : Instr → Option Byte
  | .forceNibble8bit => some b.codes.forceNibble8
  | .forceNibble4bit => some b.codes.forceNibble4
  | .irClear => none
  | .irHome => none
  | .irEntryMode _ _ => none
  | .irDisplayControl _ _ _ => none
  | .irCursorShift _ _ => none
  | .irFunctionSet _ _ _ => none
  | .irSetCgram _ => none
  | .irSetDdram _ => none
  | .dataChar _ => none
  | .dataBitmapRow _ => none
  | .start _ => none
  | .stop => none
  | .clear => none
  | .home => none
  | .write _ => none
  | .setCursor _ _ => none
  | .scroll _ => none
  | .moveLeft _ => none
  | .moveRight _ => none
  | .enable _ => none
  | .disable _ => none
  | .createChar _ _ => none
  | .unrecognised101x _ => none
  | .unrecognised11xx _ => none
  | .reservedCapability => none

/-- Where `exec` lets the block emit a byte of its own. -/
def emitAllowed (s : State) : Instr → Bool
  | .irClear => readyOr s .clear
  | .irEntryMode _ _ => shadowedIn s .entryMode .configureEntryMode
  | .irDisplayControl _ _ _ => readyOr s .configureDisplay
  | .irCursorShift _ _ => readyOr s .configureShiftControl
  | .irFunctionSet _ _ _ => shadowedIn s .functionSet .configureFunction
  | _ => decide (s.phase = .ready)

/-- A byte is emitted only in `ready` or in a sequencer state after `reset`. -/
theorem emitAllowed_phase {s : State} {i : Instr} (h : emitAllowed s i = true) :
    s.phase ≠ .off ∧ s.phase ≠ .reset ∧ s.phase ≠ .forceMode ∧ s.phase ≠ .faulted := by
  have hs : s.phase = .ready ∨ s.phase = .clear ∨ s.phase = .configureEntryMode ∨
      s.phase = .configureDisplay ∨ s.phase = .configureShiftControl ∨ s.phase = .configureFunction := by
    cases i <;>
      simp only [emitAllowed, readyOr, shadowedIn, Bool.or_eq_true, Bool.and_eq_true,
        decide_eq_true_eq] at h <;> tauto
  rcases hs with hs | hs | hs | hs | hs | hs <;> simp [hs]

/-- EVERY WAY AN INSTRUCTION ANSWERS A NEXT STATE. -/
inductive Effect (i : Instr) (s t : State) : Prop
  | configError (c : ConfigInput) (why : ConfigFault) (hi : i = .start c) (hp : resolvePins c = .error why)
      (h : t = ((s.setPhase .off).setDisplay none).reply (.configurationError why)) : Effect i s t
  | unsupported (hi : i.isOperation = true) (hp : s.phase = .ready) (d : DisplayState)
      (hd : s.display = some d) (hpl : plan s.build d.sh d.cfg i = .unsupported)
      (h : t = s.reply .unsupported) : Effect i s t
  | operation (hi : i.isOperation = true) (hp : s.phase = .ready) (d : DisplayState)
      (hd : s.display = some d) (ps : List Piece) (hpl : plan s.build d.sh d.cfg i = .run ps)
      (h : Ended d.cfg.wiring (expand d.cfg ps) s (fun x => x.reply .ok)
        (closeFaulted (fun e _ => .busError e)) t) : Effect i s t
  | stop (hi : i = .stop) (hp : s.phase = .ready) (d : DisplayState) (hd : s.display = some d)
      (h : Ended d.cfg.wiring (disableFlag d .displayControl s.build.codes.dcDisplay) s
        (fun x => x.release.reply .ok) (closeFaulted (fun e _ => .busError e)) t) : Effect i s t
  | start (ci : ConfigInput) (hi : i = .start ci) (hb : buildAdmitted s.build = true) (w : Wiring)
      (hw : wiringOf s.build = some w) (p : LineId × LineId × DataLines) (hp : resolvePins ci = .ok p)
      (c : DisplayConfig) (hc : c = DisplayConfig.ofInput ci p w) (ha : c.admitted = true)
      (h : Ended c.wiring (sequencer s.build.codes ⟨c, preload s.build.codes c⟩ sequencerStates)
        (s.beginStart c) (fun x => x.reply .ok) (closeFaulted .initializationError) t) : Effect i s t
  | emitByte (ps : List Piece) (hi : emitPieces s.build i = some ps) (ha : emitAllowed s i = true)
      (d : DisplayState) (hd : s.display = some d)
      (h : Ended d.cfg.wiring (expand d.cfg ps) s (fun x => x) (fun _ x => x.setPhase .faulted) t) :
      Effect i s t
  | emitNibble (v : Byte) (hi : emitNibble s.build i = some v) (hp : s.phase = .forceMode)
      (d : DisplayState) (hd : s.display = some d) (d4 d5 d6 d7 : LineId)
      (hdl : d.cfg.data = .four d4 d5 d6 d7)
      (h : Ended d.cfg.wiring (writeNibble d.cfg d4 d5 d6 d7 v) s (fun x => x)
        (fun _ x => x.setPhase .faulted) t) : Effect i s t

theorem emitTransfer_next {s t : State} {ok : Bool} {body : DisplayState → List Stmt}
    (h : s.emitTransfer ok body = .next t) :
    ok = true ∧ ∃ d, s.display = some d ∧
      Ended d.cfg.wiring (body d) s (fun x => x) (fun _ x => x.setPhase .faulted) t := by
  unfold State.emitTransfer at h
  split at h
  · rename_i hok
    unfold State.withDisplay at h
    split at h
    · rename_i d hd
      exact ⟨hok, d, hd, ended_of_run h⟩
    · cases h
  · cases h

theorem effect_emitByte {i : Instr} {s t : State} {ps : List Piece} {body : DisplayState → List Stmt}
    (hi : emitPieces s.build i = some ps) (hb : ∀ d, body d = expand d.cfg ps)
    (h : s.emitTransfer (emitAllowed s i) body = .next t) : Effect i s t := by
  obtain ⟨ha, d, hd, he⟩ := emitTransfer_next h
  rw [hb] at he
  exact .emitByte ps hi ha d hd he

theorem effect_emitNibble {i : Instr} {s t : State} {v : Byte} (hi : Machine.emitNibble s.build i = some v)
    (h : s.forceNibble v = .next t) : Effect i s t := by
  unfold State.forceNibble at h
  split at h
  · rename_i hp
    unfold State.withDisplay at h
    split at h
    · rename_i d hd
      cases hdl : d.cfg.data with
      | four d4 d5 d6 d7 =>
        simp only [forceNibbleBody, hdl] at h
        obtain ⟨_, d', hd', he⟩ := emitTransfer_next h
        rw [hd] at hd'; cases hd'
        exact .emitNibble v hi hp d hd d4 d5 d6 d7 hdl he
      | eight d0 d1 d2 d3 d4 d5 d6 d7 => simp [forceNibbleBody, hdl] at h
    · cases h
  · cases h

theorem effect_operation {i : Instr} {s t : State} (hi : i.isOperation = true) (h : exec i s = .next t) :
    Effect i s t := by
  have hr : s.phase = .ready ∧ ∃ d, s.display = some d := by
    cases i <;>
      first
      | exact absurd hi Bool.false_ne_true
      | (simp only [exec, execClear, execHome, execWrite, execSetCursor, execScroll, execMoveLeft,
          execMoveRight, execEnable, execDisable, execCreateChar, execUnrecognised101x,
          execUnrecognised11xx, State.inReady] at h
         split at h
         · rename_i hp
           unfold State.withDisplay at h
           split at h
           · rename_i d hd; exact ⟨hp, d, hd⟩
           · cases h
         · cases h)
  obtain ⟨hp, d, hd⟩ := hr
  rw [exec_operation hi hp hd] at h
  cases hpl : plan s.build d.sh d.cfg i with
  | refuse => rw [hpl] at h; cases h
  | unsupported => rw [hpl] at h; cases h; exact .unsupported hi hp d hd hpl rfl
  | run ps =>
    rw [hpl] at h
    exact .operation hi hp d hd ps hpl (ended_of_run h)

theorem effect_start {ci : ConfigInput} {s t : State} (h : exec (.start ci) s = .next t) :
    Effect (.start ci) s t := by
  simp only [exec, execStart] at h
  split at h
  · cases h
  · rename_i hb
    split at h
    · cases h
    · rename_i w hw
      split at h
      · rename_i why hp; cases h; exact .configError ci why rfl hp rfl
      · rename_i p hp
        split at h
        · cases h
        · rename_i h1
          split at h
          · cases h
          · rename_i h2
            refine .start ci rfl (by simpa using hb) w hw p hp _ rfl ?_ (ended_of_run h)
            simp only [DisplayConfig.admitted, Bool.and_eq_true]
            exact ⟨by simpa using h1, by simpa using h2⟩

theorem effect_stop {s t : State} (h : exec .stop s = .next t) : Effect .stop s t := by
  simp only [exec, execStop] at h
  split at h
  · rename_i hp
    unfold State.withDisplay at h
    split at h
    · rename_i d hd; exact .stop rfl hp d hd (ended_of_run h)
    · cases h
  · cases h

theorem exec_next {i : Instr} {s t : State} (h : exec i s = .next t) : Effect i s t := by
  cases i with
  | start ci => exact effect_start h
  | stop => exact effect_stop h
  | reservedCapability => cases h
  | irClear => exact effect_emitByte rfl (fun d => by simp [expand, Piece.stmts, writeIr]) h
  | irHome => exact effect_emitByte rfl (fun d => by simp [expand, Piece.stmts, writeIr]) h
  | irEntryMode _ _ => exact effect_emitByte rfl (fun d => (expand_shadowed d _ _).symm) h
  | irDisplayControl _ _ _ => exact effect_emitByte rfl (fun d => (expand_shadowed d _ _).symm) h
  | irCursorShift _ _ => exact effect_emitByte rfl (fun d => (expand_shadowed d _ _).symm) h
  | irFunctionSet _ _ _ => exact effect_emitByte rfl (fun d => (expand_shadowed d _ _).symm) h
  | irSetCgram _ => exact effect_emitByte rfl (fun d => by simp [expand, Piece.stmts, writeIr]) h
  | irSetDdram _ => exact effect_emitByte rfl (fun d => by simp [expand, Piece.stmts, writeIr]) h
  | dataChar _ => exact effect_emitByte rfl (fun d => by simp [expand, Piece.stmts, writeDr]) h
  | dataBitmapRow _ => exact effect_emitByte rfl (fun d => by simp [expand, Piece.stmts, writeDr]) h
  | forceNibble8bit => exact effect_emitNibble rfl h
  | forceNibble4bit => exact effect_emitNibble rfl h
  | clear => exact effect_operation rfl h
  | home => exact effect_operation rfl h
  | write _ => exact effect_operation rfl h
  | setCursor _ _ => exact effect_operation rfl h
  | scroll _ => exact effect_operation rfl h
  | moveLeft _ => exact effect_operation rfl h
  | moveRight _ => exact effect_operation rfl h
  | enable _ => exact effect_operation rfl h
  | disable _ => exact effect_operation rfl h
  | createChar _ _ => exact effect_operation rfl h
  | unrecognised101x _ => exact effect_operation rfl h
  | unrecognised11xx _ => exact effect_operation rfl h

/-- What a step can do: nothing, or the decoded instruction. -/
theorem step_next {s t : State} (h : step s = .next t) :
    t = s ∨ ∃ iw i, s.fetch = some iw ∧ decode iw = .ok i ∧ exec i s.consume = .next t := by
  unfold step at h
  split at h
  · cases h
    exact .inl rfl
  · rename_i iw hf
    split at h
    · cases h
    · rename_i i hi
      exact .inr ⟨iw, i, hf, hi, h⟩

end Sys2Proof.Machine
end

