-- ==== Sys2Proof/Laws/Levels.lean ====
section
/-!
SUPPORT. The levels of the configured lines after statements: the state's view is `levelsAfter`, and what a
transfer leaves on RS, EN and the data lines.
-/

namespace Sys2Proof.Machine

theorem en_mem_lineIds (c : DisplayConfig) : c.en ∈ c.lineIds := by simp [DisplayConfig.lineIds]

theorem rs_mem_lineIds (c : DisplayConfig) : c.rs ∈ c.lineIds := by simp [DisplayConfig.lineIds]

theorem data_mem_lineIds {c : DisplayConfig} {l : LineId} (h : l ∈ c.data.ids) : l ∈ c.lineIds := by
  simp [DisplayConfig.lineIds, h]

/-- The level of a configured line after statements that all succeed. -/
theorem level_applyStmts {c : DisplayConfig} (hc : c.admitted = true) {s : State} {l : List Stmt}
    (hl : ∀ a ∈ drivenLines l, a ∈ c.lineIds) {a : LineId} (ha : a ∈ c.lineIds) :
    (applyStmts c.wiring l s).view.level c a = levelsAfter (s.view.level c) l a :=
  view_applyStmts hc l hl (fun _ _ => rfl) a ha

/-- A transfer leaves RS at its register. -/
theorem levelsAfter_writeByte_rs {c : DisplayConfig} (hc : c.admitted = true) (f : Levels) (b : Byte)
    (r : Bool) : levelsAfter f (writeByte c b r) c.rs = some r := by
  have hr : Levels.drive f c.rs r c.rs = some r := by simp [Levels.drive]
  have hla : levelsAfter f (writeByte c b r) =
      levelsAfter (Levels.drive f c.rs r) (writeByte c b r).tail := rfl
  rw [hla]
  cases hd : c.data with
  | four d4 d5 d6 d7 =>
    obtain ⟨_, _, _, h3⟩ := stmtLatches_writeNibble hc hd (highNibble b) (up := false) hr
    simp only [writeByte, hd, List.tail_cons, levelsAfter_append]
    exact (stmtLatches_writeNibble hc hd (lowNibble b) (up := false) h3).2.2.2
  | eight d0 d1 d2 d3 d4 d5 d6 d7 =>
    simp only [writeByte, hd, List.tail_cons]
    exact (stmtLatches_writeBus8 hc hd b (up := false) hr).2.2.2

/-- Parts keep EN low. -/
theorem levelsAfter_expand_en {c : DisplayConfig} (hc : c.admitted = true) (f : Levels) (ps : List Piece)
    (h : f c.en = some false) : levelsAfter f (expand c ps) c.en = some false := by
  induction ps generalizing f with
  | nil => exact h
  | cons p ps ih =>
    simp only [expand, levelsAfter_append]
    refine ih _ ?_
    cases p with
    | byte r b => exact levelsAfter_writeByte_en hc f b r
    | assign r v => exact h
    | wait t => exact h

/-- A transfer leaves its byte (8-bit mode) or its low nibble (4-bit mode) on the data lines. -/
theorem levelsAfter_writeByte_data {c : DisplayConfig} (hc : c.admitted = true) (f : Levels) (b : Byte)
    (r : Bool) :
    c.data.ids.map (levelsAfter f (writeByte c b r)) =
      (if c.busMode = .four then [0, 1, 2, 3] else [0, 1, 2, 3, 4, 5, 6, 7]).map
        (fun k => some (b.getLsbD k)) := by
  have hn := admitted_nodup hc
  simp only [DisplayConfig.lineIds, List.nodup_cons, List.mem_cons, not_or] at hn
  have key : ∀ (g : Levels) (v : Byte) (k : Nat),
      c.data.ids.map (levelsAfter g (dataBits v k c.data.ids ++ pulseEn c)) =
        bitsFrom v k c.data.ids.length := by
    intro g v k
    rw [← map_levelsAfter_dataBits g v k hn.2.2]
    refine List.map_congr_left fun l hl => ?_
    rw [levelsAfter_append, levelsAfter_pulseEn, if_neg (fun e => hn.2.1 (by rw [← e]; exact hl))]
  cases hd : c.data with
  | four d4 d5 d6 d7 =>
    have := key (levelsAfter (Levels.drive f c.rs r) (writeNibble c d4 d5 d6 d7 (highNibble b)))
      (lowNibble b) 4
    rw [hd] at this
    simp only [writeByte, hd, DisplayConfig.busMode]
    have e : ∀ l, levelsAfter f (.line c.rs r :: (writeNibble c d4 d5 d6 d7 (highNibble b) ++
          writeNibble c d4 d5 d6 d7 (lowNibble b))) l =
        levelsAfter (levelsAfter (Levels.drive f c.rs r) (writeNibble c d4 d5 d6 d7 (highNibble b)))
          (writeNibble c d4 d5 d6 d7 (lowNibble b)) l := by
      intro l; simp only [levelsAfter, levelsAfter_append]
    rw [List.map_congr_left (fun l _ => e l)]
    refine this.trans ?_
    clear * -
    simp only [DataLines.ids, List.length_cons, List.length_nil]
    revert b; decide
  | eight e0 e1 e2 e3 d4 d5 d6 d7 =>
    have := key (Levels.drive f c.rs r) b 0
    rw [hd] at this
    simp only [writeByte, hd, DisplayConfig.busMode]
    exact this

/-- What replaying the events of statements leaves, on the configured lines. -/
theorem level_foldl_eventsOf {c : DisplayConfig} (hc : c.admitted = true) (l : List Stmt) :
    ∀ {f : Levels} {v : View} {image : Byte}, (∀ a ∈ drivenLines l, a ∈ c.lineIds) →
      Stands c f v image →
      ∀ a ∈ c.lineIds, ((eventsOf c.wiring image l).foldl View.after v).level c a = levelsAfter f l a := by
  induction l with
  | nil => intro f v im _ h; exact h.level
  | cons st l ih =>
    intro f v im hl h
    cases st with
    | line b u =>
      cases hw : c.wiring with
      | discrete =>
        have := ih (f := Levels.drive f b u) (image := im) (fun x hx => hl x (by simp [drivenLines, hx]))
          (stands_discrete hw h b u)
        rw [hw] at this; exact this
      | combined p =>
        have := ih (f := Levels.drive f b u) (fun x hx => hl x (by simp [drivenLines, hx]))
          (stands_combined hc hw h (hl b (by simp [drivenLines])) u p.regAddress)
        rw [hw] at this; exact this
    | wait t => exact ih hl h
    | assign r v => exact ih hl h
    | phase p => exact ih hl h

end Sys2Proof.Machine
end

