-- ==== Sys2Proof/Laws/Sequencer.lean ====
section
/-!
SUPPORT. The laws of the Initialization Sequencer's statements: the lines they drive, the shadow registers,
phase and levels they leave.
-/

namespace Sys2Proof.Machine

variable (k : Codes) (d : DisplayState)

theorem drivenLines_shadowed (r : Shadow) (v : Byte) :
    ∀ l ∈ drivenLines (writeShadowed d r v), l ∈ d.cfg.lineIds := by
  rw [← expand_shadowed]; exact drivenLines_expand _ _

theorem drivenLines_setFeature (r : Shadow) : ∀ l ∈ drivenLines (setFeature d r), l ∈ d.cfg.lineIds :=
  drivenLines_writeByte _ _ _

theorem drivenLines_initState (p : Phase) : ∀ l ∈ drivenLines (initState k d p), l ∈ d.cfg.lineIds := by
  intro l hl
  cases p with
  | reset => simp [initState, initReset, drivenLines, DisplayConfig.lineIds] at hl ⊢; tauto
  | forceMode =>
    simp only [initState, initForceMode] at hl
    split at hl
    · rename_i d4 d5 d6 d7 hd
      simp only [drivenLines_append, List.mem_append, drivenLines, List.not_mem_nil, or_false] at hl
      rcases hl with ((h | h) | h) | h <;> exact drivenLines_writeNibble hd _ l h
    · simp [drivenLines] at hl
  | configureFunction =>
    simp only [initState, initConfigureFunction] at hl
    split at hl
    · exact drivenLines_setFeature d _ l hl
    · simp only [drivenLines_append, List.mem_append, drivenLines, List.not_mem_nil, or_false] at hl
      rcases hl with (h | h) | h <;> exact drivenLines_setFeature d _ l h
  | configureDisplay => exact drivenLines_shadowed d _ _ l hl
  | clear =>
    simp only [initState, drivenLines_append, List.mem_append, drivenLines, List.not_mem_nil,
      or_false] at hl
    exact drivenLines_writeByte _ _ _ l hl
  | configureEntryMode => exact drivenLines_setFeature d _ l hl
  | configureShiftControl => exact drivenLines_setFeature d _ l hl
  | off => simp [initState, drivenLines] at hl
  | ready => simp [initState, drivenLines] at hl
  | faulted => simp [initState, drivenLines] at hl

/-- The sequencer drives the configured lines and no other. -/
theorem drivenLines_sequencer (ps : List Phase) : ∀ l ∈ drivenLines (sequencer k d ps), l ∈ d.cfg.lineIds := by
  induction ps with
  | nil => simp [sequencer, drivenLines]
  | cons p ps ih =>
    intro l hl
    simp only [sequencer, drivenLines_append, List.mem_append, drivenLines, List.not_mem_nil,
      or_false] at hl
    rcases hl with h | h
    · exact drivenLines_initState k d p l h
    · exact ih l h

theorem shadowsAfter_writeNibble (c : DisplayConfig) (d4 d5 d6 d7 : LineId) (v : Byte) (sh : Shadows) :
    shadowsAfter (writeNibble c d4 d5 d6 d7 v) sh = sh := by
  simp [writeNibble, pulseEn, shadowsAfter, dataBits]

theorem phaseAfter_writeNibble (c : DisplayConfig) (d4 d5 d6 d7 : LineId) (v : Byte) (p : Phase) :
    phaseAfter (writeNibble c d4 d5 d6 d7 v) p = p := by
  simp [writeNibble, pulseEn, phaseAfter, dataBits]

/-- The only sequencer state that writes a shadow register is `ConfigureDisplay` (R245). -/
theorem shadowsAfter_initState (p : Phase) (sh : Shadows) :
    shadowsAfter (initState k d p) sh =
      if p = .configureDisplay then sh.set .displayControl (setFlags d.sh.displayControl k.dcDisplay)
      else sh := by
  cases p with
  | reset => rfl
  | forceMode =>
    simp only [initState, initForceMode]
    split <;> simp [shadowsAfter_writeNibble, shadowsAfter]
  | configureFunction =>
    simp only [initState, initConfigureFunction]
    split <;> simp [setFeature, writeIr, shadowsAfter_writeByte, shadowsAfter]
  | configureDisplay =>
    simp only [initState, enableFlag, if_pos]
    rw [← expand_shadowed, shadowsAfter_expand]
    rfl
  | clear => simp [initState, writeIr, shadowsAfter_writeByte, shadowsAfter]
  | configureEntryMode => simp [initState, setFeature, writeIr, shadowsAfter_writeByte]
  | configureShiftControl => simp [initState, setFeature, writeIr, shadowsAfter_writeByte]
  | off => rfl
  | ready => rfl
  | faulted => rfl

theorem phaseAfter_initState (p q : Phase) : phaseAfter (initState k d p) q = q := by
  cases p with
  | reset => rfl
  | forceMode =>
    simp only [initState, initForceMode]
    split <;> simp [phaseAfter_writeNibble, phaseAfter]
  | configureFunction =>
    simp only [initState, initConfigureFunction]
    split <;> simp [setFeature, writeIr, phaseAfter_writeByte, phaseAfter]
  | configureDisplay =>
    simp only [initState, enableFlag]
    rw [← expand_shadowed, phaseAfter_expand]
  | clear => simp [initState, writeIr, phaseAfter_writeByte, phaseAfter]
  | configureEntryMode => simp [initState, setFeature, writeIr, phaseAfter_writeByte]
  | configureShiftControl => simp [initState, setFeature, writeIr, phaseAfter_writeByte]
  | off => rfl
  | ready => rfl
  | faulted => rfl

/-- The sequencer ends in `Ready` (R241, R249). -/
theorem phaseAfter_sequencer : phaseAfter (sequencer k d sequencerStates) .reset = .ready := by
  simp [sequencer, sequencerStates, phaseAfter, Phase.following]

/-- The shadow registers the sequencer leaves (R38). -/
theorem shadowsAfter_sequencer (sh : Shadows) :
    shadowsAfter (sequencer k d sequencerStates) sh =
      sh.set .displayControl (setFlags d.sh.displayControl k.dcDisplay) := by
  simp [sequencer, sequencerStates, shadowsAfter, shadowsAfter_initState]

end Sys2Proof.Machine
end

