-- ==== Sys2Proof/Laws/Failures.lean ====
section
/-!
SUPPORT. A bus call that fails (60_exceptions R212, R217): where statements stop, what is in the trace, what
the levels, the shadow registers and the phase then are.
-/

namespace Sys2Proof.Machine

/-- Statements whose `k`-th call (from 0) fails stop there. -/
theorem runStmts_failsAt (w : Wiring) (e : BusErrorValue) (l : List Stmt) : ∀ (s : State) (k : Nat),
    s.busAnswers = List.replicate k .ok ++ [.error e] → k < (drivenLines l).length →
      ∃ l1 a v l2, l = l1 ++ .line a v :: l2 ∧ (drivenLines l1).length = k ∧
        runStmts w l s = .failed (failedCall w a v (applyStmts w l1 s)) e := by
  induction l with
  | nil => intro s k _ hk; simp [drivenLines] at hk
  | cons st l ih =>
    intro s k ha hk
    cases st with
    | line a v =>
      cases k with
      | zero =>
        refine ⟨[], a, v, l, rfl, rfl, ?_⟩
        have : s.nextAnswer = .error e := by
          simp [State.nextAnswer, show s.busAnswers = [BusAnswer.error e] from by simpa using ha]
        simp [runStmts, runStmt, busLine_error this]
      | succ k =>
        have hn : s.nextAnswer = .ok := by
          simp [State.nextAnswer, show s.busAnswers = _ from ha, List.replicate_succ]
        obtain ⟨l1, b, u, l2, rfl, h1, h2⟩ := ih ((Stmt.line a v).apply w s) k
          (by simp [Stmt.apply, ha, List.replicate_succ]) (by simpa [drivenLines] using hk)
        exact ⟨.line a v :: l1, b, u, l2, rfl, by simp [drivenLines, h1],
          by simp [runStmts, runStmt, busLine_ok hn, h2]⟩
    | wait t =>
      obtain ⟨l1, b, u, l2, rfl, h1, h2⟩ := ih ((Stmt.wait t).apply w s) k ha hk
      exact ⟨.wait t :: l1, b, u, l2, rfl, h1, h2⟩
    | assign r v =>
      obtain ⟨l1, b, u, l2, rfl, h1, h2⟩ := ih ((Stmt.assign r v).apply w s) k ha hk
      exact ⟨.assign r v :: l1, b, u, l2, rfl, h1, h2⟩
    | phase p =>
      obtain ⟨l1, b, u, l2, rfl, h1, h2⟩ := ih ((Stmt.phase p).apply w s) k ha hk
      exact ⟨.phase p :: l1, b, u, l2, rfl, h1, h2⟩

/-- The events up to and including a call are those of the statements up to and including it. -/
theorem throughCall_eventsOf (w : Wiring) (a : LineId) (v : Bool) (l2 : List Stmt) :
    ∀ (l1 : List Stmt) (image : Byte),
      throughCall ((drivenLines l1).length + 1) (eventsOf w image (l1 ++ .line a v :: l2)) =
        eventsOf w image (l1 ++ [.line a v]) := by
  intro l1
  induction l1 with
  | nil => intro im; cases w <;> simp [drivenLines, eventsOf, throughCall, Event.isCall]
  | cons st l1 ih =>
    intro im
    cases st with
    | line b u => cases w <;> simp [drivenLines, eventsOf, throughCall, Event.isCall, ih]
    | wait t => simp [drivenLines, eventsOf, throughCall, Event.isCall, ih]
    | assign t => simp [drivenLines, eventsOf, ih]
    | phase t => simp [drivenLines, eventsOf, ih]

/-- The failing call is the last of those events. -/
theorem eventsOf_concat_line (w : Wiring) (a : LineId) (v : Bool) : ∀ (l1 : List Stmt) (image : Byte),
    ∃ x, eventsOf w image (l1 ++ [.line a v]) = eventsOf w image l1 ++ [x] := by
  intro l1
  induction l1 with
  | nil => intro im; cases w <;> exact ⟨_, rfl⟩
  | cons st l1 ih =>
    intro im
    cases st with
    | line b u =>
      cases w with
      | discrete => obtain ⟨x, hx⟩ := ih im; exact ⟨x, by simp [eventsOf, hx]⟩
      | combined p => obtain ⟨x, hx⟩ := ih (p.place im b u); exact ⟨x, by simp [eventsOf, hx]⟩
    | wait t => obtain ⟨x, hx⟩ := ih im; exact ⟨x, by simp [eventsOf, hx]⟩
    | assign t => obtain ⟨x, hx⟩ := ih im; exact ⟨x, by simp [eventsOf, hx]⟩
    | phase t => obtain ⟨x, hx⟩ := ih im; exact ⟨x, by simp [eventsOf, hx]⟩

/-- The trace after the failed call. -/
theorem failedCall_applyStmts_trace (w : Wiring) (a : LineId) (v : Bool) (l1 : List Stmt) (s : State) :
    (failedCall w a v (applyStmts w l1 s)).trace =
      s.trace ++ eventsOf w s.image (l1 ++ [.line a v]) ++ [.fail] := by
  have := applyStmts_trace w (l1 ++ [.line a v]) s
  rw [applyStmts_append] at this
  simp only [applyStmts_cons, applyStmts_nil, Stmt.apply] at this
  simp at this ⊢
  rw [← List.append_assoc, ← this]; simp

/-- The levels after the failed call are the old ones or the new ones (U9). -/
theorem failedCall_view_levels {c : DisplayConfig} (hc : c.admitted = true) {s : State} {v0 : View}
    {l1 : List Stmt} {a : LineId} {v : Bool} (hl : ∀ x ∈ drivenLines (l1 ++ [.line a v]), x ∈ c.lineIds)
    (hs : Stands c (s.view.level c) v0 s.image) :
    (∀ y ∈ c.lineIds, (failedCall c.wiring a v (applyStmts c.wiring l1 s)).view.level c y =
      ((eventsOf c.wiring s.image (l1 ++ [.line a v])).dropLast.foldl View.after v0).level c y) ∨
    (∀ y ∈ c.lineIds, (failedCall c.wiring a v (applyStmts c.wiring l1 s)).view.level c y =
      ((eventsOf c.wiring s.image (l1 ++ [.line a v])).foldl View.after v0).level c y) := by
  obtain ⟨x, hx⟩ := eventsOf_concat_line c.wiring a v l1 s.image
  have hl1 : ∀ x ∈ drivenLines l1, x ∈ c.lineIds := fun x h => hl x (by simp [h])
  rcases failedCall_levels c.wiring (applyStmts c.wiring l1 s) a v with ⟨e1, e2⟩ | ⟨e1, e2⟩
  · left
    intro y hy
    rw [hx, List.dropLast_concat, level_foldl_eventsOf hc _ hl1 hs y hy,
      ← view_applyStmts hc _ hl1 (s := s) (fun _ _ => rfl) y hy]
    simp only [State.view, e1, e2]
  · right
    intro y hy
    rw [level_foldl_eventsOf hc _ hl hs y hy,
      ← view_applyStmts hc _ hl (s := s) (fun _ _ => rfl) y hy, applyStmts_append]
    simp only [State.view, e1, e2]
    rfl

/-- WHAT A FAILED CALL AND THE CALLS BEFORE IT KEEP: with the discrete transport the port image, with the
combined one every line level and the image's bits of other lines; the level of every line not configured. -/
theorem failedCall_kept {c : DisplayConfig} {l1 : List Stmt} {a : LineId} {v : Bool} (s : State)
    (hl : ∀ x ∈ drivenLines (l1 ++ [.line a v]), x ∈ c.lineIds) :
    (c.wiring = .discrete → (failedCall c.wiring a v (applyStmts c.wiring l1 s)).image = s.image) ∧
    (∀ p, c.wiring = .combined p →
      (failedCall c.wiring a v (applyStmts c.wiring l1 s)).lines = s.lines ∧
      ∀ k, k ∉ c.lineIds.map p.bitpos →
        (failedCall c.wiring a v (applyStmts c.wiring l1 s)).image.getLsbD k = s.image.getLsbD k) ∧
    ∀ l, l ∉ c.lineIds →
      (failedCall c.wiring a v (applyStmts c.wiring l1 s)).lines.read l = s.lines.read l := by
  have h1 := kept_applyStmts s (fun x hx => hl x (by simp [hx]) : ∀ x ∈ drivenLines l1, x ∈ c.lineIds)
  have h2 := kept_applyStmts s hl
  have e : applyStmts c.wiring (l1 ++ [.line a v]) s =
      (Stmt.line a v).apply c.wiring (applyStmts c.wiring l1 s) := by rw [applyStmts_append]; rfl
  rw [e] at h2
  rcases failedCall_levels c.wiring (applyStmts c.wiring l1 s) a v with ⟨e1, e2⟩ | ⟨e1, e2⟩
  · rw [e1, e2]
    exact ⟨h1.image, h1.combined, h1.lines⟩
  · rw [e1, e2]
    exact ⟨h2.image, h2.combined, h2.lines⟩

/-! ## Statements without assignments -/

/-- No statement of the list sets the phase or a shadow register. -/
def OnlyBus (l : List Stmt) : Prop := (∀ p, Stmt.phase p ∉ l) ∧ ∀ r v, Stmt.assign r v ∉ l

theorem OnlyBus.keeps {l : List Stmt} (h : OnlyBus l) :
    (∀ q, phaseAfter l q = q) ∧ ∀ sh, shadowsAfter l sh = sh := by
  induction l with
  | nil => exact ⟨fun _ => rfl, fun _ => rfl⟩
  | cons st l ih =>
    have := ih ⟨fun p hh => h.1 p (by simp [hh]), fun r v hh => h.2 r v (by simp [hh])⟩
    cases st with
    | assign r v => exact absurd (by simp) (h.2 r v)
    | phase p => exact absurd (by simp) (h.1 p)
    | line => simpa [phaseAfter, shadowsAfter] using this
    | wait => simpa [phaseAfter, shadowsAfter] using this

theorem OnlyBus.left {l l' : List Stmt} (h : OnlyBus (l ++ l')) : OnlyBus l :=
  ⟨fun p hh => h.1 p (by simp [hh]), fun r v hh => h.2 r v (by simp [hh])⟩

theorem OnlyBus.append {l l' : List Stmt} (h : OnlyBus l) (h' : OnlyBus l') : OnlyBus (l ++ l') := by
  refine ⟨fun p hh => ?_, fun r v hh => ?_⟩
  · rcases List.mem_append.1 hh with a | a
    · exact h.1 _ a
    · exact h'.1 _ a
  · rcases List.mem_append.1 hh with a | a
    · exact h.2 _ _ a
    · exact h'.2 _ _ a

theorem onlyBus_writeByte (c : DisplayConfig) (b : Byte) (r : Bool) : OnlyBus (writeByte c b r) := by
  cases hd : c.data <;> simp [OnlyBus, writeByte, hd, writeNibble, writeBus8, dataBits, pulseEn]

theorem onlyBus_wait (t : Wait) : OnlyBus [.wait t] := by simp [OnlyBus]

/-! ## Where an Operation stops -/

/-- A call inside parts lies in one of their transfers, after the parts before it. -/
theorem expand_split (c : DisplayConfig) (a : LineId) (v : Bool) (l2 : List Stmt) :
    ∀ (ps : List Piece) (l1 : List Stmt), expand c ps = l1 ++ .line a v :: l2 →
      ∃ qs r b rs, ps = qs ++ .byte r b :: rs ∧ ∀ sh, shadowsAfter l1 sh = shadowsOf qs sh := by
  intro ps
  induction ps with
  | nil => intro l1 h; simp [expand] at h
  | cons p ps ih =>
    intro l1 h
    rw [expand] at h
    rcases List.append_eq_append_iff.1 h with ⟨x, hx, hy⟩ | ⟨x, hx, hy⟩
    · obtain ⟨qs, r, b, rs, rfl, hsh⟩ := ih x hy
      refine ⟨p :: qs, r, b, rs, rfl, fun sh => ?_⟩
      subst hx
      cases p <;> simp [Piece.stmts, shadowsAfter, shadowsAfter_writeByte, shadowsOf, hsh]
    · cases p with
      | byte r b =>
        refine ⟨[], r, b, ps, rfl, fun sh => ?_⟩
        have hb : OnlyBus (l1 ++ x) := hx ▸ onlyBus_writeByte c b r
        exact hb.left.keeps.2 sh
      | assign r b =>
        cases x with
        | nil =>
          simp only [List.nil_append] at hy
          obtain ⟨qs, r', b', rs, rfl, hsh⟩ := ih [] hy.symm
          refine ⟨.assign r b :: qs, r', b', rs, rfl, fun sh => ?_⟩
          simp only [List.append_nil] at hx
          rw [← hx]; simp only [Piece.stmts, shadowsAfter, shadowsOf]; exact hsh _
        | cons y x =>
          simp only [List.cons_append, List.cons.injEq] at hy
          obtain ⟨rfl, _⟩ := hy
          simp only [Piece.stmts] at hx
          cases l1 with
          | nil => simp at hx
          | cons _ l1 => simp at hx
      | wait t =>
        cases x with
        | nil =>
          simp only [List.nil_append] at hy
          obtain ⟨qs, r', b', rs, rfl, hsh⟩ := ih [] hy.symm
          refine ⟨.wait t :: qs, r', b', rs, rfl, fun sh => ?_⟩
          simp only [List.append_nil] at hx
          rw [← hx]; simp only [Piece.stmts, shadowsAfter, shadowsOf]; exact hsh _
        | cons y x =>
          simp only [List.cons_append, List.cons.injEq] at hy
          obtain ⟨rfl, _⟩ := hy
          simp only [Piece.stmts] at hx
          cases l1 with
          | nil => simp at hx
          | cons _ l1 => simp at hx

/-! ## Where a start stops -/

section
variable (k : Codes) (d : DisplayState)

theorem onlyBus_initState (p : Phase) (hp : p ≠ .configureDisplay) : OnlyBus (initState k d p) := by
  cases p with
  | configureDisplay => exact absurd rfl hp
  | off => simp [initState, OnlyBus]
  | ready => simp [initState, OnlyBus]
  | faulted => simp [initState, OnlyBus]
  | reset => simp [initState, OnlyBus, initReset]
  | forceMode =>
    cases hd : d.cfg.data <;> simp [initState, OnlyBus, initForceMode, hd, writeNibble, dataBits, pulseEn]
  | configureFunction =>
    simp only [initState, initConfigureFunction]
    split
    · exact onlyBus_writeByte _ _ _
    · have b := onlyBus_writeByte d.cfg (d.sh.get .functionSet) false
      exact (((b.append (onlyBus_wait _)).append b).append (onlyBus_wait _)).append b
  | clear => exact (onlyBus_writeByte _ _ _).append (onlyBus_wait _)
  | configureEntryMode => exact onlyBus_writeByte _ _ _
  | configureShiftControl => exact onlyBus_writeByte _ _ _

/-- The number of bus calls of a sequencer state. -/
def stateCalls (p : Phase) : Nat := (drivenLines (initState k d p)).length

theorem stateCalls_values :
    stateCalls k d .reset = 2 ∧ stateCalls k d .forceMode = (if d.cfg.busMode = .four then 24 else 0) ∧
    stateCalls k d .configureFunction = (if d.cfg.busMode = .four then 13 else 33) ∧
    stateCalls k d .configureDisplay = (if d.cfg.busMode = .four then 13 else 11) ∧
    stateCalls k d .clear = (if d.cfg.busMode = .four then 13 else 11) ∧
    stateCalls k d .configureEntryMode = (if d.cfg.busMode = .four then 13 else 11) ∧
    stateCalls k d .configureShiftControl = (if d.cfg.busMode = .four then 13 else 11) := by
  refine ⟨rfl, ?_, ?_, ?_, ?_, ?_, ?_⟩
  · cases hd : d.cfg.data <;>
      simp [stateCalls, initState, initForceMode, hd, writeNibble, dataBits, pulseEn, drivenLines,
        DisplayConfig.busMode]
  · cases hd : d.cfg.busMode <;>
      simp [stateCalls, initState, initConfigureFunction, hd, setFeature, writeIr,
        length_drivenLines_writeByte, drivenLines]
  · simp [stateCalls, initState, enableFlag, writeShadowed, drivenLines, setFeature, writeIr,
      length_drivenLines_writeByte, DisplayState.setShadow]
  · simp [stateCalls, initState, drivenLines, writeIr, length_drivenLines_writeByte]
  · simp [stateCalls, initState, setFeature, writeIr, length_drivenLines_writeByte]
  · simp [stateCalls, initState, setFeature, writeIr, length_drivenLines_writeByte]

/-- The shadow registers a sequencer state assigns before its first call. -/
def stateShadows (p : Phase) (sh : Shadows) : Shadows :=
  if p = .configureDisplay then sh.set .displayControl (setFlags d.sh.displayControl k.dcDisplay) else sh

/-- The sequencer state in which the `n`-th call (from 0) of the given states is made. -/
def phaseAtCall : List Phase → Nat → Phase → Phase
  | [], _, q => q
  | p :: ps, n, q => if n < stateCalls k d p then q else phaseAtCall ps (n - stateCalls k d p) p.following

/-- The shadow registers at that call. -/
def shadowsAtCall : List Phase → Nat → Shadows → Shadows
  | [], _, sh => sh
  | p :: ps, n, sh =>
    if n < stateCalls k d p then stateShadows k d p sh
    else shadowsAtCall ps (n - stateCalls k d p) (stateShadows k d p sh)

theorem initState_split {p : Phase} {l1 : List Stmt} {a : LineId} {v : Bool} {x : List Stmt}
    (h : initState k d p = l1 ++ .line a v :: x) :
    (∀ q, phaseAfter l1 q = q) ∧ ∀ sh, shadowsAfter l1 sh = stateShadows k d p sh := by
  by_cases hp : p = .configureDisplay
  · subst hp
    simp only [initState, enableFlag, writeShadowed] at h
    cases l1 with
    | nil => simp at h
    | cons y l1 =>
      simp only [List.cons_append, List.cons.injEq] at h
      obtain ⟨rfl, h⟩ := h
      have : OnlyBus (l1 ++ .line a v :: x) := by rw [← h]; exact onlyBus_writeByte _ _ _
      have := this.left.keeps
      exact ⟨fun q => this.1 q, fun sh => by simp only [shadowsAfter, this.2, stateShadows]; rfl⟩
  · have : OnlyBus (l1 ++ .line a v :: x) := by rw [← h]; exact onlyBus_initState k d p hp
    have := this.left.keeps
    exact ⟨this.1, fun sh => by simp [this.2, stateShadows, hp]⟩

/-- A call of the sequencer: the phase and the shadow registers before it. -/
theorem sequencer_split (a : LineId) (v : Bool) (l2 : List Stmt) :
    ∀ (ps : List Phase) (l1 : List Stmt) (q : Phase) (sh : Shadows),
      sequencer k d ps = l1 ++ .line a v :: l2 →
        phaseAfter l1 q = phaseAtCall k d ps (drivenLines l1).length q ∧
          shadowsAfter l1 sh = shadowsAtCall k d ps (drivenLines l1).length sh := by
  intro ps
  induction ps with
  | nil => intro l1 q sh h; simp [sequencer] at h
  | cons p ps ih =>
    intro l1 q sh h
    have past : ∀ x : List Stmt, l1 = initState k d p ++ [.phase p.following] ++ x →
        sequencer k d ps = x ++ .line a v :: l2 →
        phaseAfter l1 q = phaseAtCall k d (p :: ps) (drivenLines l1).length q ∧
          shadowsAfter l1 sh = shadowsAtCall k d (p :: ps) (drivenLines l1).length sh := by
      intro x hx hy
      have h1 := ih x p.following (stateShadows k d p sh) hy
      have hn : ¬ (drivenLines l1).length < stateCalls k d p := by
        rw [hx]; simp [stateCalls, drivenLines]
      have he : (drivenLines l1).length - stateCalls k d p = (drivenLines x).length := by
        rw [hx]; simp [stateCalls, drivenLines]
      rw [phaseAtCall, shadowsAtCall, if_neg hn, if_neg hn, he, hx]
      simp only [phaseAfter_append, phaseAfter, shadowsAfter_append,
        shadowsAfter_initState, shadowsAfter]
      exact h1
    rw [sequencer] at h
    rcases List.append_eq_append_iff.1 h with ⟨x, hx, hy⟩ | ⟨x, hx, hy⟩
    · exact past x hx hy
    · rcases List.append_eq_append_iff.1 hx with ⟨y, hz, hw⟩ | ⟨y, hz, hw⟩
      · cases y with
        | nil =>
          simp only [List.nil_append] at hw
          rw [← hw] at hy; simp at hy
        | cons y0 y =>
          simp at hw
          obtain ⟨rfl, rfl, rfl⟩ := hw
          exact past [] (by simp [hz]) (by simpa using hy.symm)
      · cases y with
        | nil =>
          simp only [List.nil_append] at hw
          rw [hw] at hy; simp at hy
        | cons y0 y =>
          rw [hw] at hy
          simp only [List.cons_append, List.cons.injEq] at hy
          obtain ⟨rfl, _⟩ := hy
          have h1 := initState_split k d hz
          have hn : (drivenLines l1).length < stateCalls k d p := by
            unfold stateCalls; rw [hz]; simp [drivenLines]
          rw [phaseAtCall, shadowsAtCall, if_pos hn, if_pos hn]
          exact ⟨h1.1 q, h1.2 sh⟩

end

end Sys2Proof.Machine
end

