-- ==== Sys2Proof/Laws/Parameters.lean ====
section
/-!
SUPPORT. What the admission checks on operands and parameters say: each computed check against the spec's
own terms.
-/

namespace Sys2Proof.Machine

/-- The check on a text is its type (R81). -/
theorem textAdmitted_iff (text : List Grapheme) : textAdmitted text = true ↔ IsText text := by
  simp only [textAdmitted, List.all_eq_true, graphemeWellFormed, scalarWellFormed, Bool.and_eq_true,
    Bool.or_eq_true, Bool.not_eq_true', List.isEmpty_eq_false_iff, decide_eq_true_eq, IsText, ne_eq]

/-- Masks that share no bit, bit by bit. -/
theorem disjointMasks_iff (a b : Byte) :
    disjointMasks a b = true ↔ ∀ k < 8, a.getLsbD k = true → ¬ b.getLsbD k = true := by
  simp only [disjointMasks, decide_eq_true_eq]
  constructor
  · intro h k _ ha hb
    have := congrArg (·.getLsbD k) h
    simp [ha, hb] at this
  · intro h
    refine BitVec.eq_of_getLsbD_eq fun k hk => ?_
    have := h k hk
    rw [BitVec.getLsbD_and]
    cases ha : a.getLsbD k <;> simp_all

/-- The leading bits of a code are those with no set bit above them (R84); of 0x00, all eight (log 12). -/
theorem getLsbD_leadingBits : ∀ (code : Byte), ∀ k < 8,
    ((leadingBits code).getLsbD k = true ↔ ∀ j < 8, code.getLsbD j = true → j ≤ k) := by
  decide +kernel

/-- The identifier bits, bit by bit. -/
theorem getLsbD_identifierMask (c : Codes) (r : Shadow) {k : Nat} (hk : k < 8) :
    (c.identifierMask r).getLsbD k = true ↔ IdentifierBit (c.identifier r) k := by
  rw [Codes.identifierMask, BitVec.getLsbD_or, Bool.or_eq_true, getLsbD_leadingBits _ k hk, or_comm]

/-- A mask off the identifier bits is a mask that fits (R8, R91). -/
theorem disjoint_identifierMask_iff (c : Codes) (r : Shadow) (m : Byte) :
    disjointMasks m (c.identifierMask r) = true ↔ MaskFits (c.identifier r) m := by
  rw [disjointMasks_iff]
  exact forall_congr' fun k => forall_congr' fun hk => by rw [getLsbD_identifierMask c r hk]

/-- Such a mask shares no bit with the code itself, so it never clears an identifier (R26). -/
theorem disjoint_identifier {c : Codes} {r : Shadow} {m : Byte}
    (h : disjointMasks m (c.identifierMask r) = true) : disjointMasks m (c.identifier r) = true :=
  (disjointMasks_iff _ _).2 fun k hk hm hc =>
    (disjoint_identifierMask_iff c r m).1 h k hk hm (.inl hc)

/-- A mask within bits, bit by bit. -/
theorem maskWithin_iff (m bits : Byte) :
    maskWithin m bits = true ↔ ∀ k < 8, m.getLsbD k = true → bits.getLsbD k = true := by
  simp only [maskWithin, decide_eq_true_eq]
  constructor
  · intro h k hk hm
    have := congrArg (·.getLsbD k) h
    simpa [hm, hk] using this
  · intro h
    refine BitVec.eq_of_getLsbD_eq fun k hk => ?_
    have := h k hk
    cases hm : m.getLsbD k <;> simp_all

/-- The bits a feature may own are those of the flags R27 to R29 give to Operations. -/
theorem getLsbD_featureBits (c : Codes) (r : Shadow) (k : Nat) :
    (c.featureBits r).getLsbD k = true ↔ FlagBit (ownableFlags c r) k := by
  cases r <;> simp [Codes.featureBits, Codes.flagBits, ownableFlags, FlagBit, BitVec.getLsbD_or, or_assoc]

/-- The bits a feature may own are flag bits of its register. -/
theorem maskWithin_flagBits {c : Codes} {r : Shadow} {m : Byte}
    (h : maskWithin m (c.featureBits r) = true) : maskWithin m (c.flagBits r) = true := by
  rw [maskWithin_iff] at h ⊢
  intro k hk hm
  have := h k hk hm
  cases r <;> simp only [Codes.featureBits, Codes.flagBits, BitVec.getLsbD_or, Bool.or_eq_true] at this ⊢ <;>
    tauto

/-- Setting flags changes no fixed bit (R115). -/
theorem setFlags_fixed {a m bits : Byte} (h : maskWithin m bits = true) :
    setFlags a m &&& ~~~bits = a &&& ~~~bits := by
  rw [maskWithin_iff] at h
  refine BitVec.eq_of_getLsbD_eq fun k hk => ?_
  have := h k hk
  simp only [setFlags, BitVec.getLsbD_and, BitVec.getLsbD_or, BitVec.getLsbD_not, hk]
  cases hm : m.getLsbD k <;> simp_all

/-- Clearing flags changes no fixed bit (R116). -/
theorem clearFlags_fixed {a m bits : Byte} (h : maskWithin m bits = true) :
    clearFlags a m &&& ~~~bits = a &&& ~~~bits := by
  rw [maskWithin_iff] at h
  refine BitVec.eq_of_getLsbD_eq fun k hk => ?_
  have := h k hk
  simp only [clearFlags, BitVec.getLsbD_and, BitVec.getLsbD_not, hk]
  cases hm : m.getLsbD k <;> simp_all

/-- Masking out a byte that shares no bit changes nothing. -/
theorem fixed_of_disjoint {i m : Byte} (h : disjointMasks i m = true) : i &&& ~~~m = i := by
  rw [disjointMasks_iff] at h
  refine BitVec.eq_of_getLsbD_eq fun j hj => ?_
  have := h j hj
  simp only [BitVec.getLsbD_and, BitVec.getLsbD_not, hj]
  cases hi : i.getLsbD j <;> simp_all

theorem fixed_or {i m n : Byte} (hm : i &&& ~~~m = i) (hn : disjointMasks i n = true) :
    i &&& ~~~(m ||| n) = i := by
  rw [BitVec.not_or, ← BitVec.and_assoc, hm, fixed_of_disjoint hn]

/-- A code has no bit of its flags (R8). -/
theorem identifier_fixed {k : Codes} (h : codesAdmitted k = true) (r : Shadow) :
    k.identifier r &&& ~~~(k.flagBits r) = k.identifier r := by
  have key : ∀ m, disjointMasks (k.identifierMask r) m = true → disjointMasks (k.identifier r) m = true := by
    intro m hm
    rw [disjointMasks, BitVec.and_comm] at hm ⊢
    exact disjoint_identifier hm
  simp only [codesAdmitted, pairwiseDisjoint, List.all_cons, List.all_nil, Bool.and_true, Bool.and_eq_true]
    at h
  cases r <;> simp only [Codes.flagBits] <;> repeat
    first
    | exact fixed_of_disjoint (key _ (by tauto))
    | refine fixed_or ?_ (key _ (by tauto))

/-- A flag's mask, set or not, lies within the flag bits if the mask does. -/
theorem maskWithin_flag {v : Bool} {m bits : Byte} (h : maskWithin m bits = true) :
    maskWithin (flag v m) bits = true := by
  cases v
  · simp [flag, maskWithin]
  · exact h

/-- Each flag is one of its register's flag bits. -/
theorem maskWithin_flags (k : Codes) :
    maskWithin k.fs8bit (k.flagBits .functionSet) = true ∧
    maskWithin k.fs2line (k.flagBits .functionSet) = true ∧
    maskWithin k.fs5x10 (k.flagBits .functionSet) = true ∧
    maskWithin k.dcDisplay (k.flagBits .displayControl) = true ∧
    maskWithin k.dcCursor (k.flagBits .displayControl) = true ∧
    maskWithin k.dcBlink (k.flagBits .displayControl) = true ∧
    maskWithin k.emIncrement (k.flagBits .entryMode) = true ∧
    maskWithin k.emShift (k.flagBits .entryMode) = true ∧
    maskWithin k.csDisplayMove (k.flagBits .shiftControl) = true ∧
    maskWithin k.csRight (k.flagBits .shiftControl) = true := by
  simp only [maskWithin_iff, Codes.flagBits, BitVec.getLsbD_or, Bool.or_eq_true]
  tauto

/-- The four assembled bytes hold their code and nothing else outside their flags (R84, R87). -/
theorem assembled_fixed {k : Codes} (h : codesAdmitted k = true) :
    (∀ i s, k.entryModeByte i s &&& ~~~(k.flagBits .entryMode) = k.identifier .entryMode) ∧
    (∀ d c b, k.displayControlByte d c b &&& ~~~(k.flagBits .displayControl) = k.identifier .displayControl) ∧
    (∀ m r, k.shiftByte m r &&& ~~~(k.flagBits .shiftControl) = k.identifier .shiftControl) ∧
    (∀ w n f, k.functionSetByte w n f &&& ~~~(k.flagBits .functionSet) = k.identifier .functionSet) := by
  obtain ⟨f1, f2, f3, d1, d2, d3, e1, e2, c1, c2⟩ := maskWithin_flags k
  refine ⟨fun i s => ?_, fun d c b => ?_, fun m r => ?_, fun w n f => ?_⟩
  · exact (setFlags_fixed (maskWithin_flag e2)).trans
      ((setFlags_fixed (maskWithin_flag e1)).trans (identifier_fixed h .entryMode))
  · exact (setFlags_fixed (maskWithin_flag d3)).trans ((setFlags_fixed (maskWithin_flag d2)).trans
      ((setFlags_fixed (maskWithin_flag d1)).trans (identifier_fixed h .displayControl)))
  · exact (setFlags_fixed (maskWithin_flag c2)).trans
      ((setFlags_fixed (maskWithin_flag c1)).trans (identifier_fixed h .shiftControl))
  · exact (setFlags_fixed (maskWithin_flag f3)).trans ((setFlags_fixed (maskWithin_flag f2)).trans
      ((setFlags_fixed (maskWithin_flag f1)).trans (identifier_fixed h .functionSet)))

/-- A register whose fixed bits are right carries its identifier (R26). -/
theorem carries_identifier {k : Codes} {sh : Shadows} (h : FixedBitsHold k sh) (r : Shadow) :
    sh.get r &&& k.identifier r = k.identifier r := by
  rw [← h r, ← BitVec.and_assoc, BitVec.and_self]

end Sys2Proof.Machine
end

