-- ==== Sys2Proof/Laws/PerInstr.lean ====
section
/-!
SUPPORT. Statements for every instruction, as syntax: family `EncodesTableRow`, the encoder's word is a word
of the instruction's own row of spec/opcode_table.json (30_encoding R82, R84, R85, 70_reset R243).
-/

namespace Sys2Proof.Laws

/-- The four formats of the opcode table. -/
inductive TableFormat where
  | req6
  | ir8
  | dr8
  | nib4
deriving DecidableEq, Repr

/-- A row of the opcode table: its format, its match and its mask. -/
structure TableRow where
  format : TableFormat
  pattern : Nat
  mask : Nat
deriving DecidableEq, Repr

/-- The format of a word. -/
def formatOf : InstrWord → TableFormat
  | .request _ => .req6
  | .emitted (.ir8 _) => .ir8
  | .emitted (.dr8 _ _) => .dr8
  | .emitted (.nib4 _) => .nib4

/-- The bits of a word. -/
def bitsOf : InstrWord → Nat
  | .request r => r.word.toNat
  | .emitted (.ir8 b) => b.toNat
  | .emitted (.dr8 _ b) => b.toNat
  | .emitted (.nib4 v) => v.toNat

/-- The row of each instruction, copied from spec/opcode_table.json. -/
def rowOf : Instr → TableRow
  | .start _ => ⟨.req6, 0x00, 0x30⟩
  | .stop => ⟨.req6, 0x10, 0x30⟩
  | .clear => ⟨.req6, 0x20, 0x3F⟩
  | .home => ⟨.req6, 0x21, 0x3F⟩
  | .write _ => ⟨.req6, 0x22, 0x3F⟩
  | .setCursor _ _ => ⟨.req6, 0x23, 0x3F⟩
  | .scroll _ => ⟨.req6, 0x24, 0x3F⟩
  | .moveLeft _ => ⟨.req6, 0x25, 0x3F⟩
  | .moveRight _ => ⟨.req6, 0x26, 0x3F⟩
  | .enable _ => ⟨.req6, 0x27, 0x3F⟩
  | .disable _ => ⟨.req6, 0x28, 0x3F⟩
  | .createChar _ _ => ⟨.req6, 0x29, 0x3F⟩
  | .unrecognised101x _ => ⟨.req6, 0x2A, 0x3E⟩
  | .unrecognised11xx _ => ⟨.req6, 0x2C, 0x3C⟩
  | .reservedCapability => ⟨.req6, 0x30, 0x30⟩
  | .irClear => ⟨.ir8, 0x01, 0xFF⟩
  | .irHome => ⟨.ir8, 0x02, 0xFF⟩
  | .irEntryMode _ _ => ⟨.ir8, 0x04, 0xFC⟩
  | .irDisplayControl _ _ _ => ⟨.ir8, 0x08, 0xF8⟩
  | .irCursorShift _ _ => ⟨.ir8, 0x10, 0xF3⟩
  | .irFunctionSet _ _ _ => ⟨.ir8, 0x20, 0xE3⟩
  | .irSetCgram _ => ⟨.ir8, 0x40, 0xC7⟩
  | .irSetDdram _ => ⟨.ir8, 0x80, 0x80⟩
  | .dataChar _ => ⟨.dr8, 0x00, 0x00⟩
  | .dataBitmapRow _ => ⟨.dr8, 0x00, 0x00⟩
  | .forceNibble8bit => ⟨.nib4, 0x03, 0x0F⟩
  | .forceNibble4bit => ⟨.nib4, 0x02, 0x0F⟩

/-- The encoder's word has the row's format and matches its pattern under its mask. -/
def EncodesTableRow.Statement (i : Instr) : Prop :=
  formatOf (encode i) = (rowOf i).format ∧ bitsOf (encode i) &&& (rowOf i).mask = (rowOf i).pattern

/-- The operands beside a request word are none of its bits. -/
theorem request_bits {w : BitVec 6} {o : Operands} {m p : Nat} (h : w.toNat &&& m = p) :
    bitsOf (.request ⟨w, o⟩) &&& m = p := h

namespace EncodesTableRow

theorem start (c : ConfigInput) : Statement (.start c) :=
  ⟨rfl, request_bits (by decide : (0x00#6).toNat &&& 0x30 = 0x00)⟩
theorem stop : Statement .stop := ⟨rfl, rfl⟩
theorem clear : Statement .clear := ⟨rfl, rfl⟩
theorem home : Statement .home := ⟨rfl, rfl⟩
theorem write (t : List Grapheme) : Statement (.write t) :=
  ⟨rfl, request_bits (by decide : (0x22#6).toNat &&& 0x3F = 0x22)⟩
theorem setCursor (r c : Int) : Statement (.setCursor r c) :=
  ⟨rfl, request_bits (by decide : (0x23#6).toNat &&& 0x3F = 0x23)⟩
theorem scroll (n : Int) : Statement (.scroll n) :=
  ⟨rfl, request_bits (by decide : (0x24#6).toNat &&& 0x3F = 0x24)⟩
theorem moveLeft (n : Int) : Statement (.moveLeft n) :=
  ⟨rfl, request_bits (by decide : (0x25#6).toNat &&& 0x3F = 0x25)⟩
theorem moveRight (n : Int) : Statement (.moveRight n) :=
  ⟨rfl, request_bits (by decide : (0x26#6).toNat &&& 0x3F = 0x26)⟩
theorem enable (f : String) : Statement (.enable f) :=
  ⟨rfl, request_bits (by decide : (0x27#6).toNat &&& 0x3F = 0x27)⟩
theorem disable (f : String) : Statement (.disable f) :=
  ⟨rfl, request_bits (by decide : (0x28#6).toNat &&& 0x3F = 0x28)⟩
theorem createChar (i : Int) (b : List Int) : Statement (.createChar i b) :=
  ⟨rfl, request_bits (by decide : (0x29#6).toNat &&& 0x3F = 0x29)⟩
theorem unrecognised101x (x : BitVec 1) : Statement (.unrecognised101x x) :=
  ⟨rfl, by revert x; decide⟩
theorem unrecognised11xx (x : BitVec 2) : Statement (.unrecognised11xx x) :=
  ⟨rfl, by revert x; decide⟩
theorem reservedCapability : Statement .reservedCapability := ⟨rfl, rfl⟩
theorem irClear : Statement .irClear := ⟨rfl, rfl⟩
theorem irHome : Statement .irHome := ⟨rfl, rfl⟩
theorem irEntryMode (i s : Bool) : Statement (.irEntryMode i s) := ⟨rfl, by revert i s; decide⟩
theorem irDisplayControl (d c b : Bool) : Statement (.irDisplayControl d c b) :=
  ⟨rfl, by revert d c b; decide⟩
theorem irCursorShift (m r : Bool) : Statement (.irCursorShift m r) := ⟨rfl, by revert m r; decide⟩
theorem irFunctionSet (w n f : Bool) : Statement (.irFunctionSet w n f) :=
  ⟨rfl, by revert w n f; decide⟩
theorem irSetCgram (k : BitVec 3) : Statement (.irSetCgram k) := ⟨rfl, by revert k; decide⟩
theorem irSetDdram (a : BitVec 7) : Statement (.irSetDdram a) := ⟨rfl, by revert a; decide⟩
theorem dataChar (c : Byte) : Statement (.dataChar c) := ⟨rfl, Nat.and_zero _⟩
theorem dataBitmapRow (b : Byte) : Statement (.dataBitmapRow b) := ⟨rfl, Nat.and_zero _⟩
theorem forceNibble8bit : Statement .forceNibble8bit := ⟨rfl, rfl⟩
theorem forceNibble4bit : Statement .forceNibble4bit := ⟨rfl, rfl⟩

end EncodesTableRow

end Sys2Proof.Laws
end

