-- ==== Sys2Proof/Laws/Requests.lean ====
section
/-!
SUPPORT. Requests on a quiet bus: what an Operation, `stop`, an emitted transfer and `start` answer, and the
transfer-level trace of a `start` segment by segment.
-/

namespace Sys2Proof.Machine

theorem shown_append (a b : List XferItem) : shown (a ++ b) = shown a ++ shown b := by simp [shown]

/-- On a quiet bus an `Ended` run ended well. -/
theorem ended_of_quiet {w : Wiring} {l : List Stmt} {good : State → State}
    {bad : BusErrorValue → State → State} {s t : State} (hq : BusQuiet s) (h : Ended w l s good bad t) :
    t = good (applyStmts w l s) := by
  cases h with
  | done h => exact h
  | failed l1 a v l2 e hl he h =>
    have : BusQuiet (applyStmts w l1 s) := by
      intro x hx; rw [applyStmts_busAnswers] at hx; exact hq x (List.mem_of_mem_drop hx)
    rw [nextAnswer_of_quiet this] at he; cases he

/-- An Operation on a quiet bus, inverted: unsupported, or its plan ran whole. -/
theorem operation_of_quiet {i : Instr} {s t : State} {d : DisplayState} (hi : i.isOperation = true)
    (hp : s.phase = .ready) (hd : s.display = some d) (hq : BusQuiet s) (h : exec i s = .next t) :
    (plan s.build d.sh d.cfg i = .unsupported ∧ t = s.reply .unsupported) ∨
      ∃ ps, plan s.build d.sh d.cfg i = .run ps ∧
        t = (applyStmts d.cfg.wiring (expand d.cfg ps) s).reply .ok := by
  rw [exec_operation hi hp hd] at h
  cases hpl : plan s.build d.sh d.cfg i with
  | refuse => rw [hpl] at h; cases h
  | unsupported => rw [hpl] at h; cases h; exact .inl ⟨rfl, rfl⟩
  | run ps =>
    rw [hpl] at h; simp only [Plan.carryOut, runOperation_quiet hq] at h; cases h
    exact .inr ⟨ps, rfl, rfl⟩

/-- The events a run added are those of its statements. -/
theorem events_of_trace {s : State} {l : List Stmt} {w : Wiring} {ev : List Event}
    (h : (applyStmts w l s).trace = s.trace ++ ev) : ev = eventsOf w s.image l := by
  rw [applyStmts_trace] at h; exact (List.append_cancel_left h).symm

/-- `stop` on a quiet bus. -/
theorem exec_stop_of_quiet {s : State} {d : DisplayState} (h : Live s d) (hq : BusQuiet s) :
    exec .stop s = .next ((applyStmts d.cfg.wiring (expand d.cfg
      [.assign .displayControl (clearFlags (d.sh.get .displayControl) s.build.codes.dcDisplay),
       .byte false (clearFlags (d.sh.get .displayControl) s.build.codes.dcDisplay)]) s).release.reply .ok) := by
  rw [expand_shadowed]
  simp [exec, execStop, h.phase, State.withDisplay, h.display, runStmts_quiet hq, disableFlag,
    State.returnOk]

/-- An emitted transfer made of parts, where it is admitted, completes. -/
theorem emits_of_pieces {i : Instr} {s : State} {d : DisplayState} {ps : List Piece}
    (hd : s.display = some d) (ha : d.cfg.admitted = true) (hq : BusQuiet s)
    (hps : .wait .tReset ∉ ps)
    (he : exec i s = s.emitTransfer true (fun d => expand d.cfg ps)) :
    Emits i s d (shown (itemsOf ps)) (shadowsOf ps d.sh) := by
  refine ⟨applyStmts d.cfg.wiring (expand d.cfg ps) s,
    eventsOf d.cfg.wiring s.image (expand d.cfg ps), ?_, ?_, ?_, ?_, ?_, ?_, ?_⟩
  · rw [he]; simp [State.emitTransfer, State.withDisplay, hd, runStmts_quiet hq]
  · simp [applyStmts_trace]
  · rw [transferTrace_eventsOf ha s (drivenLines_expand _ _), stmtXfers_expand ha _ _ hps]
  · simp
  · simp [applyStmts_phase, phaseAfter_expand]
  · simp [applyStmts_display, hd, shadowsAfter_expand]
  · exact kept_applyStmts s (drivenLines_expand d.cfg ps)

theorem setCgramByte_bits (x : BitVec 3) : setCgramByte (x.toNat : Int) = (0b01#2 ++ x ++ 0b000#3) := by
  revert x; decide

theorem setDdramByte_bits (x : BitVec 7) : setDdramByte (x.toNat : Int) = (0b1#1 ++ x) := by
  revert x; decide

/-! ## Start -/

/-- `start` on an admitted configuration is the sequencer. -/
theorem exec_start {ci : ConfigInput} {s : State} {w : Wiring} {p : LineId × LineId × DataLines}
    {c : DisplayConfig} (hb : buildAdmitted s.build = true) (hw : wiringOf s.build = some w)
    (hp : resolvePins ci = .ok p) (hc : c = DisplayConfig.ofInput ci p w) (ha : c.admitted = true) :
    exec (.start ci) s = runStart c s := by
  subst hc
  simp only [DisplayConfig.admitted, Bool.and_eq_true] at ha
  simp [exec, execStart, hb, hw, hp, ha.1, ha.2]

theorem runStart_of_quiet {s : State} {c : DisplayConfig} (h : BusQuiet s) :
    runStart c s = .next ((applyStmts c.wiring
      (sequencer s.build.codes ⟨c, preload s.build.codes c⟩ sequencerStates) (s.beginStart c)).reply .ok) := by
  have hb : BusQuiet (s.beginStart c) := h
  simp [runStart, runStmts_quiet hb, State.returnOk]

/-- The transfer-level items of statements, with the given number of unpaired latches. -/
def stmtTrace (c : DisplayConfig) (n : Nat) (up : Bool) (f : Levels) (l : List Stmt) : List XferItem :=
  match c.busMode with
  | .four => pairLatches n none (stmtLatches c up f l)
  | .eight => wholeLatches (stmtLatches c up f l)

theorem transferTrace_eventsOf_unpaired {c : DisplayConfig} (hc : c.admitted = true) (n : Nat) (s : State)
    {l : List Stmt} (hl : ∀ a ∈ drivenLines l, a ∈ c.lineIds) :
    transferTrace c n (s.replay c) (eventsOf c.wiring s.image l) =
      stmtTrace c n (s.replay c).up (s.view.level c) l := by
  unfold transferTrace stmtTrace
  have h := latchTrace_eventsOf hc l hl (standsAt_replay c s)
  cases c.busMode <;> simp only [h]

/-- State `Reset` makes no latch when EN was not last written 1; it leaves RS and EN low. -/
theorem stmtLatches_initReset {c : DisplayConfig} (ha : c.admitted = true) (f : Levels) :
    stmtLatches c false f (initReset c) = [.wait .tReset] ∧ upAfter c false (initReset c) = false ∧
      levelsAfter f (initReset c) c.rs = some false ∧ levelsAfter f (initReset c) c.en = some false := by
  have hn := admitted_nodup ha
  simp only [DisplayConfig.lineIds, List.nodup_cons, List.mem_cons, not_or] at hn
  refine ⟨?_, ?_, ?_, ?_⟩
  · simp [initReset, stmtLatches]
  · simp [initReset, upAfter]
  · simp [initReset, levelsAfter, Levels.drive, hn.1.1]
  · simp [initReset, levelsAfter, Levels.drive]

/-- A latch whose RS is low: its value, if it has one, went to IR. -/
theorem sampleLevels_rs_low {c : DisplayConfig} {f : Levels} (h : f c.rs = some false) :
    sampleLevels c f = none ∨ ∃ b, sampleLevels c f = some (false, b) := by
  simp only [sampleLevels, h]
  split
  · rename_i r n hr _
    cases hr; exact .inr ⟨_, rfl⟩
  · exact .inl rfl

/-- THE LATCHES OF A START: those of its statements; and before them one, with RS low, if the last write to
EN in the trace was a 1 (R69). -/
theorem latchTrace_start {c : DisplayConfig} (hc : c.admitted = true) (s : State) (l : List Stmt)
    (hl : ∀ a ∈ drivenLines l, a ∈ c.lineIds) :
    ∃ x, (x = none ∨ ∃ b, x = some (false, b)) ∧
      latchTrace c (s.replayStart c) (eventsOf c.wiring 0x00 (initReset c ++ l)) =
        (if (s.replayStart c).up = true then [.latch x] else []) ++
          stmtLatches c false ((s.beginStart c).view.level c) (initReset c ++ l) := by
  have hn := admitted_nodup hc
  simp only [DisplayConfig.lineIds, List.nodup_cons, List.mem_cons, not_or] at hn
  have hne : ¬ c.rs = c.en := hn.1.1
  have h0 := stands_view c (s.beginStart c)
  have hv : (s.beginStart c).view = ⟨s.lines, some 0x00⟩ := rfl
  have hi : (s.beginStart c).image = 0x00 := rfl
  generalize (s.beginStart c).view.level c = f at h0 ⊢
  rw [hv, hi] at h0
  obtain ⟨up, hup⟩ : ∃ up, s.replayStart c = ⟨up, ⟨s.lines, some 0x00⟩⟩ := ⟨_, rfl⟩
  rw [hup]
  simp only [initReset, List.cons_append, List.nil_append, stmtLatches]
  cases hw : c.wiring with
  | discrete =>
    have h2 := stands_discrete hw (stands_discrete hw h0 c.rs false) c.en false
    have h3 := latchTrace_eventsOf hc (.wait .tReset :: l) (r := ⟨false, _⟩) (up := false) hl
      ⟨h2, rfl, by simp [hw]⟩
    refine ⟨_, sampleLevels_rs_low (c := c) (f := Levels.drive (Levels.drive f c.rs false) c.en false)
      (by simp [Levels.drive, hne]), ?_⟩
    rw [← sample_eq h2.level]
    rw [hw] at h3
    have e1 := failedBefore_eventsOf .discrete 0x00 (.line c.en false :: .wait .tReset :: l)
    have e2 := failedBefore_eventsOf .discrete 0x00 (.wait .tReset :: l)
    simp only [eventsOf] at e1 e2 h3 ⊢
    rw [latchTrace_cons e1, latchTrace_cons e2]
    simp only [stmtLatches] at h3
    simpa [latchItems, Replay.next, View.next, View.after, enWrite, hw, hne] using h3
  | combined p =>
    have hr : c.rs ∈ c.lineIds := by simp [DisplayConfig.lineIds]
    have he : c.en ∈ c.lineIds := by simp [DisplayConfig.lineIds]
    have h1 := stands_combined hc hw h0 hr false p.regAddress
    have h2 := stands_combined hc hw h1 he false p.regAddress
    have hen0 : f c.en = some false := by simpa using (h0.image p hw c.en he).symm
    have w1 := enWrite_combined hc hw c.rs false (h1.image p hw)
    have hd1 : Levels.drive f c.rs false c.en = some false := by simp [Levels.drive, eq_comm, hne, hen0]
    have h3 := latchTrace_eventsOf hc (.line c.en false :: .wait .tReset :: l) (r := ⟨false, _⟩)
      (up := false) (by simpa [drivenLines, he] using hl) ⟨h1, rfl, fun _ _ => hd1⟩
    refine ⟨_, sampleLevels_rs_low (c := c) (f := Levels.drive f c.rs false) (by simp [Levels.drive]), ?_⟩
    rw [← sample_eq h1.level]
    rw [hw] at h3
    rw [hd1] at w1
    have e1 := failedBefore_eventsOf (.combined p) (p.place 0x00 c.rs false) (.line c.en false :: .wait .tReset :: l)
    simp only [eventsOf] at e1 h3 ⊢
    rw [latchTrace_cons e1]
    simp only [stmtLatches] at h3
    simp only [latchItems, Replay.next, View.next, w1]
    simpa [View.after] using h3

/-- An unpaired nibble is one item. -/
theorem shown_nibble {c : DisplayConfig} (hc : c.admitted = true) {d4 d5 d6 d7 : LineId}
    (hd : c.data = .four d4 d5 d6 d7) (v : Byte) {up : Bool} {f : Levels} {r : Bool} (hr : f c.rs = some r)
    (n : Nat) (rest : List Stmt) :
    shown (pairLatches (n + 1) none (stmtLatches c up f (writeNibble c d4 d5 d6 d7 v ++ rest))) =
      .nib (some (r, v >>> 4)) :: shown (pairLatches n none
        (stmtLatches c false (levelsAfter f (writeNibble c d4 d5 d6 d7 v)) rest)) := by
  obtain ⟨h1, h2, _⟩ := stmtLatches_writeNibble hc hd v (up := up) hr
  rw [stmtLatches_append, h1, h2]
  simp [pairLatches, shown]

/-- A wait other than `T_EN` and `T_RESET` is one item. -/
theorem shown_wait {c : DisplayConfig} {up : Bool} {f : Levels} {n : Nat} {t : Wait} {rest : List Stmt}
    (ht : t ≠ .tEn) (hr : t ≠ .tReset) :
    shown (pairLatches n none (stmtLatches c up f (.wait t :: rest))) =
      .wait t :: shown (pairLatches n none (stmtLatches c up f rest)) := by
  cases n <;> simp [stmtLatches, pairLatches, shown, ht, hr]

/-- The last transfer of the sequencer, and all before it. -/
theorem sequencer_last (k : Codes) (d : DisplayState) : ∃ l,
    sequencer k d sequencerStates = l ++ (writeByte d.cfg d.sh.shiftControl false ++ [.phase .ready]) :=
  ⟨initState k d .reset ++ [.phase .forceMode] ++ initState k d .forceMode ++ [.phase .configureFunction] ++
    initState k d .configureFunction ++ [.phase .configureDisplay] ++ initState k d .configureDisplay ++
    [.phase .clear] ++ initState k d .clear ++ [.phase .configureEntryMode] ++
    initState k d .configureEntryMode ++ [.phase .configureShiftControl],
   by simp [sequencer, sequencerStates, Phase.following, List.append_assoc, initState, setFeature, writeIr,
     Shadows.get]⟩

/-- The sequencer leaves EN and RS low. -/
theorem levelsAfter_sequencer (k : Codes) (d : DisplayState) (ha : d.cfg.admitted = true) (f : Levels) :
    levelsAfter f (sequencer k d sequencerStates) d.cfg.en = some false ∧
      levelsAfter f (sequencer k d sequencerStates) d.cfg.rs = some false := by
  obtain ⟨l, hl⟩ := sequencer_last k d
  rw [hl, levelsAfter_append, levelsAfter_append]
  exact ⟨levelsAfter_writeByte_en ha _ _ _, levelsAfter_writeByte_rs ha _ _ _⟩

end Sys2Proof.Machine
end

