-- ==== Sys2Proof/Tests/Slice0.lean ====
section
/-!
SUPPORT. The model's own tests: ill-formed terms, words written out bit by bit from spec/30_encoding, the
vectors of spec/95_test_vectors (one request each), and a witness for the hypotheses of each statement.
-/

namespace Sys2Proof.Tests

open Sys2Proof.Machine

/-! ## Small states -/

/-- The shadow registers after the start of program P1 (95_test_vectors). -/
def sh4 : Shadows := ⟨0x28, 0x0C, 0x06, 0x10⟩

/-- The display of P1: 4-bit, 2 x 16. -/
def d4 : DisplayState := ⟨configP1, sh4⟩

/-- A build with the spec's defaults and, as 95_test_vectors assumes, no table entry but R141's. -/
def build : Build := { Build.default with charTable := [] }

/-- The end state of program P1, without its trace and reply. -/
def live4 : State :=
  { State.reset with
    build := build
    phase := .ready
    display := some d4
    lines := [(17, false), (22, false), (23, false), (24, false), (25, false), (27, false)] }

/-- A DisplayConfig of 4-bit mode with the given geometry. -/
def config4 (rows cols : Int) : DisplayConfig := { configP1 with rows := rows, cols := cols }

/-- `live4` with another geometry. -/
def live4At (rows cols : Int) : State := { live4 with display := some ⟨config4 rows cols, sh4⟩ }

/-- `live4` with other shadow registers. -/
def live4With (sh : Shadows) : State := { live4 with display := some ⟨configP1, sh⟩ }

/-- A DisplayConfig of 8-bit mode: rs 9, en 10, d0..d7 on lines 0..7. -/
def config8 : DisplayConfig :=
  { configP1 with rs := 9, en := 10, data := .eight 0 1 2 3 4 5 6 7 }

/-- The display of 8-bit mode, geometry and registers as `d4`. -/
def d8 : DisplayState := ⟨config8, sh4⟩

/-- A display in 8-bit mode. -/
def live8 : State := { live4 with display := some d8, lines := [(9, false), (10, false)] }

/-- The parameters of vector V90 on P1's lines: rs 0, en 2, d4..d7 4..7, backlight bit 3. -/
def port : CombinedParams :=
  ⟨0x27, [(25, 0), (24, 2), (23, 4), (17, 5), (27, 6), (22, 7)], 0, 0x08⟩

/-- The display of P1 behind the combined transport. -/
def dC : DisplayState := ⟨{ configP1 with wiring := .combined port }, sh4⟩

/-- A display behind the combined transport. -/
def liveC : State :=
  { live4 with
    build := { build with transport := .combined, combined := some port }
    display := some dC
    lines := [] }

/-- The configuration input of P1 with the given low data lines. -/
def input (d0 d1 d2 d3 : Option LineId) : ConfigInput :=
  { Config.panelP1 with d0 := d0, d1 := d1, d2 := d2, d3 := d3 }

/-- The configuration input of P1 in 8-bit mode. -/
def input8 : ConfigInput := input (some 1) (some 2) (some 3) (some 4)

/-- Power-on with the build of the vectors. -/
def off : State := { State.reset with build := build }

/-- Power-on with the combined transport of `port`. -/
def offC : State :=
  { State.reset with build := { build with transport := .combined, combined := some port } }

/-- What one execution shows. -/
structure Seen where
  replies : List Reply
  phase : Phase
  sh : Option Shadows
  items : List XferItem
deriving DecidableEq, Repr

/-- The replies, the phase, the shadow registers and the transfer level of the events it adds. -/
def seen (i : Instr) (s : State) : Option Seen :=
  match exec i s, s.display with
  | .next t, some d =>
    some ⟨t.replies, t.phase, t.display.map (·.sh),
      shown (transferTrace d.cfg 0 (s.replay d.cfg) (t.trace.drop s.trace.length))⟩
  | _, _ => none

/-- The state after, its reply and its events, for requests that need no display. -/
def after (i : Instr) (s : State) : Option State :=
  match exec i s with
  | .next t => some t
  | _ => none

/-- Whether an execution is refused, and why. -/
def refusal (i : Instr) (s : State) : Option Refusal :=
  match exec i s with
  | .refused r => some r
  | _ => none

/-- The phase and replies after one step. -/
def stepped (s : State) : Option (Phase × List Reply × List Request) :=
  match step s with
  | .next t => some (t.phase, t.replies, t.inbox)
  | _ => none

/-! ## Ill-formed terms fail the check (R81), and a step answers `unsupported` to them (R89) -/

theorem test_wf_empty_grapheme : (Instr.write [[0x41], []]).wellFormed = false := by decide
theorem test_wf_surrogate_low : (Instr.write [[0xD800]]).wellFormed = false := by decide
theorem test_wf_surrogate_high : (Instr.write [[0xDFFF]]).wellFormed = false := by decide
theorem test_wf_scalar_too_large : (Instr.write [[0x110000]]).wellFormed = false := by decide
theorem test_wf_good : (Instr.write [[0xD7FF], [0xE000, 0x10FFFF], []]).wellFormed = false ∧
    (Instr.write [[0xD7FF], [0xE000, 0x10FFFF]]).wellFormed = true ∧
    (Instr.dataChar 0xFF).wellFormed = true := by decide
theorem test_write_ill_formed :
    stepped { live4 with inbox := [⟨0b100010, { text := [[0x41], []] }⟩] } =
      some (.ready, [.unsupported], []) ∧
    seen (.write [[0x1F], [0xD800]]) live4 = some ⟨[.unsupported], .ready, some sh4, []⟩ := by decide

/-! ## Words written out from the spec's encodings (R82, R84, R85, R243) -/

theorem test_decode_start : decode (.request ⟨0b001111, { config := input8 }⟩) = .ok (.start input8) := by
  decide
theorem test_decode_stop : decode (.request ⟨0b011010, {}⟩) = .ok .stop := by decide
theorem test_decode_clear : decode (.request ⟨0b100000, {}⟩) = .ok .clear := by decide
theorem test_decode_home : decode (.request ⟨0b100001, {}⟩) = .ok .home := by decide
theorem test_decode_write : decode (.request ⟨0b100010, { text := [[0x41]] }⟩) = .ok (.write [[0x41]]) := by
  decide
theorem test_decode_set_cursor :
    decode (.request ⟨0b100011, { row := 1, col := 14 }⟩) = .ok (.setCursor 1 14) := by decide
theorem test_decode_scroll : decode (.request ⟨0b100100, { n := -3 }⟩) = .ok (.scroll (-3)) := by decide
theorem test_decode_move_left : decode (.request ⟨0b100101, { n := 2 }⟩) = .ok (.moveLeft 2) := by decide
theorem test_decode_move_right : decode (.request ⟨0b100110, { n := 1 }⟩) = .ok (.moveRight 1) := by decide
theorem test_decode_enable :
    decode (.request ⟨0b100111, { feature := "cursor" }⟩) = .ok (.enable "cursor") := by decide
theorem test_decode_disable :
    decode (.request ⟨0b101000, { feature := "blink" }⟩) = .ok (.disable "blink") := by decide
theorem test_decode_create_char :
    decode (.request ⟨0b101001, { idx := 3, bitmap := [1, 2] }⟩) = .ok (.createChar 3 [1, 2]) := by decide
theorem test_decode_unrecognised_101x :
    decode (.request ⟨0b101011, {}⟩) = .ok (.unrecognised101x 1) := by decide
theorem test_decode_unrecognised_11xx :
    decode (.request ⟨0b101110, {}⟩) = .ok (.unrecognised11xx 2) := by decide
theorem test_decode_reserved : decode (.request ⟨0b110101, {}⟩) = .ok .reservedCapability := by decide
theorem test_decode_ir_clear : decode (.emitted (.ir8 0b00000001)) = .ok .irClear := by decide
theorem test_decode_ir_home : decode (.emitted (.ir8 0b00000010)) = .ok .irHome := by decide
theorem test_decode_ir_entry_mode :
    decode (.emitted (.ir8 0b00000110)) = .ok (.irEntryMode true false) := by decide
theorem test_decode_ir_display_control :
    decode (.emitted (.ir8 0b00001101)) = .ok (.irDisplayControl true false true) := by decide
theorem test_decode_ir_cursor_shift :
    decode (.emitted (.ir8 0b00010100)) = .ok (.irCursorShift false true) := by decide
theorem test_decode_ir_function_set :
    decode (.emitted (.ir8 0b00101000)) = .ok (.irFunctionSet false true false) := by decide
theorem test_decode_ir_set_cgram : decode (.emitted (.ir8 0b01011000)) = .ok (.irSetCgram 3) := by decide
theorem test_decode_ir_set_ddram : decode (.emitted (.ir8 0b11001110)) = .ok (.irSetDdram 0x4E) := by decide
theorem test_decode_data_char : decode (.emitted (.dr8 .char 0x41)) = .ok (.dataChar 0x41) := by decide
theorem test_decode_data_bitmap_row :
    decode (.emitted (.dr8 .bitmapRow 0x1F)) = .ok (.dataBitmapRow 0x1F) := by decide
theorem test_decode_force_nibbles :
    decode (.emitted (.nib4 0b0011)) = .ok .forceNibble8bit ∧
    decode (.emitted (.nib4 0b0010)) = .ok .forceNibble4bit := by decide

/-- Bytes and nibbles that no row of the table holds: 0x00, an unused shift bit, an unused CGRAM bit. -/
theorem test_decode_rejects :
    decode (.emitted (.ir8 0x00)) = .error (.noInstructionByte 0x00) ∧
    decode (.emitted (.ir8 0x11)) = .error (.noInstructionByte 0x11) ∧
    decode (.emitted (.ir8 0x41)) = .error (.noInstructionByte 0x41) ∧
    decode (.emitted (.nib4 0x1)) = .error (.noForceNibble 0x1) := by decide

/-! ## Bare table words (log 8) -/

theorem test_table_word_request : decodeTableWord 8 0x23 = some (.setCursor 0 0) := by decide
theorem test_table_word_byte : decodeTableWord 8 0xCE = some (.irSetDdram 0x4E) := by decide
theorem test_table_word_nibble : decodeTableWord 4 0x3 = some .forceNibble8bit := by decide
theorem test_table_word_runs_start :
    stepped (State.reset.withFetchWord 8 0x00) = some (.off, [.configurationError .missingPins], []) := by
  decide
theorem test_table_word_runs_clear :
    stepped (State.reset.withFetchWord 8 0x20) = some (.ready, [.ok], []) := by decide
theorem test_table_word_runs_byte :
    stepped (State.reset.withFetchWord 8 0xCE) = some (.ready, [], []) := by decide
theorem test_table_word_runs_nibble :
    stepped (State.reset.withFetchWord 4 0x2) = some (.forceMode, [], []) := by decide

/-! ## Operations: vectors V30 to V59 (95_test_vectors section 2.3) -/

theorem test_clear : seen .clear live4 = some ⟨[.ok], .ready, some sh4, [irXfer 0x01, .wait .tClear]⟩ := by
  decide
theorem test_home : seen .home live4 = some ⟨[.ok], .ready, some sh4, [irXfer 0x02, .wait .tClear]⟩ := by
  decide
/-- V34: "Hi", U+25B6 U+FE0E, U+00E9. -/
theorem test_write : seen (.write [[0x48], [0x69], [0x25B6, 0xFE0E], [0xE9]]) live4 =
    some ⟨[.ok], .ready, some sh4, [drXfer 0x48, drXfer 0x69, drXfer 0x10, drXfer 0x3F]⟩ := by decide
theorem test_write_empty : seen (.write []) live4 = some ⟨[.ok], .ready, some sh4, []⟩ := by decide
/-- V37: clamps to (1, 15). -/
theorem test_set_cursor : seen (.setCursor 5 99) live4 = some ⟨[.ok], .ready, some sh4, [irXfer 0xCF]⟩ := by
  decide
/-- V60: the largest admitted addresses and a row of each base. -/
theorem test_set_cursor_geometries :
    (seen (.setCursor 1 63) (live4At 2 64)).map (·.items) = some [irXfer 0xFF] ∧
    (seen (.setCursor 3 31) (live4At 4 32)).map (·.items) = some [irXfer 0xFF] ∧
    (seen (.setCursor 2 0) (live4At 4 20)).map (·.items) = some [irXfer 0x94] ∧
    (seen (.setCursor 3 25) (live4At 4 20)).map (·.items) = some [irXfer 0xE7] ∧
    (seen (.setCursor 1 1) (live4At 1 8)).map (·.items) = some [irXfer 0x81] ∧
    (seen (.setCursor (-1) (-5)) live4).map (·.items) = some [irXfer 0x80] := by decide
/-- V39. -/
theorem test_scroll_right : seen (.scroll 3) live4 =
    some ⟨[.ok], .ready, some (sh4.set .shiftControl 0x1C), [irXfer 0x1C, irXfer 0x1C, irXfer 0x1C]⟩ := by
  decide
/-- V40. -/
theorem test_scroll_left : seen (.scroll (-3)) live4 =
    some ⟨[.ok], .ready, some (sh4.set .shiftControl 0x18), [irXfer 0x18, irXfer 0x18, irXfer 0x18]⟩ := by
  decide
/-- V43, V46. -/
theorem test_move_left :
    seen (.moveLeft 2) live4 = some ⟨[.ok], .ready, some sh4, [irXfer 0x10, irXfer 0x10]⟩ ∧
    seen (.moveLeft (-1)) live4 = some ⟨[.unsupported], .ready, some sh4, []⟩ := by decide
/-- V44, V46. -/
theorem test_move_right :
    seen (.moveRight 1) live4 = some ⟨[.ok], .ready, some (sh4.set .shiftControl 0x14), [irXfer 0x14]⟩ ∧
    seen (.moveRight (-4)) live4 = some ⟨[.unsupported], .ready, some sh4, []⟩ := by decide
/-- V47, V50, V49. -/
theorem test_enable :
    seen (.enable "cursor") live4 =
      some ⟨[.ok], .ready, some (sh4.set .displayControl 0x0E), [irXfer 0x0E]⟩ ∧
    seen (.enable "autoscroll") live4 =
      some ⟨[.ok], .ready, some (sh4.set .entryMode 0x07), [irXfer 0x07]⟩ ∧
    seen (.enable "display") live4 = some ⟨[.ok], .ready, some sh4, [irXfer 0x0C]⟩ := by decide
/-- V53. -/
theorem test_enable_unknown :
    seen (.enable "backlight") live4 = some ⟨[.unsupported], .ready, some sh4, []⟩ := by decide
/-- V52, V51. -/
theorem test_disable :
    seen (.disable "display") live4 =
      some ⟨[.ok], .ready, some (sh4.set .displayControl 0x08), [irXfer 0x08]⟩ ∧
    seen (.disable "autoscroll") live4 = some ⟨[.ok], .ready, some sh4, [irXfer 0x06]⟩ := by decide
/-- P3 request 3: only bit 1 is cleared. -/
theorem test_disable_keeps_others :
    seen (.disable "cursor") (live4With (sh4.set .displayControl 0x0F)) =
      some ⟨[.ok], .ready, some (sh4.set .displayControl 0x0D), [irXfer 0x0D]⟩ := by decide
/-- V56: bytes unmasked. -/
theorem test_create_char : seen (.createChar 3 [0xFF, 0xE0, 0, 0, 0, 0, 0, 0]) live4 =
    some ⟨[.ok], .ready, some sh4, [irXfer 0x58, drXfer 0xFF, drXfer 0xE0, drXfer 0, drXfer 0, drXfer 0,
      drXfer 0, drXfer 0, drXfer 0]⟩ := by decide +kernel
/-- V57, V58. -/
theorem test_create_char_unsupported :
    seen (.createChar 8 [0, 0, 0, 0, 0, 0, 0, 0]) live4 = some ⟨[.unsupported], .ready, some sh4, []⟩ ∧
    seen (.createChar (-1) [0, 0, 0, 0, 0, 0, 0, 0]) live4 = some ⟨[.unsupported], .ready, some sh4, []⟩ ∧
    seen (.createChar 3 [0, 0, 0, 0, 0, 0, 0]) live4 = some ⟨[.unsupported], .ready, some sh4, []⟩ := by
  decide
/-- V59. -/
theorem test_unrecognised :
    seen (.unrecognised101x 0) live4 = some ⟨[.unsupported], .ready, some sh4, []⟩ ∧
    seen (.unrecognised11xx 3) live4 = some ⟨[.unsupported], .ready, some sh4, []⟩ := by decide
theorem test_reserved : refusal .reservedCapability live4 = some .reservedCapability := by decide

/-! ## The character table: vectors V20 to V27 -/

theorem test_map_ascii : mapGrapheme build [0x20] = some 0x20 ∧ mapGrapheme build [0x7E] = some 0x7E ∧
    mapGrapheme build [0x3F] = some 0x3F := by decide
theorem test_map_multi_byte : mapGrapheme build [0x25B6, 0xFE0E] = some 0x10 ∧
    mapGrapheme build [0x25B6] = some 0x3F ∧ mapGrapheme build [0x65, 0x301] = some 0x3F ∧
    mapGrapheme build [0x0D, 0x0A] = some 0x3F ∧ mapGrapheme build [0x80] = some 0x3F := by decide
theorem test_map_lowcode : mapGrapheme build [0x1F] = none ∧
    mapGrapheme { build with lowcode := .passthrough } [0x7F] = some 0x7F ∧
    mapGrapheme { build with lowcode := .fallback } [0x0A] = some 0x3F := by decide
/-- An entry of the open part of the table: code number 16 of the codomain is 0x7F (R140). -/
theorem test_map_entry : mapGrapheme { build with charTable := [([0xE9], 16)] } [0xE9] = some 0x7F := by
  decide
/-- A row whose key is no multi-byte grapheme is no entry (R140): one byte, empty, a surrogate. -/
theorem test_table_domain :
    [[0x41], [0x0A], [], [0xD800], [0xE9]].map (charTable { build with charTable :=
      [([0x41], 0), ([0x0A], 0), ([], 0), ([0xD800], 0), ([0xE9], 0)] }) =
    [none, none, none, none, some 0x10] := by decide

/-! ## Start and stop: vectors V70 to V74, programs P1 and P2 -/

/-- P1 at the transfer level, with the state it leaves. -/
theorem test_start_4bit :
    (after (.start Config.panelP1) off).map (fun t => (t.replies, t.phase, t.display,
      shown (transferTrace configP1 0 (off.replayStart configP1) t.trace))) =
    some ([.ok], .ready, some d4,
      [.wait .tReset, .nib (some (false, 0x3)), .wait .tForce, .nib (some (false, 0x3)), .wait .tForce,
       .nib (some (false, 0x3)), .nib (some (false, 0x2)), irXfer 0x28, irXfer 0x0C, irXfer 0x01,
       .wait .tClear, irXfer 0x06, irXfer 0x10]) := by decide +kernel
/-- P1's counts and last levels. -/
theorem test_start_4bit_counts :
    (after (.start Config.panelP1) off).map (fun t => (busCalls t.trace, waitCount .tEn t.trace,
      minDuration Timing.default t.trace, t.lines)) =
    some (91, 28, 108, [(17, false), (22, false), (23, false), (24, false), (25, false), (27, false)]) := by
  decide +kernel
/-- P2 request 1: 8-bit mode. -/
theorem test_start_8bit :
    (after (.start { input8 with rows := 4, cols := 20 }) off).map (fun t => (t.replies, t.phase,
      t.display.map (·.sh), busCalls t.trace, minDuration Timing.default t.trace)) =
    some ([.ok], .ready, some ⟨0x38, 0x0C, 0x06, 0x10⟩, 79, 94) := by decide +kernel
/-- V70: the pin errors, in every case with an empty trace and phase Off. -/
theorem test_start_pin_errors :
    (after (.start (input (some 1) none none none)) live4).map (fun t => (t.replies, t.phase, t.trace)) =
      some ([.configurationError .partialLowNibble], .off, []) ∧
    (after (.start { input8 with d7 := none }) live4).map (fun t => (t.replies, t.phase, t.trace)) =
      some ([.configurationError .missingPins], .off, []) := by decide
/-- V70: configurations outside R23. -/
theorem test_start_domain :
    refusal (.start { Config.panelP1 with rows := 5 }) off = some .configOutsideDomain ∧
    refusal (.start { Config.panelP1 with cols := 65 }) off = some .configOutsideDomain ∧
    refusal (.start { Config.panelP1 with rows := 4, cols := 33 }) off = some .configOutsideDomain ∧
    refusal (.start { Config.panelP1 with d4 := some 25 }) off = some .configOutsideDomain := by decide
/-- V71: one row and the tall font in 4-bit mode, four rows in 8-bit mode. -/
theorem test_function_set :
    Codes.default.functionSetOf { config4 1 8 with font5x10 := true } = 0x24 ∧
    Codes.default.functionSetOf { config8 with rows := 4 } = 0x38 ∧
    Codes.default.functionSetOf (config4 1 8) = 0x20 := by decide
/-- V73. -/
theorem test_stop :
    (after .stop (live4With (sh4.set .displayControl 0x0F))).map (fun t => (t.replies, t.phase, t.display,
      shown (transferTrace configP1 0 (live4.replay configP1) t.trace))) =
    some ([.ok], .off, none, [irXfer 0x0B]) := by decide
theorem test_stop_off : refusal .stop off = some (.stopOutsideReady .off) := by decide

/-! ## The line level: vectors V3, V4 and V90 -/

/-- V3: `write_byte(0x41, 1)` in 4-bit mode. -/
theorem test_write_byte_4bit : (after (.dataChar 0x41) live4).map (·.trace) =
    some [.line 25 true,
      .line 23 false, .line 17 false, .line 27 true, .line 22 false,
      .line 24 true, .wait .tEn, .line 24 false, .wait .tEn,
      .line 23 true, .line 17 false, .line 27 false, .line 22 false,
      .line 24 true, .wait .tEn, .line 24 false, .wait .tEn] := by decide
/-- V4: `write_byte(0xCE, 0)` in 8-bit mode. -/
theorem test_write_byte_8bit : (after (.irSetDdram 0x4E) live8).map (·.trace) =
    some [.line 9 false, .line 0 false, .line 1 true, .line 2 true, .line 3 true, .line 4 false,
      .line 5 false, .line 6 true, .line 7 true, .line 10 true, .wait .tEn, .line 10 false, .wait .tEn] := by
  decide
/-- V90: `write_nibble(0x30)` behind the combined transport. -/
theorem test_write_nibble_combined :
    (after .forceNibble8bit { liveC with phase := .forceMode }).map (fun t => (t.trace, t.image)) =
    some ([.reg 0x27 0x18, .reg 0x27 0x38, .reg 0x27 0x38, .reg 0x27 0x38, .reg 0x27 0x3C, .wait .tEn,
      .reg 0x27 0x38, .wait .tEn], 0x30) := by decide
/-- The combined transport without its parameters, and with two lines on one bit (R53, R120). -/
theorem test_combined_refused :
    refusal (.start Config.panelP1) { off with build := { build with transport := .combined } } =
      some .combinedWithoutParameters ∧
    refusal (.start Config.panelP1) { off with build := { build with
      transport := .combined, combined := some { port with bitposTable := [] } } } =
      some .combinedParametersNotAdmitted := by decide

/-- The identifier bits of the default codes: the patterns 000001is, 00001dcb, 0001mr00, 001wnf00 of R84 up to
their first 1. -/
theorem test_identifier_bits :
    [Shadow.entryMode, .displayControl, .shiftControl, .functionSet].map Codes.default.identifierMask =
      [0xFC, 0xF8, 0xF0, 0xE0] := by decide
/-- A feature's mask on a leading zero of its register is not admitted (R91), nor one on `FS_8BIT` or on the
unused bits 1:0 of the function set (R27); one on its two other flags is. -/
theorem test_feature_masks :
    refusal (.start Config.panelP1) { off with build := { build with
      features := [("x", ⟨.displayControl, 0x80⟩)] } } = some .parametersNotAdmitted ∧
    refusal (.start Config.panelP1) { off with build := { build with
      features := [("x", ⟨.functionSet, 0x20⟩)] } } = some .parametersNotAdmitted ∧
    refusal (.start Config.panelP1) { off with build := { build with
      features := [("x", ⟨.functionSet, 0x10⟩)] } } = some .parametersNotAdmitted ∧
    refusal (.start Config.panelP1) { off with build := { build with
      features := [("x", ⟨.functionSet, 0x01⟩)] } } = some .parametersNotAdmitted ∧
    buildAdmitted { build with features := [("x", ⟨.functionSet, 0x0C⟩)] } = true := by decide
/-- The two initial bytes: every value of their flags, and no other bit moved (R29: 7:3 and 7:5, 1:0 fixed). -/
theorem test_initial_bytes :
    ([0x04, 0x05, 0x06, 0x07, 0x84, 0x02].map (fun b =>
      buildAdmitted { build with codes := { Codes.default with entryModeInit := b } })) =
      [true, true, true, true, false, false] ∧
    ([0x10, 0x14, 0x18, 0x1C, 0x33, 0x11].map (fun b =>
      buildAdmitted { build with codes := { Codes.default with shiftControlInit := b } })) =
      [true, true, true, true, false, false] := by decide

/-! ## Emitted transfers (30_encoding section 2) -/

theorem test_emit_clear :
    seen .irClear live4 = some ⟨[], .ready, some sh4, [irXfer 0x01]⟩ := by decide
theorem test_emit_home : seen .irHome live4 = some ⟨[], .ready, some sh4, [irXfer 0x02]⟩ := by decide
theorem test_emit_entry_mode : seen (.irEntryMode true true) live4 =
    some ⟨[], .ready, some (sh4.set .entryMode 0x07), [irXfer 0x07]⟩ := by decide
theorem test_emit_display_control : seen (.irDisplayControl false true true) live4 =
    some ⟨[], .ready, some (sh4.set .displayControl 0x0B), [irXfer 0x0B]⟩ := by decide
theorem test_emit_cursor_shift : seen (.irCursorShift true false) live4 =
    some ⟨[], .ready, some (sh4.set .shiftControl 0x18), [irXfer 0x18]⟩ := by decide
theorem test_emit_function_set :
    seen (.irFunctionSet false true true) { live4 with phase := .configureFunction } =
      some ⟨[], .configureFunction, some (sh4.set .functionSet 0x2C), [irXfer 0x2C]⟩ ∧
    refusal (.irFunctionSet false true true) live4 = some (.emissionOutsideItsPhase .ready) := by decide
theorem test_emit_set_cgram :
    seen (.irSetCgram 7) live4 = some ⟨[], .ready, some sh4, [irXfer 0x78]⟩ := by decide
theorem test_emit_set_ddram :
    seen (.irSetDdram 0x7F) live4 = some ⟨[], .ready, some sh4, [irXfer 0xFF]⟩ := by decide
theorem test_emit_data_char :
    seen (.dataChar 0x9F) live4 = some ⟨[], .ready, some sh4, [drXfer 0x9F]⟩ := by decide
theorem test_emit_data_bitmap_row :
    seen (.dataBitmapRow 0xE0) live4 = some ⟨[], .ready, some sh4, [drXfer 0xE0]⟩ := by decide
theorem test_emit_nibble_4bit :
    (after .forceNibble4bit { live4 with phase := .forceMode }).map (fun t =>
      shown (transferTrace configP1 1 (live4.replay configP1) t.trace)) = some [.nib (some (false, 0x2))] := by decide
theorem test_emit_nibble_8bit_mode :
    refusal .forceNibble8bit { live8 with phase := .forceMode } = some .nibbleIn8bitMode := by decide

/-! ## Errors: vectors V80 to V86 -/

/-- V80: the 20th call of `write("AB")` fails. -/
theorem test_bus_error_in_write :
    (after (.write [[0x41], [0x42]]) (failsAfter live4 19 7)).map (fun t => (t.replies, t.phase,
      t.display.map (·.sh), t.trace.drop 17)) =
    some ([.busError 7], .faulted, some sh4,
      [.line 25 true, .line 23 false, .line 17 false, .line 27 true, .line 22 false, .line 24 true,
       .wait .tEn, .line 24 false, .fail]) := by decide
/-- V81: the 8th call of `enable(cursor)` fails; the shadow is not rolled back. -/
theorem test_bus_error_after_shadow :
    (after (.enable "cursor") (failsAfter live4 7 7)).map (fun t => (t.phase, t.display.map (·.sh),
      t.trace.drop 9)) =
    some (.faulted, some (sh4.set .displayControl 0x0E), [.line 23 false, .fail]) := by decide
/-- The events of V80 at the latch level and the transfer level: the failed `Line(en, 0)` follows a
`Line(en, 1)` and is a latch (R69), its nibble no transfer. -/
def v80 : List Event :=
  [.line 25 true, .line 23 false, .line 17 false, .line 27 true, .line 22 false, .line 24 true, .wait .tEn,
   .line 24 false, .wait .tEn, .line 23 true, .line 17 false, .line 27 false, .line 22 false, .line 24 true,
   .wait .tEn, .line 24 false, .wait .tEn, .line 25 true, .line 23 false, .line 17 false, .line 27 true,
   .line 22 false, .line 24 true, .wait .tEn, .line 24 false, .fail]
theorem test_v80_levels :
    latchTrace configP1 (live4.replay configP1) v80 =
      [.wait .tEn, .latch (some (true, 0x4)), .wait .tEn, .wait .tEn, .latch (some (true, 0x1)), .wait .tEn,
       .wait .tEn, .latch (some (true, 0x4)), .fail] ∧
    shown (transferTrace configP1 0 (live4.replay configP1) v80) = [drXfer 0x41, .fail] := by decide
/-- After V80 the `Line(en, 0)` of a `start` makes no latch, for another `Line(en, ·)`, the failed one, lies
between; after a failed `Line(en, 1)` it makes one, of RS 0 and the levels the data lines hold (R69). -/
theorem test_start_latch_after_failure :
    (latchTrace configP1 ({ live4 with trace := v80 }.replayStart configP1)
      [.line 25 false, .line 24 false, .wait .tReset]) = [.wait .tReset] ∧
    (latchTrace configP1 ({ live4 with trace := [.line 24 true, .fail] }.replayStart configP1)
      [.line 25 false, .line 24 false, .wait .tReset]) = [.latch (some (false, 0x0)), .wait .tReset] ∧
    (latchTrace dC.cfg ({ liveC with trace := [.reg 0x27 0x0C, .fail] }.replayStart dC.cfg)
      [.reg 0x27 0x08, .reg 0x27 0x08, .wait .tReset]) = [.latch (some (false, 0x0)), .wait .tReset] := by
  decide
/-- The first four latches after `Wait(T_RESET)` stand alone, whatever lay before, and then they pair up. -/
theorem test_pairing_after_reset :
    pairLatches 0 none [.latch (some (false, 0x4)), .wait .tReset, .latch (some (false, 0x3)),
      .latch (some (false, 0x3)), .latch (some (false, 0x3)), .latch (some (false, 0x2)),
      .latch (some (false, 0x2)), .latch (some (false, 0x8))] =
    [.wait .tReset, .nib (some (false, 0x3)), .nib (some (false, 0x3)), .nib (some (false, 0x3)),
      .nib (some (false, 0x2)), irXfer 0x28] := by decide
/-- V82: the first call of `clear` fails. -/
theorem test_bus_error_first_call :
    (after .clear (failsAfter live4 0 7)).map (fun t => (t.phase, t.trace)) =
    some (.faulted, [.line 25 false, .fail]) := by decide
/-- V83: the 30th call of a 4-bit `start` fails. -/
theorem test_initialization_error :
    (after (.start Config.panelP1) (failsAfter off 29 7)).map (fun t => (t.replies, t.phase,
      shown (transferTrace configP1 0 (off.replayStart configP1) t.trace))) =
    some ([.initializationError 7 .configureFunction], .faulted,
      [.wait .tReset, .nib (some (false, 0x3)), .wait .tForce, .nib (some (false, 0x3)), .wait .tForce,
       .nib (some (false, 0x3)), .nib (some (false, 0x2)), .fail]) := by decide
/-- V84. -/
theorem test_faulted_is_sticky :
    refusal .clear { live4 with phase := .faulted } = some (.operationOutsideReady .faulted) ∧
    refusal .stop { live4 with phase := .faulted } = some (.stopOutsideReady .faulted) := by decide
/-- V86: a configuration error comes before any bus call, and so does `unsupported`. -/
theorem test_priority :
    (after (.start (input (some 1) none none none)) (failsAfter off 0 7)).map (fun t => (t.replies, t.trace)) =
      some ([.configurationError .partialLowNibble], []) ∧
    (after (.enable "backlight") (failsAfter live4 0 7)).map (fun t => (t.replies, t.trace)) =
      some ([.unsupported], []) := by decide
/-- V1 and V8: two equal transfers are both sent in full. -/
theorem test_no_elision :
    (after (.moveLeft 2) live4).map (fun t => busCalls t.trace) = some 26 := by decide

/-! ## Witnesses: states and operands that meet the hypotheses of each statement together -/

theorem live4_live : Live live4 d4 := ⟨rfl, rfl, by decide⟩
theorem live8_live : Live live8 d8 := ⟨rfl, rfl, by decide⟩
theorem liveC_live : Live liveC dC := ⟨rfl, rfl, by decide⟩
theorem live4_quiet : BusQuiet live4 := fun _ h => nomatch h
theorem live8_quiet : BusQuiet live8 := fun _ h => nomatch h
theorem liveC_quiet : BusQuiet liveC := fun _ h => nomatch h
theorem off_quiet : BusQuiet off := fun _ h => nomatch h
theorem offC_quiet : BusQuiet offC := fun _ h => nomatch h

/-- An execution that answers a next state of which `p` holds. -/
theorem exists_next {i : Instr} {s : State} {p : State → Bool} (h : (after i s).any p = true) :
    ∃ t, exec i s = .next t ∧ p t = true := by
  unfold after at h
  cases hx : exec i s with
  | next t => rw [hx] at h; exact ⟨t, rfl, h⟩
  | fault r => rw [hx] at h; cases h
  | refused r => rw [hx] at h; cases h

/-- The same, with the events it adds to an empty trace. -/
theorem exists_events {i : Instr} {s : State} {p : List Event → Bool} (hs : s.trace = [])
    (h : (after i s).any (fun t => p t.trace) = true) :
    ∃ t ev, exec i s = .next t ∧ t.trace = s.trace ++ ev ∧ p ev = true := by
  obtain ⟨t, ht, hp⟩ := exists_next h
  exact ⟨t, t.trace, ht, by simp [hs], hp⟩

/-- `live4` with a `clear` submitted. -/
def asked : State := { live4 with inbox := [⟨0b100000, {}⟩] }

theorem live4_identifiers : FixedBitsHold build.codes sh4 := by
  intro r; cases r <;> decide

theorem asked_invariant : Invariant asked where
  lines := by decide
  off := by decide
  live d h := by
    cases h
    exact ⟨by decide, by decide, live4_identifiers⟩

theorem off_invariant : Invariant off where
  lines := by decide
  off := by decide
  live d h := by cases h

theorem witness_encode : (Instr.dataChar 0xFF).wellFormed = true ∧
    (Instr.write [[0x10FFFF], [0xE000, 0xD7FF]]).wellFormed = true ∧
    (Instr.createChar (-1) [256]).wellFormed = true := by decide
theorem witness_decode : decode (.emitted (.ir8 0xFF)) = .ok (.irSetDdram 0x7F) ∧
    decode (.emitted (.ir8 0x78)) = .ok (.irSetCgram 7) ∧
    decode (.emitted (.dr8 .bitmapRow 0xFF)) = .ok (.dataBitmapRow 0xFF) ∧
    decode (.emitted (.nib4 0x2)) = .ok .forceNibble4bit := by decide
theorem witness_ready : live4.phase = .ready ∧ live4.display = some d4 := by decide
theorem witness_step_request : asked.emission = none ∧ asked.inbox = [⟨0b100000, {}⟩] ∧
    decode (.request ⟨0b100000, {}⟩) = .ok .clear := by decide
theorem witness_step_emission : decode (.emitted (.ir8 0x80)) = .ok (.irSetDdram 0) ∧
    { live4 with emission := some (.ir8 0x80) }.emission = some (.ir8 0x80) := by decide
theorem witness_step_idle : off.emission = none ∧ off.inbox = [] := by decide
theorem witness_step_next : Invariant asked ∧ EnIdlesLow asked ∧ ∃ t, step asked = .next t :=
  ⟨asked_invariant, fun d _ h => by cases h; decide, _, rfl⟩
/-- A request on a display whose interface bit fits, in either mode, with no single transfer placed. -/
theorem witness_interface_bit : asked.emission = none ∧ InterfaceBitFits build.codes d4 ∧
    InterfaceBitFits build.codes ⟨config8, sh4.set .functionSet 0x38⟩ ∧ ∃ t, step asked = .next t :=
  ⟨rfl, by unfold InterfaceBitFits; decide, by unfold InterfaceBitFits; decide, _, rfl⟩
theorem witness_served : asked.emission = none ∧ (∃ r rest, asked.inbox = r :: rest) ∧
    ∃ t, step asked = .next t := ⟨rfl, ⟨_, _, rfl⟩, _, rfl⟩
theorem witness_configuration :
    (∃ t, exec .clear live4 = .next t ∧ t.display.isSome = true) ∧ (∀ c, Instr.clear ≠ .start c) ∧
    (live4.build = off.build ∧ BusQuiet off ∧ BusQuiet live4 ∧
      (∃ t, exec (.start Config.panelP1) off = .next t ∧ t.display.isSome = true) ∧
      ∃ t, exec (.start Config.panelP1) live4 = .next t ∧ t.display.isSome = true) :=
  ⟨exists_next (by decide), by simp, rfl, off_quiet, live4_quiet, exists_next (by decide +kernel),
    exists_next (by decide +kernel)⟩
theorem witness_driven : live4.display = some d4 ∧
    (∃ t, exec .clear (failsAfter live4 3 1) = .next t ∧ (t.phase == .faulted) = true) ∧
    ∃ t, exec (.start Config.panelP1) live8 = .next t ∧ t.display.isSome = true :=
  ⟨rfl, exists_next (by decide), exists_next (by decide +kernel)⟩
theorem witness_outside_ready : Instr.clear.isOperation = true ∧ off.phase ≠ .ready ∧
    (Instr.unrecognised11xx 3).isOperation = true ∧ { live4 with phase := .faulted }.phase ≠ .ready := by
  decide
/-- `Ready` left in each of the three ways, and not left. -/
theorem witness_ready_left :
    (∃ t, exec .clear live4 = .next t ∧ t.phase = .ready) ∧
    (∃ t, exec .stop live4 = .next t ∧ t.phase = .off) ∧
    (∃ t, exec .clear (failsAfter live4 0 1) = .next t ∧ t.phase = .faulted) ∧
    ∃ t, exec (.start {}) live4 = .next t ∧ t.phase = .off :=
  ⟨⟨_, rfl, rfl⟩, ⟨_, rfl, rfl⟩, ⟨_, rfl, rfl⟩, _, rfl, rfl⟩
theorem witness_faulted : { live4 with phase := .faulted }.phase = .faulted ∧
    ∃ t, exec (.start Config.panelP1) { live4 with phase := .faulted } = .next t ∧ (t.phase == .ready) = true :=
  ⟨rfl, exists_next (by decide +kernel)⟩
theorem witness_unsupported : ∃ t, exec (.moveLeft (-1)) live4 = .next t ∧
    t.replies = live4.replies ++ [.unsupported] := ⟨_, rfl, rfl⟩
theorem witness_write : IsText [[0x20], [0x7E], [0x25B6, 0xFE0E]] ∧ IsText [[0x41], [0x1F]] ∧
    ¬ IsText [[0x41], []] ∧ ¬ IsText [[0xDFFF]] ∧ ¬ IsText [[0x110000]] ∧
    [[0x20], [0x7E], [0x25B6, 0xFE0E]].map (mapGrapheme live4.build) =
      ([0x20, 0x7E, 0x10] : List Byte).map some ∧
    none ∈ [[0x41], [0x1F]].map (mapGrapheme live4.build) := by decide
theorem witness_shift_counts : (0 : Int) ≤ 0 ∧ (-1 : Int) < 0 ∧ (0 : Int) < 1 := by decide
theorem witness_features :
    live4.build.features.lookup "display" = some ⟨.displayControl, 0x04⟩ ∧
    live4.build.features.lookup "autoscroll" = some ⟨.entryMode, 0x01⟩ ∧
    live4.build.features.lookup "backlight" = none := by decide
theorem witness_create_char : (List.replicate 8 (0xFF : Byte)).length = 8 ∧ ((7 : Fin 8).val : Int) = 7 ∧
    ((-1 : Int) < 0 ∧ (7 : Int) < 8 ∧ [0, 0, 0, 0, 0, 0, (0 : Int)].length ≠ 8 ∧
      ∃ x ∈ [0, 0, 0, 0, 0, 0, 0, (256 : Int)], x < 0 ∨ 255 < x) := by decide
theorem witness_ascii : (0x20 : Nat) ≤ 0x20 ∧ (0x20 : Nat) ≤ 0x7E ∧ (0x20 : Nat) ≤ 0x7E ∧
    (0x7E : Nat) ≤ 0x7E := by decide
theorem witness_multi_byte : 1 < ([0x80].map scalarUtf8Len).sum ∧
    charTable build Config.triangle = some 0x10 ∧ 1 < (Config.triangle.map scalarUtf8Len).sum ∧
    charTable build [0x80] = none := by decide
theorem witness_map_text : mapText build [[0x7E], [0x25B6, 0xFE0E]] = some [0x7E, 0x10] ∧
    build.lowcode = .refuse ∧
    mapText { build with lowcode := .passthrough } [[0x00]] = some [0x00] := by decide
theorem witness_lowcode : ((0x1F : Nat) ≤ 0x1F ∨ (0x1F : Nat) = 0x7F) ∧
    ((0x7F : Nat) ≤ 0x1F ∨ (0x7F : Nat) = 0x7F) ∧ live4.build.lowcode = .refuse ∧
    { build with lowcode := .passthrough }.lowcode = .passthrough ∧
    { build with lowcode := .fallback }.lowcode = .fallback ∧ [0x1F] ∈ [[0x41], [0x1F]] ∧
    IsText [[0x41], [0x1F]] ∧ IsText [[0x7F]] := by decide
theorem witness_addresses : (config4 2 64).admitted = true ∧ (config4 4 32).admitted = true ∧
    (config4 1 1).admitted = true ∧
    ddramAddress (config4 4 32) 3 31 = ddramAddress (config4 4 32) 3 31 := by decide
theorem witness_pins :
    (let c := Config.panelP1; c.rs.isSome && c.en.isSome && c.d4.isSome && c.d5.isSome && c.d6.isSome &&
      c.d7.isSome) = true ∧
    (([none, none, none, none] : List (Option LineId)).filter Option.isSome).length = 0 ∧
    (([some 1, some 2, some 3, some 4] : List (Option LineId)).filter Option.isSome).length = 4 ∧
    (([some 1, none, none, none] : List (Option LineId)).filter Option.isSome).length = 1 ∧
    (([some 1, some 2, some 3, none] : List (Option LineId)).filter Option.isSome).length = 3 ∧
    ({ input8 with d7 := none }.d7.isSome) = false := by decide
theorem witness_bad_pins : buildAdmitted off.build = true ∧ wiringOf off.build = some .discrete ∧
    resolvePins {} = .error .missingPins ∧
    resolvePins (input (some 1) none none none) = .error .partialLowNibble ∧
    ∃ t, exec (.start {}) off = .next t ∧ t.replies = off.replies ++ [.configurationError .missingPins] :=
  ⟨by decide, rfl, rfl, rfl, _, rfl, rfl⟩
theorem witness_domain : buildAdmitted off.build = true ∧ wiringOf off.build = some .discrete ∧
    (∀ rows cols, resolvePins { Config.panelP1 with rows := rows, cols := cols } =
      .ok (25, 24, .four 23 17 27 22)) ∧
    (0 : Int) < 1 ∧ (4 : Int) < 5 ∧ (64 : Int) < 65 ∧ ((2 : Int) < 3 ∧ (32 : Int) < 33) ∧
    ¬ ([25, 24, 25, 17, 27, 22] : List LineId).Nodup :=
  ⟨by decide, rfl, fun _ _ => rfl, by decide, by decide, by decide, by decide, by decide⟩
/-- The corners of the domain of R23, and the first values past them. -/
theorem witness_inside_domain :
    (∀ g ∈ [(1, 1), (1, 64), (2, 64), (3, 1), (3, 32), (4, 32)],
      DomainMeetsTheSpec g.1 g.2 [25, 24, 23, 17, 27, 22]) ∧
    ∀ g ∈ [(0, 1), (1, 0), (1, 65), (2, 65), (3, 33), (4, 33), (5, 1)],
      ¬ DomainMeetsTheSpec g.1 g.2 [25, 24, 23, 17, 27, 22] := by decide
/-- Both wirings meet the third clause on an admitted and on a refused configuration. -/
theorem witness_admitted :
    [(2, 16), (2, 65)].map (fun g : Int × Int => (DisplayConfig.ofInput
      { Config.panelP1 with rows := g.1, cols := g.2 } (25, 24, .four 23 17 27 22) (.combined port)).admitted) =
      [true, false] ∧
    (DisplayConfig.ofInput Config.panelP1 (25, 24, .four 23 17 27 22) (.combined port)).wiringAdmitted = true := by
  decide
/-- The bytes of R87, by the bus mode, the rows and the font of an input; an absent font flag is false. -/
theorem witness_function_set_value :
    [(1, none, BusMode.four), (2, some false, .four), (1, some true, .four), (4, none, .eight)].map
      (fun x : Int × Option Bool × BusMode => functionSetValue Codes.default
        { Config.panelP1 with rows := x.1, font5x10 := x.2.1 } x.2.2) = [0x20, 0x28, 0x24, 0x38] := by decide
theorem witness_start_4bit : buildAdmitted off.build = true ∧ wiringOf off.build = some .discrete ∧
    resolvePins Config.panelP1 = .ok (25, 24, .four 23 17 27 22) ∧
    (DisplayConfig.ofInput Config.panelP1 (25, 24, .four 23 17 27 22) .discrete).admitted = true ∧
    (DisplayConfig.ofInput Config.panelP1 (25, 24, .four 23 17 27 22) .discrete).busMode = .four ∧
    BusQuiet off ∧ off.build.codes = Codes.default ∧ off.build.timing = Timing.default :=
  ⟨by decide, rfl, rfl, by decide, rfl, off_quiet, rfl, rfl⟩
theorem witness_start_combined : buildAdmitted offC.build = true ∧
    wiringOf offC.build = some (.combined port) ∧
    (DisplayConfig.ofInput Config.panelP1 (25, 24, .four 23 17 27 22) (.combined port)).admitted = true ∧
    BusQuiet offC := ⟨by decide, rfl, by decide, offC_quiet⟩
theorem witness_start_8bit : resolvePins input8 = .ok (25, 24, .eight 1 2 3 4 23 17 27 22) ∧
    (DisplayConfig.ofInput input8 (25, 24, .eight 1 2 3 4 23 17 27 22) .discrete).admitted = true ∧
    (DisplayConfig.ofInput input8 (25, 24, .eight 1 2 3 4 23 17 27 22) .discrete).busMode = .eight := by
  decide
/-- EN last written 0, and last written 1 by a call that failed; in the second case a `start` succeeds and its
8-bit trace opens with the one transfer more, of which the data lines are unknown. -/
theorem witness_start_up :
    (off.replayStart (DisplayConfig.ofInput input8 (25, 24, .eight 1 2 3 4 23 17 27 22) .discrete)).up = false ∧
    (let c := DisplayConfig.ofInput input8 (25, 24, .eight 1 2 3 4 23 17 27 22) .discrete
     let s := { off with trace := [.line 24 true, .fail] }
     (s.replayStart c).up = true ∧
     (after (.start input8) s).map (fun t =>
       (shown (transferTrace c 0 (s.replayStart c) (t.trace.drop 2))).take 3) =
       some [.xfer none, .wait .tReset, irXfer 0x38]) := by decide +kernel
theorem witness_restart : live4.build = off.build ∧ BusQuiet off ∧ BusQuiet live4 ∧
    ∃ t, exec (.start Config.panelP1) off = .next t ∧ (t.phase == .ready) = true :=
  ⟨rfl, off_quiet, live4_quiet, exists_next (by decide +kernel)⟩

/-- The phases of the emitted bytes, on a display and a quiet bus. -/
theorem witness_emission_phases (p : Phase) : { live4 with phase := p }.display = some d4 ∧
    d4.cfg.admitted = true ∧ BusQuiet { live4 with phase := p } ∧
    (∃ f ∈ live4.build.features, f.2.owner = .entryMode) := by
  refine ⟨rfl, by decide, live4_quiet, by decide⟩
/-- A feature owned by the function-set register, which opens the byte in `Ready`. -/
theorem witness_function_set_feature :
    ∃ f ∈ [("two lines", (⟨.functionSet, 0x08⟩ : Feature))], f.2.owner = Shadow.functionSet := by decide
theorem witness_force_nibbles : d4.cfg.busMode = .four ∧
    { live4 with phase := .forceMode }.view.level d4.cfg d4.cfg.rs = some false ∧
    d8.cfg.busMode = .eight ∧ d8.cfg.admitted = true := by decide
theorem witness_emitted_byte : encode (.irDisplayControl true true true) = .emitted (.ir8 0x0F) ∧
    live4.build.codes = Codes.default ∧ ∃ t, exec (.irDisplayControl true true true) live4 = .next t :=
  ⟨by decide, by decide, _, rfl⟩
theorem witness_elsewhere : encode .irClear = .emitted (.ir8 0x01) ∧ ¬ EmittedIn off .irClear ∧
    encode .forceNibble8bit = .emitted (.nib4 0x3) ∧ ¬ EmittedIn live4 .forceNibble8bit ∧
    encode (.irEntryMode true false) = .emitted (.ir8 0x06) ∧
    ¬ EmittedIn { live4 with build := { build with features := [] } } (.irEntryMode true false) ∧
    off.phase = .off ∧ { live4 with phase := .reset }.phase = .reset :=
  ⟨rfl, by simp [EmittedIn, off, State.reset], rfl, by simp [EmittedIn, live4], by decide,
    by simp [EmittedIn, live4], rfl, rfl⟩
theorem parameters_met : ParametersMeetTheSpec build :=
  ⟨⟨by decide, by decide, by decide, by decide, by decide, by decide⟩, by decide, by decide, by decide⟩
/-- Parameters that meet their constraints, and parameters one step outside each: `T_EN = 0`, the other
minima, overlapping flags, a flag and a feature mask on a leading zero of their code, a zero mask, a feature on
the interface bit, an initial byte with a bit outside its flags moved. -/
theorem witness_parameters : ParametersMeetTheSpec build ∧
    ¬ ParametersMeetTheSpec { build with timing := { Timing.default with tEn := 0 } } ∧
    ¬ ParametersMeetTheSpec { build with timing := { Timing.default with tForce := 4 } } ∧
    ¬ ParametersMeetTheSpec { build with timing := { Timing.default with tClear := 19 } } ∧
    ¬ ParametersMeetTheSpec { build with timing := { Timing.default with tReset := 49 } } ∧
    ¬ ParametersMeetTheSpec { build with codes := { Codes.default with dcCursor := 0x04 } } ∧
    ¬ ParametersMeetTheSpec { build with codes := { Codes.default with csRight := 0x20 } } ∧
    ¬ ParametersMeetTheSpec { build with features := [("x", ⟨.entryMode, 0x00⟩)] } ∧
    ¬ ParametersMeetTheSpec { build with features := [("x", ⟨.displayControl, 0x80⟩)] } ∧
    ¬ ParametersMeetTheSpec { build with features := [("x", ⟨.functionSet, 0x10⟩)] } ∧
    ¬ ParametersMeetTheSpec { build with codes := { Codes.default with entryModeInit := 0x84 } } ∧
    ¬ ParametersMeetTheSpec { build with codes := { Codes.default with shiftControlInit := 0x33 } } :=
  ⟨parameters_met, fun h => absurd h.2.1.1 (by decide), fun h => absurd h.2.1.2.1 (by decide),
    fun h => absurd h.2.1.2.2.1 (by decide), fun h => absurd h.2.1.2.2.2 (by decide),
    fun h => absurd h.1.2.1 (by decide), fun h => absurd h.1.2.2.1 (by decide),
    fun h => absurd h.2.2.1 (by decide), fun h => absurd h.2.2.1 (by decide),
    fun h => absurd h.2.2.2 (by decide), fun h => absurd h.1.2.2.2.2.1 (by decide),
    fun h => absurd h.1.2.2.2.2.2 (by decide)⟩
/-- The combined transport without its parameters, with good ones, with two lines on one bit, with the
backlight on the bit of rs, and with two backlight bits. -/
theorem witness_bad_wiring :
    { build with transport := .combined }.combined = none ∧ ParametersMeetTheSpec offC.build ∧
    offC.build.transport = .combined ∧ offC.build.combined = some port ∧
    (DisplayConfig.ofInput Config.panelP1 (25, 24, .four 23 17 27 22) (.combined port)).inDomain = true ∧
    WiringMeetsTheSpec port [25, 24, 23, 17, 27, 22] ∧
    ¬ WiringMeetsTheSpec { port with bitposTable := [] } [25, 24, 23, 17, 27, 22] ∧
    ¬ WiringMeetsTheSpec { port with backlightMask := 0x01 } [25, 24, 23, 17, 27, 22] ∧
    ¬ WiringMeetsTheSpec { port with backlightMask := 0x88 } [25, 24, 23, 17, 27, 22] :=
  ⟨rfl, parameters_met, rfl, rfl, by decide, by decide, by decide, by decide, by decide⟩
theorem witness_wiring : d4.cfg.wiring = .discrete ∧ d4.cfg.data = .four 23 17 27 22 ∧
    d8.cfg.wiring = .discrete ∧ d8.cfg.data = .eight 0 1 2 3 4 5 6 7 := by decide
/-- Every emitted byte of the table in its place, and the default codes. -/
theorem witness_one_transfer : live4.build.codes = Codes.default ∧ EmittedIn live4 (.irCursorShift true true) ∧
    EmittedIn { live4 with phase := .configureFunction } (.irFunctionSet true true true) ∧
    EmittedIn live8 (.dataChar 0xFF) ∧ encode (.dataChar 0xFF) = .emitted (.dr8 .char 0xFF) ∧
    encode (.irFunctionSet true true true) = .emitted (.ir8 0x3C) ∧ encode .irHome = .emitted (.ir8 0x02) :=
  ⟨rfl, .inr rfl, .inl rfl, rfl, rfl, by decide, rfl⟩
theorem witness_cost : ∃ t ev, Instr.clear.isOperation = true ∧ exec .clear live4 = .next t ∧
    t.trace = live4.trace ++ ev := ⟨_, _, rfl, rfl, rfl⟩
theorem witness_last_transfer : ∃ t ev, exec (.write [[0x41]]) live4 = .next t ∧
    t.trace = live4.trace ++ ev ∧
    (((transferTrace d4.cfg 0 (live4.replay d4.cfg) ev).filter XferItem.isXfer).getLast? ==
      some (.xfer (some (true, 0x41)))) = true := exists_events rfl (by decide)
theorem witness_combined_operation : live4.display = some d4 ∧ d4.cfg.wiring = .discrete ∧
    liveC.display = some { d4 with cfg := { d4.cfg with wiring := .combined port } } ∧
    liveC.build.codes = live4.build.codes ∧ liveC.build.features = live4.build.features ∧
    liveC.build.charTable = live4.build.charTable ∧ liveC.build.lowcode = live4.build.lowcode ∧
    liveC.build = { live4.build with transport := .combined, combined := some port } ∧
    liveC.phase = live4.phase ∧ BusQuiet live4 ∧ BusQuiet liveC ∧
    (∃ t ev, exec .clear live4 = .next t ∧ t.trace = live4.trace ++ ev) ∧
    (∃ t ev, exec .stop live4 = .next t ∧ t.trace = live4.trace ++ ev) ∧
    (∃ t ev, exec .irHome live4 = .next t ∧ t.trace = live4.trace ++ ev) ∧
    ∃ t ev, exec .forceNibble4bit { live4 with phase := .forceMode } = .next t ∧ t.trace = live4.trace ++ ev :=
  ⟨rfl, rfl, rfl, rfl, rfl, rfl, rfl, rfl, rfl, live4_quiet, liveC_quiet,
    ⟨_, _, rfl, rfl⟩, ⟨_, _, rfl, rfl⟩, ⟨_, _, rfl, rfl⟩, _, _, rfl, rfl⟩
theorem witness_combined_start : off.build.transport = .discrete ∧
    offC.build = { off.build with transport := .combined, combined := some port } ∧
    resolvePins Config.panelP1 = .ok (25, 24, .four 23 17 27 22) ∧ BusQuiet off ∧ BusQuiet offC ∧
    (DisplayConfig.ofInput Config.panelP1 (25, 24, .four 23 17 27 22) (.combined port)).admitted = true ∧
    ∃ t ev, exec (.start Config.panelP1) off = .next t ∧ t.trace = off.trace ++ ev ∧ (ev != []) = true :=
  ⟨rfl, rfl, rfl, off_quiet, offC_quiet, by decide, exists_events rfl (by decide +kernel)⟩
theorem witness_two_modes : live8.build = live4.build ∧ d8.sh = d4.sh ∧ d8.cfg.rows = d4.cfg.rows ∧
    d8.cfg.cols = d4.cfg.cols ∧ d4.cfg.busMode ≠ d8.cfg.busMode := by decide
theorem witness_shadows : live4.build.codes = Codes.default ∧
    live4.build.features = Config.featuresDefault ∧ (∀ r, shadowOfByte (d4.sh.get r) = some r) ∧
    ∃ t ev, exec (.enable "cursor") live4 = .next t ∧ t.trace = live4.trace ++ ev :=
  ⟨rfl, rfl, fun r => by cases r <;> decide, _, _, rfl, rfl⟩
/-- The first and the last call of a request: 13 of `clear` and `stop`, 91 of a 4-bit `start`. -/
theorem witness_bus_error : ∃ t ev, exec .clear (quieted live4) = .next t ∧ t.trace = live4.trace ++ ev ∧
    (decide (0 < busCalls ev) && decide (12 < busCalls ev)) = true :=
  exists_events (s := quieted live4) rfl (by decide)
theorem witness_bus_error_combined : dC.cfg.wiring = .combined port ∧
    ∃ t ev, exec .clear (quieted liveC) = .next t ∧ t.trace = liveC.trace ++ ev ∧
      (decide (0 < busCalls ev) && decide (12 < busCalls ev)) = true :=
  ⟨rfl, exists_events (s := quieted liveC) rfl (by decide)⟩
theorem witness_bus_error_stop : ∃ t ev, exec .stop (quieted live4) = .next t ∧
    t.trace = live4.trace ++ ev ∧ (decide (0 < busCalls ev) && decide (12 < busCalls ev)) = true :=
  exists_events (s := quieted live4) rfl (by decide)
theorem witness_bus_error_start : ∃ t ev, exec (.start Config.panelP1) (quieted off) = .next t ∧
    t.trace = off.trace ++ ev ∧ (decide (0 < busCalls ev) && decide (90 < busCalls ev)) = true :=
  exists_events (s := quieted off) rfl (by decide +kernel)
theorem witness_bus_error_start_8bit : ∃ t ev, exec (.start input8) (quieted off) = .next t ∧
    t.trace = off.trace ++ ev ∧ (decide (0 < busCalls ev) && decide (78 < busCalls ev)) = true :=
  exists_events (s := quieted off) rfl (by decide +kernel)

/-- The result of a `start` whose call number `k`, from 0, fails. -/
def strikes (c : ConfigInput) (k : Nat) : Option (List Reply) :=
  (after (.start c) (failsAfter off k 7)).map (·.replies)

/-- The last call of each sequencer state and the first of the next one, by the counts of R118 and R242 to
R248: 4-bit mode. -/
theorem test_strike_boundaries_4bit :
    [1, 2, 25, 26, 38, 39, 51, 52, 64, 65, 77, 78, 90].map (strikes Config.panelP1) =
      [Phase.reset, .forceMode, .forceMode, .configureFunction, .configureFunction, .configureDisplay,
       .configureDisplay, .clear, .clear, .configureEntryMode, .configureEntryMode, .configureShiftControl,
       .configureShiftControl].map (fun p => some [.initializationError 7 p]) := by decide +kernel
/-- The same in 8-bit mode, where `ForceMode` makes no call. -/
theorem test_strike_boundaries_8bit :
    [1, 2, 34, 35, 45, 46, 56, 57, 67, 68, 78].map (strikes input8) =
      [Phase.reset, .configureFunction, .configureFunction, .configureDisplay, .configureDisplay, .clear,
       .clear, .configureEntryMode, .configureEntryMode, .configureShiftControl,
       .configureShiftControl].map (fun p => some [.initializationError 7 p]) := by decide +kernel

end Sys2Proof.Tests
end

section
/-!
PROOFS of the family 10_state: what `start` does is fixed by the build and its input (O43, and the second half of
O12), and nothing but `start` touches the configuration (the first half of O12).
-/

namespace Sys2Proof.Machine

/-! ## What `start` does depends on the build and the input alone -/

/-- Which of its three outcomes `start` takes (a refusal, a `ConfigurationError`, the sequencer on some
configuration) is the same in every state with the given build (R200). -/
theorem exec_start_fixed_by_build (b : Build) (ci : ConfigInput) :
    (∃ r, ∀ s : State, s.build = b → exec (.start ci) s = .refused r) ∨
    (∃ why, ∀ s : State, s.build = b → exec (.start ci) s = s.takeConfigurationError why) ∨
    (∃ c, ∀ s : State, s.build = b → exec (.start ci) s = runStart c s) := by
  cases hb : buildAdmitted b with
  | false => exact .inl ⟨.parametersNotAdmitted, fun s hs => by simp [exec, execStart, hs, hb]⟩
  | true =>
  cases hw : wiringOf b with
  | none => exact .inl ⟨.combinedWithoutParameters, fun s hs => by simp [exec, execStart, hs, hb, hw]⟩
  | some w =>
  cases hp : resolvePins ci with
  | error why => exact .inr (.inl ⟨why, fun s hs => by simp [exec, execStart, hs, hb, hw, hp]⟩)
  | ok p =>
  cases hd : (DisplayConfig.ofInput ci p w).inDomain with
  | false => exact .inl ⟨.configOutsideDomain, fun s hs => by simp [exec, execStart, hs, hb, hw, hp, hd]⟩
  | true =>
  cases ha : (DisplayConfig.ofInput ci p w).wiringAdmitted with
  | false =>
    exact .inl ⟨.combinedParametersNotAdmitted, fun s hs => by simp [exec, execStart, hs, hb, hw, hp, hd, ha]⟩
  | true =>
    exact .inr (.inr ⟨_, fun s hs => exec_start (hs ▸ hb) (hs ▸ hw) hp rfl
      (by simp [DisplayConfig.admitted, hd, ha])⟩)

/-- Settles O43: the outcome taken is the same from both states; a `ConfigurationError` adds no event, and the
sequencer's statements, events (from port image 0x00), shadow registers and phase are fixed by the build and
the configuration. -/
theorem nothingSurvivesARestart : Obligations.NothingSurvivesARestart := by
  intro ci s s' t hbuild hq hq' h
  rcases exec_start_fixed_by_build s.build ci with ⟨r, hx⟩ | ⟨why, hx⟩ | ⟨c, hx⟩
  · rw [hx s rfl] at h; cases h
  · rw [hx s rfl] at h; cases h
    exact ⟨_, [], .configurationError why, hx s' hbuild, by simp⟩
  · rw [hx s rfl, runStart_of_quiet hq] at h; cases h
    refine ⟨_, eventsOf c.wiring 0x00 (sequencer s.build.codes ⟨c, preload s.build.codes c⟩ sequencerStates),
      .ok, (hx s' hbuild).trans (runStart_of_quiet hq'), ?_⟩
    simp [applyStmts_display, applyStmts_phase, applyStmts_trace, hbuild]

/-! ## Nothing but `start` touches the configuration -/

/-- A DisplayState in `t` has the configuration of one in `s`; `t` may have none. -/
def KeepsConfig (s t : State) : Prop :=
  ∀ d', t.display = some d' → ∃ d, s.display = some d ∧ d'.cfg = d.cfg

theorem keepsConfig_of_display_eq {s t : State} (h : t.display = s.display) : KeepsConfig s t :=
  fun d' hd' => ⟨d', h ▸ hd', rfl⟩

/-- Statements write shadow registers only, never the configuration. -/
theorem keepsConfig_applyStmts (w : Wiring) (l : List Stmt) (s : State) :
    KeepsConfig s (applyStmts w l s) := by
  intro d' hd'
  rw [applyStmts_display] at hd'
  obtain ⟨d, hd, rfl⟩ := Option.map_eq_some_iff.mp hd'
  exact ⟨d, hd, rfl⟩

/-- Statements that run to their end or to a failing call keep the configuration, if what closes them does. -/
theorem Ended.keepsConfig {w : Wiring} {l : List Stmt} {s t : State} {good : State → State}
    {bad : BusErrorValue → State → State} (h : Ended w l s good bad t)
    (hg : ∀ x d, (good x).display = some d → x.display = some d)
    (hb : ∀ e x, (bad e x).display = x.display) : KeepsConfig s t := by
  intro d' hd'
  cases h with
  | done h => exact keepsConfig_applyStmts w l s d' (hg _ _ (h ▸ hd'))
  | failed l1 a v l2 e hl he h =>
    rw [h, hb, failedCall_display] at hd'
    exact keepsConfig_applyStmts w l1 s d' hd'

/-- An instruction other than `start` keeps the configuration (R20, R22). -/
theorem keepsConfig_of_exec {i : Instr} {s t : State} (hi : ∀ c, i ≠ .start c) (h : exec i s = .next t) :
    KeepsConfig s t := by
  cases exec_next h with
  | configError c why hc => exact absurd hc (hi c)
  | start c hc => exact absurd hc (hi c)
  | unsupported _ _ d hd hpl ht => exact keepsConfig_of_display_eq (by rw [ht, State.reply_display])
  | operation _ _ d hd ps hpl he => exact he.keepsConfig (fun _ _ hx => hx) (fun _ _ => rfl)
  | stop _ _ d hd he => exact he.keepsConfig (fun _ _ hx => by simp at hx) (fun _ _ => rfl)
  | emitByte ps _ _ d hd he => exact he.keepsConfig (fun _ _ hx => hx) (fun _ _ => rfl)
  | emitNibble v _ _ d hd d4 d5 d6 d7 hdl he => exact he.keepsConfig (fun _ _ hx => hx) (fun _ _ => rfl)

/-- Settles O12: by the effects of the other instructions, and for `start` by O43. -/
theorem onlyStartChangesTheConfiguration : Obligations.OnlyStartChangesTheConfiguration := by
  refine ⟨fun i s t d' hi h => keepsConfig_of_exec hi h d', fun c s s' t t' hbuild hq hq' h h' => ?_⟩
  obtain ⟨u, _, _, hu, hdisplay, _⟩ := nothingSurvivesARestart c s s' t hbuild hq hq' h
  cases hu.symm.trans h'
  exact hdisplay

end Sys2Proof.Machine
end

section
/-!
PROOFS of the family 30_encoding, request words (O3): the two fields of `{capability, op_tag}`, what a word of
each capability decodes to, and the unrecognised tags (R82).
-/

namespace Sys2Proof.Machine

/-! ## The fields of a request word -/

@[simp] theorem capabilityOf_append (c : BitVec 2) (t : BitVec 4) : capabilityOf (c ++ t) = c :=
  BitVec.extractLsb'_append_eq_left

@[simp] theorem opTagOf_append (c : BitVec 2) (t : BitVec 4) : opTagOf (c ++ t) = t :=
  BitVec.extractLsb'_append_eq_right

/-! ## The four capabilities -/

theorem decode_start (t : BitVec 4) (o : Operands) :
    decode (.request ⟨0b00#2 ++ t, o⟩) = .ok (.start o.config) := by
  simp [decode, decodeRequest]

theorem decode_stop (t : BitVec 4) (o : Operands) : decode (.request ⟨0b01#2 ++ t, o⟩) = .ok .stop := by
  simp [decode, decodeRequest]

theorem decode_execute (t : BitVec 4) (o : Operands) :
    decode (.request ⟨0b10#2 ++ t, o⟩) = .ok (operationOf t o) := by
  simp [decode, decodeRequest]

theorem decode_reserved (t : BitVec 4) (o : Operands) :
    decode (.request ⟨0b11#2 ++ t, o⟩) = .ok .reservedCapability := by
  simp [decode, decodeRequest]

/-! ## The unrecognised tags -/

theorem operationOf_101x (x : BitVec 1) (o : Operands) :
    operationOf (0b101#3 ++ x) o = .unrecognised101x x := by
  obtain rfl | rfl := x.eq_zero_or_eq_one
  · rfl
  · rfl

/-- From 1100 on, a tag keeps its two low bits and no operand (R82). -/
theorem operationOf_of_ge {t : BitVec 4} (h : 12 ≤ t.toNat) (o : Operands) :
    operationOf t o = .unrecognised11xx (t.extractLsb' 0 2) := by
  unfold operationOf
  split
  case h_13 => rfl
  all_goals omega

theorem operationOf_11xx (x : BitVec 2) (o : Operands) :
    operationOf (0b11#2 ++ x) o = .unrecognised11xx x := by
  have h : 12 ≤ (0b11#2 ++ x).toNat := by revert x; decide
  rw [operationOf_of_ge h, BitVec.extractLsb'_append_eq_right]

/-! ## What the unrecognised tags answer -/

/-- In Ready an instruction whose plan is `unsupported` replies so and changes nothing else (R174). -/
theorem exec_of_plan_unsupported {i : Instr} {s : State} {d : DisplayState} (hi : i.isOperation = true)
    (hp : s.phase = .ready) (hd : s.display = some d) (hpl : plan s.build d.sh d.cfg i = .unsupported) :
    exec i s = .next (s.reply .unsupported) := by
  rw [exec_operation hi hp hd, hpl]
  rfl

/-- Settles O3: a word splits into its capability and its tag; the ten Operations' tags are single words,
and both unrecognised tags have the plan `unsupported`. -/
theorem requestWordsDecodeByCapabilityAndTag : Obligations.RequestWordsDecodeByCapabilityAndTag := by
  intro o
  refine ⟨(decode_start · o), (decode_stop · o), ?clear, ?home, ?write, ?setCursor, ?scroll, ?moveLeft,
    ?moveRight, ?enable, ?disable, ?createChar, fun x => ?tag101x, fun x => ?tag11xx, (decode_reserved · o),
    fun s d hp hd => ⟨fun x => ?exec101x, fun x => ?exec11xx⟩, fun s => rfl⟩
  case tag101x => rw [decode_execute, operationOf_101x]
  case tag11xx => rw [decode_execute, operationOf_11xx]
  case exec101x => exact exec_of_plan_unsupported rfl hp hd rfl
  case exec11xx => exact exec_of_plan_unsupported rfl hp hd rfl
  all_goals exact decode_execute _ o

end Sys2Proof.Machine
end

section
/-!
PROOFS of the family 41_character_table (O30, O33): the code of a single-byte grapheme (R143, R146), and what
a grapheme without a code does to its text and its `write`.
-/

namespace Sys2Proof.Machine

/-! ## Single-byte graphemes -/

/-- A grapheme of one code point below 0x80 is one UTF-8 byte (R142). -/
theorem utf8Len_singleton {c : Nat} (hc : c < 0x80) : utf8Len [c] = 1 := by
  simp [utf8Len, scalarUtf8Len, hc]

/-- Settles O30: such a code point is one UTF-8 byte, and in the range the policy is not asked. -/
theorem asciiPassesThrough : Obligations.AsciiPassesThrough := by
  intro b c hlo hhi
  have hlen : utf8Len [c] = 1 := utf8Len_singleton (by omega)
  simp [mapGrapheme, hlen, hlo, hhi]

/-- Outside 0x20..0x7E a single-byte code point has the code of the build's policy (R146). -/
theorem mapGrapheme_lowcode (b : Build) {c : Nat} (hc : c ≤ 0x1F ∨ c = 0x7F) :
    mapGrapheme b [c] = lowcode b.lowcode c := by
  have hlen : utf8Len [c] = 1 := utf8Len_singleton (by omega)
  have hout : ¬ (0x20 ≤ c ∧ c ≤ 0x7E) := by omega
  simp [mapGrapheme, hlen, hout]

/-! ## A grapheme without a code -/

/-- A text has no codes once one of its graphemes has none (R145). -/
theorem mapText_eq_none_of_mem {b : Build} {g : Grapheme} {text : List Grapheme} (hg : g ∈ text)
    (hnone : mapGrapheme b g = none) : mapText b text = none := by
  induction hg with
  | head gs => simp [mapText, hnone]
  | tail g' _ ih => simp [mapText, ih]

/-- In Ready a `write` of a text without codes is refused (R146). -/
theorem exec_write_of_mapText_none {s : State} {d : DisplayState} {text : List Grapheme}
    (hp : s.phase = .ready) (hd : s.display = some d) (ht : IsText text) (hm : mapText s.build text = none) :
    exec (.write text) s = .refused .lowcodeGrapheme := by
  have hadm : textAdmitted text = true := (textAdmitted_iff text).mpr ht
  have hplan : plan s.build d.sh d.cfg (.write text) = .refuse := by simp [plan, hadm, hm]
  rw [exec_operation rfl hp hd, hplan]
  rfl

/-- Settles O33: the code is the policy's, and under `refuse` it is missing from the whole text. -/
theorem lowcodePolicies : Obligations.LowcodePolicies := by
  intro b c hc
  have hcode : mapGrapheme b [c] = lowcode b.lowcode c := mapGrapheme_lowcode b hc
  have hrefuse (h : b.lowcode = .refuse) : mapGrapheme b [c] = none := by rw [hcode, h]; rfl
  refine ⟨hrefuse, fun h => ?passthrough, fun h => ?fallback,
    fun s d text hb h hp hd ht hmem => ?refused⟩
  case passthrough => rw [hcode, h]; rfl
  case fallback => rw [hcode, h]; rfl
  case refused =>
    subst hb
    exact exec_write_of_mapText_none hp hd ht (mapText_eq_none_of_mem hmem (hrefuse h))

end Sys2Proof.Machine
end

section
/-!
PROOFS of the family 42_operations (O14, O24, O29, O34): the phase check of the Operations (R161), the requests
that touch nothing (R174, R175), and the RowOffsetTable (R166).
-/

namespace Sys2Proof.Machine

/-! ## The phase check -/

theorem inReady_of_not_ready {s : State} (k : DisplayState → Out) (hp : s.phase ≠ .ready) :
    s.inReady k = .refused (.operationOutsideReady s.phase) :=
  if_neg hp

/-- Every Operation and every unrecognised tag begins with the phase check (R161, R216). -/
theorem exec_operation_inReady {i : Instr} (hi : i.isOperation = true) (s : State) :
    ∃ k : DisplayState → Out, exec i s = s.inReady k := by
  cases i
  case clear | home | write | setCursor | scroll | moveLeft | moveRight | enable | disable | createChar
    | unrecognised101x | unrecognised11xx => exact ⟨_, rfl⟩
  all_goals exact absurd hi Bool.false_ne_true

/-- Settles O14: the Operations by the phase check they share, `stop` by its own. -/
theorem operationsAreRefusedOutsideReady : Obligations.OperationsAreRefusedOutsideReady := by
  refine ⟨fun i s hi hp => ?operation, fun s hp => ?stop⟩
  case operation =>
    obtain ⟨k, hk⟩ := exec_operation_inReady hi s
    rw [hk, inReady_of_not_ready k hp]
  case stop => exact if_neg hp

/-! ## Requests that touch nothing -/

/-- In Ready an instruction whose plan has no parts replies `ok` and changes nothing else, whatever the bus
would answer (R175). -/
theorem exec_of_plan_run_nil {i : Instr} {s : State} {d : DisplayState} (hi : i.isOperation = true)
    (hp : s.phase = .ready) (hd : s.display = some d) (hpl : plan s.build d.sh d.cfg i = .run []) :
    exec i s = .next (s.reply .ok) := by
  rw [exec_operation hi hp hd, hpl]
  rfl

/-- Settles O24: zero shift steps are a plan without parts, in either direction. -/
theorem zeroDeltaChangesNothing : Obligations.ZeroDeltaChangesNothing := by
  intro s d hp hd
  refine ⟨exec_of_plan_run_nil rfl hp hd ?scroll, exec_of_plan_run_nil rfl hp hd ?moveLeft,
    exec_of_plan_run_nil rfl hp hd ?moveRight⟩
  case scroll => simp [plan, shiftPieces]
  case moveLeft => simp [plan, shiftPieces]
  case moveRight => simp [plan, shiftPieces]

/-- Settles O29: both unrecognised tags have the plan `unsupported`. -/
theorem unrecognisedTagsAreUnsupported : Obligations.UnrecognisedTagsAreUnsupported :=
  fun _ _ hp hd => ⟨fun _ => exec_of_plan_unsupported rfl hp hd rfl,
    fun _ => exec_of_plan_unsupported rfl hp hd rfl⟩

/-! ## The RowOffsetTable -/

/-- Settles O34: each row selects its own branch of the table, whatever the number of columns. -/
theorem rowOffsetsAreTheTable : Obligations.RowOffsetsAreTheTable :=
  fun _ => ⟨rfl, rfl, rfl, rfl⟩

end Sys2Proof.Machine
end

section
/-!
PROOFS of the family 60_exceptions (O17): `unsupported` is the reply of one exit of `exec` alone, the one that
changes nothing (R214).
-/

namespace Sys2Proof.Machine

/-! ## The reply of a request that ran statements -/

/-- Statements add no reply, so a run adds the reply `r` only if what closes it does. -/
theorem Ended.replies_ne {w : Wiring} {l : List Stmt} {s t : State} {good : State → State}
    {bad : BusErrorValue → State → State} {r : Reply} (h : Ended w l s good bad t)
    (hg : ∀ x, (good x).replies ≠ x.replies ++ [r])
    (hb : ∀ e x, (bad e x).replies ≠ x.replies ++ [r]) : t.replies ≠ s.replies ++ [r] := by
  cases h with
  | done h => simpa [h] using hg (applyStmts w l s)
  | failed l1 a v l2 e hl he h => simpa [h] using hb e (failedCall w a v (applyStmts w l1 s))

theorem closeFaulted_replies (f : BusErrorValue → Phase → Reply) (e : BusErrorValue) (x : State) :
    (closeFaulted f e x).replies = x.replies ++ [f e x.phase] := rfl

/-! ## The one exit that replies `unsupported` -/

/-- A next state with the reply `unsupported` comes from an Operation in Ready whose plan is `unsupported`:
every other exit replies `ok`, an error, or nothing (R160, R214). -/
theorem exec_next_of_reply_unsupported {i : Instr} {s t : State} (h : exec i s = .next t)
    (hr : t.replies = s.replies ++ [.unsupported]) : s.phase = .ready ∧ t = s.reply .unsupported := by
  cases exec_next h with
  | unsupported _ hp d hd hpl ht => exact ⟨hp, ht⟩
  | configError c why hi hp ht => simp [ht] at hr
  | operation _ hp d hd ps hpl he =>
    exact absurd hr (he.replies_ne (by simp) (by simp [closeFaulted_replies]))
  | stop _ hp d hd he => exact absurd hr (he.replies_ne (by simp) (by simp [closeFaulted_replies]))
  | start ci _ hb w hw p hp c hc ha he =>
    exact absurd hr (he.replies_ne (by simp) (by simp [closeFaulted_replies]))
  | emitByte ps _ ha d hd he => exact absurd hr (he.replies_ne (by simp) (by simp))
  | emitNibble v _ hp d hd d4 d5 d6 d7 hdl he => exact absurd hr (he.replies_ne (by simp) (by simp))

/-- Settles O17: the one exit that replies `unsupported` adds the reply to a state in Ready. -/
theorem unsupportedChangesNothing : Obligations.UnsupportedChangesNothing := by
  intro i s t h hr
  obtain ⟨hp, rfl⟩ := exec_next_of_reply_unsupported h hr
  exact ⟨rfl, hp⟩

end Sys2Proof.Machine
end

section
/-!
PROOFS of the family "other", encoding (O1, O2, O4): the encoder and the decoder are inverse to each other, for
requests by capability and tag (R82), for emitted words row by row (R84, R85, R243).
-/

namespace Sys2Proof.Machine

/-! ## Decoding what was encoded -/

/-- An emitted instruction byte is told by its row, and its free bits are read back (R84). -/
theorem decodeIr8_of_encode {i : Instr} {b : Byte} (h : encode i = .emitted (.ir8 b)) : decodeIr8 b = .ok i := by
  cases i <;> simp only [encode, InstrWord.emitted.injEq, EmitWord.ir8.injEq, reduceCtorEq] at h <;> subst h
  case irClear => rfl
  case irHome => rfl
  case irEntryMode i s => revert i s; decide
  case irDisplayControl d c b => revert d c b; decide
  case irCursorShift m r => revert m r; decide
  case irFunctionSet w n f => revert w n f; decide
  case irSetCgram idx => revert idx; decide
  case irSetDdram a => revert a; decide

/-- Settles O1: requests by capability and tag, instruction bytes by `decodeIr8_of_encode`, data bytes and
nibbles directly. -/
theorem decodeOfEncodeGivesTheInstruction : Obligations.DecodeOfEncodeGivesTheInstruction := by
  intro i hwf
  clear hwf
  cases i
  case start config => exact decode_start 0 _
  case stop => exact decode_stop 0 _
  case unrecognised101x x =>
    have hw : 0b10101#5 ++ x = 0b10#2 ++ (0b101#3 ++ x) := by revert x; decide
    rw [encode, hw, decode_execute, operationOf_101x]
  case unrecognised11xx x =>
    have hw : 0b1011#4 ++ x = 0b10#2 ++ (0b11#2 ++ x) := by revert x; decide
    rw [encode, hw, decode_execute, operationOf_11xx]
  case reservedCapability => exact decode_reserved 0 _
  case clear => exact decode_execute 0b0000#4 _
  case home => exact decode_execute 0b0001#4 _
  case write => exact decode_execute 0b0010#4 _
  case setCursor => exact decode_execute 0b0011#4 _
  case scroll => exact decode_execute 0b0100#4 _
  case moveLeft => exact decode_execute 0b0101#4 _
  case moveRight => exact decode_execute 0b0110#4 _
  case enable => exact decode_execute 0b0111#4 _
  case disable => exact decode_execute 0b1000#4 _
  case createChar => exact decode_execute 0b1001#4 _
  case irClear | irHome | dataChar | dataBitmapRow | forceNibble8bit | forceNibble4bit => rfl
  all_goals exact decodeIr8_of_encode rfl

/-! ## Encoding what was decoded -/

/-- A byte that matches a row is the row's pattern with the byte's own bits in its free places: no bit of it
is ignored (R84). -/
theorem ir8_rows_ignore_no_bit (b : Byte) :
    (b &&& 0xFC = 0x04 → 0x04 ||| bitAt (b.getLsbD 1) 1 ||| bitAt (b.getLsbD 0) 0 = b) ∧
    (b &&& 0xF8 = 0x08 →
      0x08 ||| bitAt (b.getLsbD 2) 2 ||| bitAt (b.getLsbD 1) 1 ||| bitAt (b.getLsbD 0) 0 = b) ∧
    (b &&& 0xF3 = 0x10 → 0x10 ||| bitAt (b.getLsbD 3) 3 ||| bitAt (b.getLsbD 2) 2 = b) ∧
    (b &&& 0xE3 = 0x20 →
      0x20 ||| bitAt (b.getLsbD 4) 4 ||| bitAt (b.getLsbD 3) 3 ||| bitAt (b.getLsbD 2) 2 = b) ∧
    (b &&& 0xC7 = 0x40 → 0b01#2 ++ b.extractLsb' 3 3 ++ 0b000#3 = b) ∧
    (b &&& 0x80 = 0x80 → 0b1#1 ++ b.extractLsb' 0 7 = b) := by
  revert b; decide

theorem encode_of_decodeIr8 {b : Byte} {i : Instr} (h : decodeIr8 b = .ok i) : encode i = .emitted (.ir8 b) := by
  obtain ⟨hem, hdc, hcs, hfs, hcg, hdd⟩ := ir8_rows_ignore_no_bit b
  unfold decodeIr8 at h
  split at h
  case isTrue hb => cases h; rw [hb]; rfl
  split at h
  case isTrue hb => cases h; rw [hb]; rfl
  split at h
  case isTrue hb => cases h; rw [encode, hem hb]
  split at h
  case isTrue hb => cases h; rw [encode, hdc hb]
  split at h
  case isTrue hb => cases h; rw [encode, hcs hb]
  split at h
  case isTrue hb => cases h; rw [encode, hfs hb]
  split at h
  case isTrue hb => cases h; rw [encode, hcg hb]
  split at h
  case isTrue hb => cases h; rw [encode, hdd hb]
  case isFalse => cases h

theorem encode_of_decodeNib4 {v : Nibble} {i : Instr} (h : decodeNib4 v = .ok i) :
    encode i = .emitted (.nib4 v) := by
  unfold decodeNib4 at h
  split at h
  case isTrue hv => cases h; rw [hv]; rfl
  split at h
  case isTrue hv => cases h; rw [hv]; rfl
  case isFalse => cases h

/-- Settles O2: format by format; the two kinds of data byte are their own words. -/
theorem encodeOfDecodeGivesTheEmittedWord : Obligations.EncodeOfDecodeGivesTheEmittedWord := by
  intro e i h
  match e with
  | .ir8 b => exact encode_of_decodeIr8 h
  | .dr8 .char b => cases h; rfl
  | .dr8 .bitmapRow b => cases h; rfl
  | .nib4 v => exact encode_of_decodeNib4 h

/-- Settles O4: each word is closed, so the decoder computes its instruction. -/
theorem wordsWrittenOutDecode : Obligations.WordsWrittenOutDecode := by
  unfold Obligations.WordsWrittenOutDecode
  decide

end Sys2Proof.Machine
end

section
/-!
PROOFS of the family "other", whole-machine rules (O5, O7, O10, O11, O13, O15, O16, O18): what every instruction
keeps is said once (`exec_frame`), whether its bus calls succeed or fail; then the exits of the phases.
-/

namespace Sys2Proof.Machine

/-! ## Power-on -/

/-- Settles O18: every field of `State.reset` is written out. -/
theorem resetIsPowerOn : Obligations.ResetIsPowerOn := ⟨rfl, rfl, fun _ => rfl, rfl, rfl⟩

/-- Settles O7: power-on has no line level, and no DisplayState in phase `Off`. -/
theorem resetMeetsTheInvariant : Obligations.ResetMeetsTheInvariant where
  lines := List.Pairwise.nil
  off := ⟨fun _ => rfl, fun _ => rfl⟩
  live _ hd := nomatch hd

/-! ## One step -/

/-- Settles O5: a placed transfer is fetched before the inbox, and the word fetched is the one consumed. -/
theorem stepRunsTheDecodedInstruction : Obligations.StepRunsTheDecodedInstruction := by
  refine ⟨fun s r rest i he hb hi => ?request, fun s e i he hi => ?emitted, fun s he hb => ?idle⟩
  case request => simp [step, State.fetch, State.consume, he, hb, hi]
  case emitted => simp [step, State.fetch, State.consume, he, hi]
  case idle => simp [step, State.fetch, he, hb]

@[simp] theorem State.consume_build (s : State) : s.consume.build = s.build := by
  unfold State.consume; split <;> rfl
@[simp] theorem State.consume_phase (s : State) : s.consume.phase = s.phase := by
  unfold State.consume; split <;> rfl
@[simp] theorem State.consume_display (s : State) : s.consume.display = s.display := by
  unfold State.consume; split <;> rfl
@[simp] theorem State.consume_lines (s : State) : s.consume.lines = s.lines := by
  unfold State.consume; split <;> rfl
@[simp] theorem State.consume_image (s : State) : s.consume.image = s.image := by
  unfold State.consume; split <;> rfl
@[simp] theorem State.consume_trace (s : State) : s.consume.trace = s.trace := by
  unfold State.consume; split <;> rfl
@[simp] theorem State.consume_replies (s : State) : s.consume.replies = s.replies := by
  unfold State.consume; split <;> rfl

/-! ## Statements, run to their end or to a failing call -/

/-- A `Line` event of statements names a line they drive. -/
theorem line_mem_eventsOf {w : Wiring} {image : Byte} {l : List Stmt} {a : LineId} {v : Bool}
    (h : Event.line a v ∈ eventsOf w image l) : a ∈ drivenLines l := by
  induction l generalizing image with
  | nil => cases h
  | cons st l ih =>
    cases st with
    | line b u =>
      cases w with
      | discrete =>
        simp only [eventsOf, List.mem_cons, Event.line.injEq] at h
        rcases h with ⟨rfl, _⟩ | h
        · exact List.mem_cons_self
        · exact List.mem_cons_of_mem _ (ih h)
      | combined p =>
        simp only [eventsOf, List.mem_cons, reduceCtorEq, false_or] at h
        exact List.mem_cons_of_mem _ (ih h)
    | wait t =>
      simp only [eventsOf, List.mem_cons, reduceCtorEq, false_or] at h
      exact ih h
    | assign r u => exact ih h
    | phase p => exact ih h

/-- A state reached while the statements `l` run from `s`, whatever calls fail: what it keeps. -/
structure Reached (l : List Stmt) (s x : State) : Prop where
  build : x.build = s.build
  inbox : x.inbox = s.inbox
  replies : x.replies = s.replies
  trace : ∃ ev, x.trace = s.trace ++ ev ∧ ∀ a v, Event.line a v ∈ ev → a ∈ drivenLines l
  wf : s.lines.wf → x.lines.wf
  lines : ∀ a, a ∉ drivenLines l → x.lines.read a = s.lines.read a
  display : ∃ l1, l1 <+: l ∧ x.display = s.display.map (fun d => { d with sh := shadowsAfter l1 d.sh })

theorem reached_applyStmts (w : Wiring) (l : List Stmt) (s : State) : Reached l s (applyStmts w l s) where
  build := by simp
  inbox := by simp
  replies := by simp
  trace := ⟨_, applyStmts_trace w l s, fun _ _ => line_mem_eventsOf⟩
  wf := applyStmts_lines_wf w l s
  lines _ := applyStmts_lines_read w l s
  display := ⟨l, List.prefix_refl l, applyStmts_display w l s⟩

theorem reached_failedCall (w : Wiring) (l1 l2 : List Stmt) (a : LineId) (v : Bool) (s : State) :
    Reached (l1 ++ .line a v :: l2) s (failedCall w a v (applyStmts w l1 s)) where
  build := by simp
  inbox := by simp
  replies := by simp
  trace := by
    refine ⟨eventsOf w s.image (l1 ++ [.line a v]) ++ [.fail],
      by rw [failedCall_applyStmts_trace, List.append_assoc], fun b u hb => ?_⟩
    have hm : b ∈ drivenLines (l1 ++ [.line a v]) := line_mem_eventsOf (by simpa using hb)
    simp only [drivenLines_append, drivenLines, List.mem_append, List.mem_cons] at hm ⊢
    tauto
  wf h := failedCall_lines_wf w _ (applyStmts_lines_wf w l1 s h)
  lines b hb := by
    simp only [drivenLines_append, drivenLines, List.mem_append, List.mem_cons, not_or] at hb
    rw [failedCall_lines_read w _ hb.2.1, applyStmts_lines_read w l1 s hb.1]
  display := ⟨l1, List.prefix_append _ _, applyStmts_display w l1 s⟩

/-- How a run ended: `good` closed the whole run, or `bad` closed a run whose last event is `Fail`. -/
theorem Ended.reached {w : Wiring} {l : List Stmt} {s t : State} {good : State → State}
    {bad : BusErrorValue → State → State} (h : Ended w l s good bad t) :
    t = good (applyStmts w l s) ∨
      ∃ e x, Reached l s x ∧ x.trace.getLast? = some .fail ∧ t = bad e x := by
  cases h with
  | done h => exact .inl h
  | failed l1 a v l2 e hl he h =>
    subst hl
    exact .inr ⟨e, _, reached_failedCall w l1 l2 a v s, by simp, h⟩

/-! ## What every instruction keeps -/

/-- The display an instruction drives: a `start` the one it makes, any other the one it finds. -/
abbrev Drives (i : Instr) (s t : State) (d : DisplayState) : Prop :=
  match i with | .start _ => t.display = some d | _ => s.display = some d

/-- The frame of an instruction that answers `t` from `s`. -/
structure Frame (i : Instr) (s t : State) : Prop where
  build : t.build = s.build
  inbox : t.inbox = s.inbox
  replies : ∃ rs, t.replies = s.replies ++ rs ∧ (i.isRequest = true → ∃ r, rs = [r])
  trace : ∃ ev, t.trace = s.trace ++ ev ∧
    ∀ d, Drives i s t d → ∀ a v, Event.line a v ∈ ev → a ∈ d.cfg.lineIds
  wf : s.lines.wf → t.lines.wf
  lines : ∀ d, Drives i s t d → ∀ a, a ∉ d.cfg.lineIds → t.lines.read a = s.lines.read a

/-- Two states with the same build, inbox, trace and lines: what the closings of a request keep. -/
structure SameOutputs (s t : State) : Prop where
  build : t.build = s.build
  inbox : t.inbox = s.inbox
  trace : t.trace = s.trace
  lines : t.lines = s.lines

/-- An instruction that touches nothing but the phase, the display and the replies. -/
theorem frame_of_same {i : Instr} {s t : State} (h : SameOutputs s t) {r : Reply}
    (hr : t.replies = s.replies ++ [r]) : Frame i s t where
  build := h.build
  inbox := h.inbox
  replies := ⟨[r], hr, fun _ => ⟨r, rfl⟩⟩
  trace := ⟨[], by simp [h.trace], fun _ _ _ _ hm => nomatch hm⟩
  wf hw := h.lines ▸ hw
  lines _ _ _ _ := by rw [h.lines]

/-- Statements on the lines of the display an instruction drives, and a closing. -/
theorem frame_of_reached {i : Instr} {l : List Stmt} {s s0 x t : State} (hs : SameOutputs s s0)
    (hr0 : s0.replies = s.replies) (hx : Reached l s0 x) (ht : SameOutputs x t)
    (hr : ∃ rs, t.replies = x.replies ++ rs ∧ (i.isRequest = true → ∃ r, rs = [r]))
    (hl : ∀ d, Drives i s t d → ∀ a ∈ drivenLines l, a ∈ d.cfg.lineIds) : Frame i s t where
  build := by rw [ht.build, hx.build, hs.build]
  inbox := by rw [ht.inbox, hx.inbox, hs.inbox]
  replies := by
    obtain ⟨rs, h, h1⟩ := hr
    exact ⟨rs, by rw [h, hx.replies, hr0], h1⟩
  trace := by
    obtain ⟨ev, h, hm⟩ := hx.trace
    exact ⟨ev, by rw [ht.trace, h, hs.trace], fun d hd a v ha => hl d hd a (hm a v ha)⟩
  wf h := by rw [ht.lines]; exact hx.wf (by rw [hs.lines]; exact h)
  lines d hd a ha := by rw [ht.lines, hx.lines a fun hm => ha (hl d hd a hm), hs.lines]

/-- Every run keeps what its two closings keep. -/
theorem Ended.frame {i : Instr} {w : Wiring} {l : List Stmt} {s s0 t : State} {good : State → State}
    {bad : BusErrorValue → State → State} (h : Ended w l s0 good bad t) (hs : SameOutputs s s0)
    (hr0 : s0.replies = s.replies) (hg : ∀ x, SameOutputs x (good x)) (hb : ∀ e x, SameOutputs x (bad e x))
    (hgr : ∀ x, ∃ rs, (good x).replies = x.replies ++ rs ∧ (i.isRequest = true → ∃ r, rs = [r]))
    (hbr : ∀ e x, ∃ rs, (bad e x).replies = x.replies ++ rs ∧ (i.isRequest = true → ∃ r, rs = [r]))
    (hl : ∀ d, Drives i s t d → ∀ a ∈ drivenLines l, a ∈ d.cfg.lineIds) : Frame i s t := by
  rcases h.reached with rfl | ⟨e, x, hx, _, rfl⟩
  · exact frame_of_reached hs hr0 (reached_applyStmts w l s0) (hg _) (hgr _) hl
  · exact frame_of_reached hs hr0 hx (hb e x) (hbr e x) hl

theorem SameOutputs.refl (s : State) : SameOutputs s s := ⟨rfl, rfl, rfl, rfl⟩

theorem sameOutputs_reply (s : State) (r : Reply) : SameOutputs s (s.reply r) := ⟨rfl, rfl, rfl, rfl⟩

theorem sameOutputs_closeFaulted (f : BusErrorValue → Phase → Reply) (e : BusErrorValue) (s : State) :
    SameOutputs s (closeFaulted f e s) := ⟨rfl, rfl, rfl, rfl⟩

theorem emitPieces_request {b : Build} {i : Instr} {ps : List Piece} (h : emitPieces b i = some ps) :
    i.isRequest = false ∧ ∀ c, i ≠ .start c := by
  cases i <;> simp_all [emitPieces, Instr.isRequest, Instr.isOperation]

theorem emitNibble_request {b : Build} {i : Instr} {v : Byte} (h : emitNibble b i = some v) :
    i.isRequest = false ∧ ∀ c, i ≠ .start c := by
  cases i <;> simp_all [emitNibble, Instr.isRequest, Instr.isOperation]

theorem Drives.display {i : Instr} {s t : State} {d : DisplayState} (h : Drives i s t d)
    (hi : ∀ c, i ≠ .start c) : s.display = some d := by
  cases i
  case start c => exact absurd rfl (hi c)
  all_goals exact h

theorem Instr.ne_start_of_isOperation {i : Instr} (h : i.isOperation = true) (c : ConfigInput) :
    i ≠ .start c := by
  rintro rfl; cases h

/-- WHAT EVERY INSTRUCTION KEEPS, whether its bus calls succeed or fail. -/
theorem exec_frame {i : Instr} {s t : State} (h : exec i s = .next t) : Frame i s t := by
  have reply (r : Reply) (x : State) : ∃ rs, (x.reply r).replies = x.replies ++ rs ∧
      (i.isRequest = true → ∃ r, rs = [r]) := ⟨[r], rfl, fun _ => ⟨r, rfl⟩⟩
  have silent (hi : i.isRequest = false) (x : State) : ∃ rs, x.replies = x.replies ++ rs ∧
      (i.isRequest = true → ∃ r, rs = [r]) := ⟨[], by simp, fun h => by rw [hi] at h; cases h⟩
  have lines {d : DisplayState} (hi : ∀ c, i ≠ .start c) (hd : s.display = some d) {l : List Stmt}
      (hl : ∀ a ∈ drivenLines l, a ∈ d.cfg.lineIds) :
      ∀ d', Drives i s t d' → ∀ a ∈ drivenLines l, a ∈ d'.cfg.lineIds := by
    intro d' hd'
    rw [hd'.display hi, Option.some.injEq] at hd
    rwa [hd]
  cases exec_next h with
  | configError c why hi hp ht => subst ht; exact frame_of_same ⟨rfl, rfl, rfl, rfl⟩ rfl
  | unsupported hi hp d hd hpl ht => subst ht; exact frame_of_same (sameOutputs_reply s _) rfl
  | operation hi hp d hd ps hpl he =>
    exact he.frame (.refl s) rfl (sameOutputs_reply · _) (sameOutputs_closeFaulted _) (reply _)
      (fun e x => reply _ (x.setPhase .faulted))
      (lines (Instr.ne_start_of_isOperation hi) hd (drivenLines_expand _ _))
  | stop hi hp d hd he =>
    exact he.frame (.refl s) rfl (fun x => ⟨rfl, rfl, rfl, rfl⟩) (sameOutputs_closeFaulted _)
      (fun x => reply _ x.release) (fun e x => reply _ (x.setPhase .faulted))
      (lines (by simp [hi]) hd (drivenLines_shadowed _ _ _))
  | start ci hi hb w hw p hp c hc ha he =>
    refine he.frame ⟨rfl, rfl, rfl, rfl⟩ rfl (sameOutputs_reply · _) (sameOutputs_closeFaulted _) (reply _)
      (fun e x => reply _ (x.setPhase .faulted)) fun d hd a ha' => ?_
    subst hi
    obtain ⟨d0, hd0, hcfg⟩ := he.keepsConfig (fun _ _ hx => hx) (fun _ _ => rfl) d hd
    simp only [State.beginStart_display, Option.some.injEq] at hd0
    subst hd0
    rw [hcfg]
    exact drivenLines_sequencer _ _ _ a ha'
  | emitByte ps hi ha d hd he =>
    obtain ⟨hreq, hns⟩ := emitPieces_request hi
    exact he.frame (.refl s) rfl SameOutputs.refl (fun _ x => ⟨rfl, rfl, rfl, rfl⟩) (silent hreq)
      (fun _ x => silent hreq x) (lines hns hd (drivenLines_expand _ _))
  | emitNibble v hi hp d hd d4 d5 d6 d7 hdl he =>
    obtain ⟨hreq, hns⟩ := emitNibble_request hi
    exact he.frame (.refl s) rfl SameOutputs.refl (fun _ x => ⟨rfl, rfl, rfl, rfl⟩) (silent hreq)
      (fun _ x => silent hreq x) (lines hns hd (drivenLines_writeNibble hdl _))

/-- A host's word is a request, whatever its bits, or the reserved capability (R82). -/
theorem decodeRequest_isRequest (r : Request) :
    (decodeRequest r).isRequest = true ∨ decodeRequest r = .reservedCapability := by
  unfold decodeRequest
  split
  · exact .inl rfl
  · exact .inl rfl
  · unfold operationOf
    split <;> exact .inl rfl
  · exact .inr rfl

/-- Settles O10: the word taken is a request, whose frame has one reply more; the reserved capability has no
next state. -/
theorem eachServedRequestGivesOneReply : Obligations.EachServedRequestGivesOneReply := by
  intro s t r rest he hb hstep
  rw [stepRunsTheDecodedInstruction.1 s r rest _ he hb rfl] at hstep
  rcases decodeRequest_isRequest r with hr | hr
  · have hf := exec_frame hstep
    obtain ⟨rs, hrs, hone⟩ := hf.replies
    obtain ⟨x, rfl⟩ := hone hr
    exact ⟨⟨x, hrs⟩, hf.inbox⟩
  · rw [hr] at hstep; cases hstep

/-- Settles O11: an idle step changes nothing, and taking a word away none of the three. -/
theorem stepNeverRewritesOutputsOrParameters : Obligations.StepNeverRewritesOutputsOrParameters := by
  intro s t hstep
  rcases step_next hstep with rfl | ⟨iw, i, _, _, h⟩
  · exact ⟨⟨[], by simp⟩, ⟨[], by simp⟩, rfl⟩
  · have hf := exec_frame h
    obtain ⟨ev, hev, _⟩ := hf.trace
    obtain ⟨rs, hrs, _⟩ := hf.replies
    exact ⟨⟨ev, by simpa using hev⟩, ⟨rs, by simpa using hrs⟩, by simpa using hf.build⟩

/-- Settles O13: both halves are in the frame. -/
theorem onlyConfiguredLinesAreDriven : Obligations.OnlyConfiguredLinesAreDriven := by
  intro i s t d h hd
  have hf := exec_frame h
  obtain ⟨ev, hev, hlines⟩ := hf.trace
  exact ⟨fun a v ha => hlines d hd a v (by simpa [hev] using ha), hf.lines d hd⟩

/-! ## The exits of `Ready` and `Faulted` -/

/-- Settles O15: of the effects possible in Ready, a run that ended well keeps the phase (`stop` goes to Off)
and one that failed is Faulted with `Fail` last. -/
theorem readyIsLeftOnlyByStopFailureOrStart : Obligations.ReadyIsLeftOnlyByStopFailureOrStart := by
  intro i s t hready h
  cases exec_next h with
  | configError c why hi => exact .inr (.inr (.inr ⟨c, hi⟩))
  | start c hi => exact .inr (.inr (.inr ⟨c, hi⟩))
  | unsupported hi hp d hd hpl ht => exact .inl (by simp [ht, hp])
  | operation hi hp d hd ps hpl he =>
    rcases he.reached with rfl | ⟨e, x, _, hlast, rfl⟩
    · exact .inl (by simp [applyStmts_phase, phaseAfter_expand, hp])
    · exact .inr (.inr (.inl ⟨rfl, hlast⟩))
  | stop hi hp d hd he =>
    rcases he.reached with rfl | ⟨e, x, _, hlast, rfl⟩
    · exact .inr (.inl ⟨hi, rfl⟩)
    · exact .inr (.inr (.inl ⟨rfl, hlast⟩))
  | emitByte ps hi ha d hd he =>
    rcases he.reached with rfl | ⟨e, x, _, hlast, rfl⟩
    · exact .inl (by simp [applyStmts_phase, phaseAfter_expand, hready])
    · exact .inr (.inr (.inl ⟨rfl, hlast⟩))
  | emitNibble v hi hp => rw [hready] at hp; cases hp

/-- Settles O16: every other effect asks for a phase that is not Faulted. -/
theorem faultedIsLeftOnlyByStart : Obligations.FaultedIsLeftOnlyByStart := by
  intro i s t hfaulted h
  cases exec_next h with
  | configError c why hi => exact ⟨c, hi⟩
  | start c hi => exact ⟨c, hi⟩
  | unsupported hi hp => rw [hfaulted] at hp; cases hp
  | operation hi hp => rw [hfaulted] at hp; cases hp
  | stop hi hp => rw [hfaulted] at hp; cases hp
  | emitByte ps hi ha => exact absurd hfaulted (emitAllowed_phase ha).2.2.2
  | emitNibble v hi hp => rw [hfaulted] at hp; cases hp

end Sys2Proof.Machine
end

section
/-!
PROOFS of the family "other", the invariants of a step (O6, O8, O9): the fixed bits and the interface bit of the
shadow registers follow the bytes that statements assign, wherever a failing call stops them.
-/

namespace Sys2Proof.Machine

/-! ## What statements assign -/

/-- Every byte that statements assign to a shadow register has the property. -/
def AssignsOnly (P : Shadow → Byte → Prop) (l : List Stmt) : Prop := ∀ r v, Stmt.assign r v ∈ l → P r v

theorem shadowsAfter_forall {P : Shadow → Byte → Prop} {l : List Stmt} (hl : AssignsOnly P l) {sh : Shadows}
    (hsh : ∀ r, P r (sh.get r)) (r : Shadow) : P r ((shadowsAfter l sh).get r) := by
  induction l generalizing sh with
  | nil => exact hsh r
  | cons st l ih =>
    have hrest : AssignsOnly P l := fun q v hm => hl q v (List.mem_cons_of_mem _ hm)
    cases st with
    | assign q v =>
      refine ih hrest fun r' => ?_
      by_cases hr : r' = q
      · subst hr; rw [Shadows.get_set_self]; exact hl _ _ List.mem_cons_self
      · rw [Shadows.get_set_of_ne _ _ hr]; exact hsh r'
    | line a b => exact ih hrest hsh
    | wait t => exact ih hrest hsh
    | phase p => exact ih hrest hsh

/-- A display that statements leave, whatever calls fail, has the registers of the display they began with or
assigned ones. -/
theorem Reached.display_forall {P : Shadow → Byte → Prop} {l : List Stmt} {s x : State} {d d' : DisplayState}
    (h : Reached l s x) (hd : s.display = some d) (hl : AssignsOnly P l) (hsh : ∀ r, P r (d.sh.get r))
    (hd' : x.display = some d') : d'.cfg = d.cfg ∧ ∀ r, P r (d'.sh.get r) := by
  obtain ⟨l1, hl1, hx⟩ := h.display
  rw [hx, hd, Option.map_some, Option.some.injEq] at hd'
  subst hd'
  exact ⟨rfl, shadowsAfter_forall (fun r v hm => hl r v (hl1.subset hm)) hsh⟩

theorem Ended.display_forall {P : Shadow → Byte → Prop} {w : Wiring} {l : List Stmt} {s t : State}
    {good : State → State} {bad : BusErrorValue → State → State} {d d' : DisplayState}
    (h : Ended w l s good bad t) (hd : s.display = some d) (hl : AssignsOnly P l)
    (hsh : ∀ r, P r (d.sh.get r)) (hg : ∀ x, (good x).display = some d' → x.display = some d')
    (hb : ∀ e x, (bad e x).display = x.display) (hd' : t.display = some d') :
    d'.cfg = d.cfg ∧ ∀ r, P r (d'.sh.get r) := by
  rcases h.reached with rfl | ⟨e, x, hx, _, rfl⟩
  · exact (reached_applyStmts w l s).display_forall hd hl hsh (hg _ hd')
  · exact hx.display_forall hd hl hsh (by rw [← hb e x, hd'])

theorem assignsOnly_expand {P : Shadow → Byte → Prop} {c : DisplayConfig} {ps : List Piece}
    (h : ∀ r v, Piece.assign r v ∈ ps → P r v) : AssignsOnly P (expand c ps) := by
  induction ps with
  | nil => intro r v hm; cases hm
  | cons p ps ih =>
    intro r v hm
    rw [expand, List.mem_append] at hm
    rcases hm with hm | hm
    · cases p with
      | assign q u =>
        simp only [Piece.stmts, List.mem_singleton, Stmt.assign.injEq] at hm
        obtain ⟨rfl, rfl⟩ := hm
        exact h _ _ List.mem_cons_self
      | byte rs b => exact absurd hm ((onlyBus_writeByte c b rs).2 r v)
      | wait t => simp [Piece.stmts] at hm
    · exact ih (fun q u hq => h q u (List.mem_cons_of_mem _ hq)) r v hm

theorem assignsOnly_writeShadowed {P : Shadow → Byte → Prop} {d : DisplayState} {r : Shadow} {v : Byte}
    (h : P r v) : AssignsOnly P (writeShadowed d r v) := by
  rw [← expand_shadowed]
  refine assignsOnly_expand fun q u hm => ?_
  simp only [List.mem_cons, Piece.assign.injEq, reduceCtorEq, List.not_mem_nil, or_false] at hm
  obtain ⟨rfl, rfl⟩ := hm
  exact h

theorem assign_mem_shiftPieces {r : Shadow} {v u : Byte} {n : Nat}
    (h : Piece.assign r v ∈ shiftPieces u n) : r = .shiftControl ∧ v = u := by
  induction n with
  | zero => cases h
  | succ n ih =>
    simp only [shiftPieces, List.mem_cons, Piece.assign.injEq, reduceCtorEq, false_or] at h
    exact h.elim id ih

/-- A feature that is found is a row of the table. -/
theorem featureOf_mem {b : Build} {n : String} {f : Feature} (h : featureOf b n = some f) :
    (n, f) ∈ b.features := by
  obtain ⟨l1, l2, hl, _⟩ := List.lookup_eq_some_iff.mp h
  simp [hl]

/-- A byte an Operation assigns is a shift byte, or its register with a feature's flags set or cleared
(R170 to R172). -/
theorem assign_mem_plan {b : Build} {sh : Shadows} {c : DisplayConfig} {i : Instr} {ps : List Piece}
    {r : Shadow} {v : Byte} (hpl : plan b sh c i = .run ps) (h : Piece.assign r v ∈ ps) :
    (r = .shiftControl ∧ ∃ m q, v = b.codes.shiftByte m q) ∨
    ∃ n f, (n, f) ∈ b.features ∧ f.owner = r ∧
      (v = setFlags (sh.get r) f.mask ∨ v = clearFlags (sh.get r) f.mask) := by
  cases i <;> simp only [plan] at hpl
  case clear | home | setCursor => cases hpl; simp at h
  case write => obtain ⟨_, codes, _, rfl⟩ := plan_write_run (b := b) (sh := sh) (c := c) hpl; simp at h
  case scroll n =>
    cases hpl
    obtain ⟨hr, hv⟩ := assign_mem_shiftPieces h
    exact .inl ⟨hr, _, _, hv⟩
  case moveLeft n =>
    split at hpl <;> cases hpl
    obtain ⟨hr, hv⟩ := assign_mem_shiftPieces h
    exact .inl ⟨hr, _, _, hv⟩
  case moveRight n =>
    split at hpl <;> cases hpl
    obtain ⟨hr, hv⟩ := assign_mem_shiftPieces h
    exact .inl ⟨hr, _, _, hv⟩
  case enable n =>
    split at hpl <;> cases hpl
    rename_i f hf
    simp at h
    obtain ⟨rfl, rfl⟩ := h
    exact .inr ⟨n, f, featureOf_mem hf, rfl, .inl rfl⟩
  case disable n =>
    split at hpl <;> cases hpl
    rename_i f hf
    simp at h
    obtain ⟨rfl, rfl⟩ := h
    exact .inr ⟨n, f, featureOf_mem hf, rfl, .inr rfl⟩
  case createChar => split at hpl <;> cases hpl; simp at h
  all_goals cases hpl

/-- The sequencer assigns the display bit and nothing else (R245). -/
theorem assign_mem_sequencer {k : Codes} {d : DisplayState} {ps : List Phase} {r : Shadow} {v : Byte}
    (h : Stmt.assign r v ∈ sequencer k d ps) :
    r = .displayControl ∧ v = setFlags d.sh.displayControl k.dcDisplay := by
  induction ps with
  | nil => cases h
  | cons p ps ih =>
    simp only [sequencer, List.mem_append, List.mem_singleton, reduceCtorEq, or_false] at h
    rcases h with h | h
    · by_cases hp : p = .configureDisplay
      · subst hp
        exact assignsOnly_writeShadowed (P := fun r v => r = .displayControl ∧
          v = setFlags d.sh.displayControl k.dcDisplay) ⟨rfl, rfl⟩ r v h
      · exact absurd h ((onlyBus_initState k d p hp).2 r v)
    · exact ih h

/-! ## The fixed bits (R26 to R29) -/

/-- A byte that holds its register's code and nothing else outside the flags. -/
def HoldsFixed (k : Codes) (r : Shadow) (v : Byte) : Prop := v &&& ~~~(k.flagBits r) = k.identifier r

theorem buildAdmitted_codes {b : Build} (h : buildAdmitted b = true) : codesAdmitted b.codes = true := by
  simp only [buildAdmitted, Bool.and_eq_true] at h
  exact h.1.1

theorem feature_within {b : Build} (h : buildAdmitted b = true) {n : String} {f : Feature}
    (hf : (n, f) ∈ b.features) : maskWithin f.mask (b.codes.featureBits f.owner) = true := by
  simp only [buildAdmitted, featuresAdmitted, Bool.and_eq_true, List.all_eq_true] at h
  exact (h.2 _ hf).2

theorem holdsFixed_setFlags {k : Codes} {r : Shadow} {v m : Byte} (hm : maskWithin m (k.flagBits r) = true)
    (h : HoldsFixed k r v) : HoldsFixed k r (setFlags v m) := (setFlags_fixed hm).trans h

theorem holdsFixed_clearFlags {k : Codes} {r : Shadow} {v m : Byte} (hm : maskWithin m (k.flagBits r) = true)
    (h : HoldsFixed k r v) : HoldsFixed k r (clearFlags v m) := (clearFlags_fixed hm).trans h

theorem holdsFixed_plan {b : Build} {sh : Shadows} {c : DisplayConfig} {i : Instr} {ps : List Piece}
    (hb : buildAdmitted b = true) (hsh : FixedBitsHold b.codes sh) (hpl : plan b sh c i = .run ps) :
    AssignsOnly (HoldsFixed b.codes) (expand c ps) := by
  refine assignsOnly_expand fun r v hm => ?_
  rcases assign_mem_plan hpl hm with ⟨rfl, m, q, rfl⟩ | ⟨n, f, hf, rfl, hv⟩
  · exact (assembled_fixed (buildAdmitted_codes hb)).2.2.1 m q
  · have hw := maskWithin_flagBits (feature_within hb hf)
    rcases hv with rfl | rfl
    · exact holdsFixed_setFlags hw (hsh _)
    · exact holdsFixed_clearFlags hw (hsh _)

theorem holdsFixed_emitPieces {b : Build} {c : DisplayConfig} {i : Instr} {ps : List Piece}
    (hb : buildAdmitted b = true) (hi : emitPieces b i = some ps) :
    AssignsOnly (HoldsFixed b.codes) (expand c ps) := by
  obtain ⟨hem, hdc, hsc, hfs⟩ := assembled_fixed (buildAdmitted_codes hb)
  refine assignsOnly_expand fun r v hm => ?_
  cases i <;> simp only [emitPieces, Option.some.injEq, reduceCtorEq] at hi <;> subst hi <;>
    simp only [List.mem_cons, Piece.assign.injEq, reduceCtorEq, List.not_mem_nil, or_false] at hm <;>
    obtain ⟨rfl, rfl⟩ := hm
  case irEntryMode => exact hem _ _
  case irDisplayControl => exact hdc _ _ _
  case irCursorShift => exact hsc _ _
  case irFunctionSet => exact hfs _ _ _

theorem fixedBitsHold_preload {k : Codes} (h : codesAdmitted k = true) (c : DisplayConfig) :
    FixedBitsHold k (preload k c) := by
  have hinit := h
  simp only [codesAdmitted, Bool.and_eq_true, fixedBits, decide_eq_true_eq] at hinit
  intro r
  cases r
  case functionSet => exact (assembled_fixed h).2.2.2 _ _ _
  case displayControl => exact identifier_fixed h .displayControl
  case entryMode => exact hinit.1.2
  case shiftControl => exact hinit.2

theorem holdsFixed_sequencer {k : Codes} (h : codesAdmitted k = true) (c : DisplayConfig) (ps : List Phase) :
    AssignsOnly (HoldsFixed k) (sequencer k ⟨c, preload k c⟩ ps) := by
  intro r v hm
  obtain ⟨rfl, rfl⟩ := assign_mem_sequencer hm
  exact holdsFixed_setFlags (maskWithin_flags k).2.2.2.1 (fixedBitsHold_preload h c .displayControl)

/-! ## The invariant -/

/-- Statements leave a display where there was one. -/
theorem Reached.display_ne_none {l : List Stmt} {s x : State} {d : DisplayState} (h : Reached l s x)
    (hd : s.display = some d) : x.display ≠ none := by
  obtain ⟨l1, _, hx⟩ := h.display
  simp [hx, hd]

/-- Statements that end with a display in a phase other than Off. -/
theorem Ended.display_off {w : Wiring} {l : List Stmt} {s t : State} {good : State → State}
    {bad : BusErrorValue → State → State} {d : DisplayState} (h : Ended w l s good bad t)
    (hd : s.display = some d)
    (hg : (good (applyStmts w l s)).display ≠ none → (good (applyStmts w l s)).phase ≠ .off)
    (hgd : ∀ x, x.display ≠ none → (good x).display ≠ none)
    (hbd : ∀ e x, (bad e x).display = x.display) (hb : ∀ e x, (bad e x).phase = .faulted) :
    t.display = none ↔ t.phase = .off := by
  rcases h.reached with rfl | ⟨e, x, hx, _, rfl⟩
  · have hne := hgd _ ((reached_applyStmts w l s).display_ne_none hd)
    exact ⟨fun h => absurd h hne, fun h => absurd h (hg hne)⟩
  · exact ⟨fun h => absurd h (by rw [hbd]; exact hx.display_ne_none hd),
      fun h => by rw [hb] at h; cases h⟩

theorem exec_keeps_off {i : Instr} {s t : State} (hoff : s.display = none ↔ s.phase = .off)
    (h : exec i s = .next t) : t.display = none ↔ t.phase = .off := by
  have live {d : DisplayState} (hd : s.display = some d) : s.phase ≠ .off := fun hp => by
    rw [hoff.mpr hp] at hd; cases hd
  cases exec_next h with
  | configError c why hi hp ht => simp [ht]
  | unsupported hi hp d hd hpl ht => simp [ht, hd, hp]
  | operation hi hp d hd ps hpl he =>
    exact he.display_off hd (by simp [applyStmts_phase, phaseAfter_expand, hp]) (fun _ hx => hx)
      (fun _ _ => rfl) (fun _ _ => rfl)
  | stop hi hp d hd he =>
    rcases he.reached with rfl | ⟨e, x, hx, _, rfl⟩
    · simp
    · have := hx.display_ne_none hd
      simp [closeFaulted, this]
  | start ci hi hb w hw p hp c hc ha he =>
    exact he.display_off (State.beginStart_display s c) (by simp [applyStmts_phase, phaseAfter_sequencer])
      (fun _ hx => hx) (fun _ _ => rfl) (fun _ _ => rfl)
  | emitByte ps hi ha d hd he =>
    exact he.display_off hd (by simp [applyStmts_phase, phaseAfter_expand, live hd]) (fun _ hx => hx)
      (fun _ _ => rfl) (fun _ _ => rfl)
  | emitNibble v hi hp d hd d4 d5 d6 d7 hdl he =>
    exact he.display_off hd (by simp [applyStmts_phase, phaseAfter_writeNibble, live hd]) (fun _ hx => hx)
      (fun _ _ => rfl) (fun _ _ => rfl)

/-- The display an instruction leaves is admitted, and so are its build and the fixed bits of its registers. -/
theorem exec_keeps_live {i : Instr} {s t : State} (hs : ∀ d, s.display = some d →
      d.cfg.admitted = true ∧ buildAdmitted s.build = true ∧ FixedBitsHold s.build.codes d.sh)
    (h : exec i s = .next t) (d' : DisplayState) (hd' : t.display = some d') :
    d'.cfg.admitted = true ∧ buildAdmitted s.build = true ∧ FixedBitsHold s.build.codes d'.sh := by
  have onDisplay {w : Wiring} {l : List Stmt} {good : State → State} {bad : BusErrorValue → State → State}
      {d : DisplayState} (hd : s.display = some d) (he : Ended w l s good bad t)
      (hl : AssignsOnly (HoldsFixed s.build.codes) l)
      (hg : ∀ x, (good x).display = some d' → x.display = some d')
      (hb : ∀ e x, (bad e x).display = x.display) :
      d'.cfg.admitted = true ∧ buildAdmitted s.build = true ∧ FixedBitsHold s.build.codes d'.sh := by
    obtain ⟨ha, hb', hf⟩ := hs d hd
    obtain ⟨hcfg, hf'⟩ := he.display_forall hd hl hf hg hb hd'
    exact ⟨hcfg ▸ ha, hb', hf'⟩
  cases exec_next h with
  | configError c why hi hp ht => simp [ht] at hd'
  | unsupported hi hp d hd hpl ht => exact hs d' (by simpa [ht] using hd')
  | operation hi hp d hd ps hpl he =>
    obtain ⟨_, hb, hf⟩ := hs d hd
    exact onDisplay hd he (holdsFixed_plan hb hf hpl) (fun _ hx => hx) (fun _ _ => rfl)
  | stop hi hp d hd he =>
    obtain ⟨_, _, hf⟩ := hs d hd
    exact onDisplay hd he (assignsOnly_writeShadowed
      (holdsFixed_clearFlags (maskWithin_flags s.build.codes).2.2.2.1 (hf .displayControl)))
      (fun _ hx => by simp at hx) (fun _ _ => rfl)
  | start ci hi hb w hw p hp c hc ha he =>
    have hk := buildAdmitted_codes hb
    obtain ⟨hcfg, hf⟩ := he.display_forall (State.beginStart_display s c) (holdsFixed_sequencer hk c _)
      (fixedBitsHold_preload hk c) (fun _ hx => hx) (fun _ _ => rfl) hd'
    exact ⟨by rw [hcfg]; exact ha, hb, hf⟩
  | emitByte ps hi ha d hd he =>
    obtain ⟨_, hb, _⟩ := hs d hd
    exact onDisplay hd he (holdsFixed_emitPieces hb hi) (fun _ hx => hx) (fun _ _ => rfl)
  | emitNibble v hi hp d hd d4 d5 d6 d7 hdl he =>
    exact onDisplay hd he (by simp [AssignsOnly, writeNibble, dataBits, pulseEn]) (fun _ hx => hx)
      (fun _ _ => rfl)

/-- Settles O6: field by field; taking a word away touches none of them. -/
theorem stepKeepsTheInvariant : Obligations.StepKeepsTheInvariant := by
  intro s t hs hstep
  rcases step_next hstep with rfl | ⟨iw, i, _, _, h⟩
  · exact hs
  · have hf := exec_frame h
    refine ⟨hf.wf (by simpa using hs.lines), exec_keeps_off (by simpa using hs.off) h, fun d hd => ?_⟩
    rw [hf.build]
    exact exec_keeps_live (by simpa using hs.live) h d hd

/-! ## The interface bit (R27) -/

/-- A byte whose interface bit is `x`, if the register is the function-set register. -/
def HoldsInterface (k : Codes) (x : Byte) (r : Shadow) (v : Byte) : Prop :=
  r = .functionSet → v &&& k.fs8bit = x

/-- In an admitted build the interface flag shares no bit with the code or the other two flags. -/
theorem fs8bit_disjoint {k : Codes} (h : codesAdmitted k = true) :
    k.cmdFunctionSet &&& k.fs8bit = 0 ∧ k.fs2line &&& k.fs8bit = 0 ∧ k.fs5x10 &&& k.fs8bit = 0 := by
  have hid : disjointMasks (k.identifierMask .functionSet) k.fs8bit = true ∧
      disjointMasks k.fs8bit k.fs2line = true ∧ disjointMasks k.fs8bit k.fs5x10 = true := by
    simp only [codesAdmitted, pairwiseDisjoint, List.all_cons, List.all_nil, Bool.and_true,
      Bool.and_eq_true] at h
    tauto
  obtain ⟨h0, h1, h2⟩ := hid
  simp only [disjointMasks, decide_eq_true_eq] at h0 h1 h2
  refine ⟨?_, by rw [BitVec.and_comm]; exact h1, by rw [BitVec.and_comm]; exact h2⟩
  have hd : disjointMasks k.fs8bit (k.identifier .functionSet) = true :=
    disjoint_identifier (by rw [disjointMasks, BitVec.and_comm, h0]; rfl)
  rw [disjointMasks, decide_eq_true_eq, BitVec.and_comm] at hd
  exact hd

/-- A mask within the flags a feature may own leaves the interface bit alone (R27, log 12). -/
theorem featureMask_interface {k : Codes} (h : codesAdmitted k = true) {m : Byte}
    (hm : maskWithin m (k.featureBits .functionSet) = true) : m &&& k.fs8bit = 0 := by
  obtain ⟨_, h1, h2⟩ := fs8bit_disjoint h
  refine BitVec.eq_of_getLsbD_eq fun j hj => ?_
  have h1j : (k.fs2line &&& k.fs8bit).getLsbD j = false := by rw [h1]; exact BitVec.getLsbD_zero
  have h2j : (k.fs5x10 &&& k.fs8bit).getLsbD j = false := by rw [h2]; exact BitVec.getLsbD_zero
  rw [BitVec.getLsbD_and] at h1j h2j ⊢
  cases hmj : m.getLsbD j with
  | false => exact BitVec.getLsbD_zero.symm
  | true =>
    have hown : k.fs2line.getLsbD j = true ∨ k.fs5x10.getLsbD j = true := by
      simpa [Codes.featureBits] using (maskWithin_iff _ _).mp hm j hj hmj
    rcases hown with ho | ho
    · rw [ho] at h1j; exact h1j.trans BitVec.getLsbD_zero.symm
    · rw [ho] at h2j; exact h2j.trans BitVec.getLsbD_zero.symm

theorem setFlags_interface {v m fs x : Byte} (hm : m &&& fs = 0) (h : v &&& fs = x) :
    setFlags v m &&& fs = x := by
  rw [setFlags, BitVec.and_or_distrib_right, hm, h]; simp

theorem clearFlags_interface {v m fs x : Byte} (hm : m &&& fs = 0) (h : v &&& fs = x) :
    clearFlags v m &&& fs = x := by
  subst h
  refine BitVec.eq_of_getLsbD_eq fun j hj => ?_
  have hmj := congrArg (·.getLsbD j) hm
  simp only [clearFlags, BitVec.getLsbD_and, BitVec.getLsbD_not, hj] at *
  cases hmm : m.getLsbD j <;> simp_all

theorem holdsInterface_plan {b : Build} {sh : Shadows} {c : DisplayConfig} {i : Instr} {ps : List Piece}
    {x : Byte} (hb : buildAdmitted b = true) (hsh : sh.functionSet &&& b.codes.fs8bit = x)
    (hpl : plan b sh c i = .run ps) : AssignsOnly (HoldsInterface b.codes x) (expand c ps) := by
  refine assignsOnly_expand fun r v hm hr => ?_
  rcases assign_mem_plan hpl hm with ⟨rfl, _⟩ | ⟨n, f, hf, rfl, hv⟩
  · cases hr
  · have hw := feature_within hb hf
    rw [hr] at hw hv
    have hz := featureMask_interface (buildAdmitted_codes hb) hw
    rcases hv with rfl | rfl
    · exact setFlags_interface hz hsh
    · exact clearFlags_interface hz hsh

/-- `start` composes the function-set value with the interface bit of its bus mode (R27, R87). -/
theorem functionSetOf_interface {k : Codes} (h : codesAdmitted k = true) (c : DisplayConfig) :
    k.functionSetOf c &&& k.fs8bit = if c.busMode = .eight then k.fs8bit else 0x00 := by
  obtain ⟨h0, h1, h2⟩ := fs8bit_disjoint h
  have hflag {m : Byte} (v : Bool) (hm : m &&& k.fs8bit = 0) : flag v m &&& k.fs8bit = 0 := by
    cases v
    · exact BitVec.zero_and
    · exact hm
  simp only [Codes.functionSetOf, Codes.functionSetByte, BitVec.and_or_distrib_right, h0, hflag _ h1,
    hflag _ h2]
  cases c.busMode <;> simp [flag]

/-- A request keeps the interface bit right, whatever calls fail. -/
theorem exec_keeps_interface {i : Instr} {s t : State} (hi : i.isRequest = true)
    (hb : ∀ d, s.display = some d → buildAdmitted s.build = true)
    (hs : ∀ d, s.display = some d → InterfaceBitFits s.build.codes d) (h : exec i s = .next t)
    (d' : DisplayState) (hd' : t.display = some d') : InterfaceBitFits s.build.codes d' := by
  have close {w : Wiring} {l : List Stmt} {s0 : State} {good : State → State}
      {bad : BusErrorValue → State → State} {d : DisplayState} (hd : s0.display = some d)
      (hfit : InterfaceBitFits s.build.codes d) (he : Ended w l s0 good bad t)
      (hl : AssignsOnly (HoldsInterface s.build.codes (d.sh.functionSet &&& s.build.codes.fs8bit)) l)
      (hg : ∀ x, (good x).display = some d' → x.display = some d')
      (hbad : ∀ e x, (bad e x).display = x.display) : InterfaceBitFits s.build.codes d' := by
    obtain ⟨hcfg, hf⟩ := he.display_forall hd hl (fun r hr => by subst hr; rfl) hg hbad hd'
    have hbit : d'.sh.functionSet &&& s.build.codes.fs8bit = _ := hf .functionSet rfl
    rw [InterfaceBitFits, hbit, hfit, hcfg]
  cases exec_next h with
  | configError c why _ hp ht => simp [ht] at hd'
  | unsupported _ hp d hd hpl ht => exact hs d' (by simpa [ht] using hd')
  | operation _ hp d hd ps hpl he =>
    exact close hd (hs d hd) he (holdsInterface_plan (hb d hd) rfl hpl) (fun _ hx => hx) (fun _ _ => rfl)
  | stop _ hp d hd he =>
    exact close hd (hs d hd) he (assignsOnly_writeShadowed nofun) (fun _ hx => by simp at hx)
      (fun _ _ => rfl)
  | start ci _ hb' w hw p hp c hc ha he =>
    exact close (State.beginStart_display s c) (functionSetOf_interface (buildAdmitted_codes hb') c) he
      (fun r v hm hr => by obtain ⟨rfl, _⟩ := assign_mem_sequencer hm; cases hr) (fun _ hx => hx)
      (fun _ _ => rfl)
  | emitByte ps hp => rw [(emitPieces_request hp).1] at hi; cases hi
  | emitNibble v hp => rw [(emitNibble_request hp).1] at hi; cases hi

/-- Settles O8: with no transfer placed the step is idle or serves a request. -/
theorem requestsKeepTheInterfaceBit : Obligations.RequestsKeepTheInterfaceBit := by
  intro s t hs he hfit hstep
  rcases step_next hstep with rfl | ⟨iw, i, hfetch, hdecode, h⟩
  · exact hfit
  · have hreq : i.isRequest = true := by
      simp only [State.fetch, he] at hfetch
      split at hfetch
      · cases hfetch
        cases hdecode
        rename_i r rest hinbox
        refine (decodeRequest_isRequest r).resolve_right fun hr => ?_
        rw [hr] at h; cases h
      · cases hfetch
    intro d hd
    rw [(exec_frame h).build]
    exact exec_keeps_interface hreq (fun d hd => by simpa using (hs.live d (by simpa using hd)).2.1)
      (by simpa using hfit) h d hd

/-! ## EN idles low (R110) -/

/-- Settles O9: the next state is Ready only after whole transfers or a whole sequencer, and each leaves EN
at 0. -/
theorem stepKeepsEnIdlingLow : Obligations.StepKeepsEnIdlingLow := by
  intro s t hs hen hstep
  rcases step_next hstep with rfl | ⟨iw, i, _, _, h⟩
  · exact hen
  intro d' hready hd'
  have ran {d : DisplayState} {ps : List Piece} (hd : s.consume.display = some d)
      (hp : s.consume.phase = .ready) {t' : State} (ht : t'.view = t.view)
      (h' : t' = applyStmts d.cfg.wiring (expand d.cfg ps) s.consume) (hcfg : t'.display = some d') :
      t.view.level d'.cfg d'.cfg.en = some false := by
    subst h'
    have hc : d'.cfg = d.cfg := by
      simp only [applyStmts_display, hd, Option.map_some, Option.some.injEq] at hcfg
      rw [← hcfg]
    have ha := (hs.live d (by simpa using hd)).1
    have hlow : s.consume.view.level d.cfg d.cfg.en = some false := by
      simpa [State.view] using hen d (by simpa using hp) (by simpa using hd)
    rw [← ht, hc, level_applyStmts ha (drivenLines_expand _ _) (en_mem_lineIds _)]
    exact levelsAfter_expand_en ha _ _ hlow
  cases exec_next h with
  | configError c why hi hp ht => simp [ht] at hready
  | unsupported hi hp d hd hpl ht => exact ran (ps := []) hd hp (by rw [ht]; rfl) rfl (by rw [← hd', ht]; rfl)
  | operation hi hp d hd ps hpl he =>
    rcases he.reached with rfl | ⟨e, x, _, _, rfl⟩
    · exact ran (t' := applyStmts d.cfg.wiring (expand d.cfg ps) s.consume) hd hp rfl rfl hd'
    · cases hready
  | stop hi hp d hd he =>
    rcases he.reached with rfl | ⟨e, x, _, _, rfl⟩
    · cases hready
    · cases hready
  | start ci hi hb w hw p hp c hc ha he =>
    rcases he.reached with rfl | ⟨e, x, _, _, rfl⟩
    · have hcfg : d'.cfg = c := by
        simp only [State.reply_display, applyStmts_display, State.beginStart_display, Option.map_some,
          Option.some.injEq] at hd'
        rw [← hd']
      have hl := drivenLines_sequencer s.consume.build.codes ⟨c, preload s.consume.build.codes c⟩ sequencerStates
      rw [hcfg]
      exact (level_applyStmts ha hl (en_mem_lineIds c)).trans
        (levelsAfter_sequencer _ ⟨c, preload s.consume.build.codes c⟩ ha _).1
    · cases hready
  | emitByte ps hi ha d hd he =>
    rcases he.reached with rfl | ⟨e, x, _, _, rfl⟩
    · exact ran hd (by simpa [applyStmts_phase, phaseAfter_expand] using hready) rfl rfl hd'
    · cases hready
  | emitNibble v hi hp d hd d4 d5 d6 d7 hdl he =>
    rcases he.reached with rfl | ⟨e, x, _, _, rfl⟩
    · simp [applyStmts_phase, phaseAfter_writeNibble] at hready
      simp [hready] at hp
    · cases hready

end Sys2Proof.Machine
end

section
/-!
PROOFS of the family "other", the character table and cursor addresses (O31, O32, O35).
-/

namespace Sys2Proof.Machine

/-! ## The character table -/

/-- The codes of the table lie in R140's three ranges. -/
theorem tableCode_range (k : Fin 49) :
    (0x10 ≤ (tableCode k).toNat ∧ (tableCode k).toNat ≤ 0x1F) ∨ (tableCode k).toNat = 0x7F ∨
      (0x80 ≤ (tableCode k).toNat ∧ (tableCode k).toNat ≤ 0x9F) := by
  revert k; decide

theorem tableKey_iff (g : Grapheme) : tableKey g = true ↔
    g ≠ [] ∧ (∀ c ∈ g, c < 0xD800 ∨ (0xE000 ≤ c ∧ c ≤ 0x10FFFF)) ∧ 1 < (g.map scalarUtf8Len).sum := by
  rw [tableKey, Bool.and_eq_true, decide_eq_true_eq, utf8Len]
  simp only [graphemeWellFormed, scalarWellFormed, Bool.and_eq_true, Bool.or_eq_true,
    Bool.not_eq_true', List.isEmpty_eq_false_iff, List.all_eq_true, decide_eq_true_eq, ne_eq, and_assoc]

/-- An entry is R141's, or its key is in the domain and its code one of the 49 (R140). -/
theorem charTable_cases {b : Build} {g : Grapheme} {x : Byte} (h : charTable b g = some x) :
    (g = Config.triangle ∧ x = Config.triangleCode) ∨ (tableKey g = true ∧ ∃ k, x = tableCode k) := by
  unfold charTable at h
  split at h
  case isTrue hg => cases h; exact .inl ⟨hg, rfl⟩
  split at h
  case isTrue hk =>
    obtain ⟨k, _, hx⟩ := Option.map_eq_some_iff.mp h
    exact .inr ⟨hk, k, hx.symm⟩
  case isFalse => cases h

theorem charTable_key {b : Build} {g : Grapheme} {x : Byte} (h : charTable b g = some x) :
    tableKey g = true := by
  rcases charTable_cases h with ⟨rfl, _⟩ | ⟨hk, _⟩
  · decide
  · exact hk

theorem charTable_code {b : Build} {g : Grapheme} {x : Byte} (h : charTable b g = some x) :
    (0x10 ≤ x.toNat ∧ x.toNat ≤ 0x1F) ∨ x.toNat = 0x7F ∨ (0x80 ≤ x.toNat ∧ x.toNat ≤ 0x9F) := by
  rcases charTable_cases h with ⟨_, rfl⟩ | ⟨_, k, rfl⟩
  · decide
  · exact tableCode_range k

theorem mapGrapheme_multiByte (b : Build) {g : Grapheme} (hg : 1 < utf8Len g) :
    mapGrapheme b g = some (mapMultiByte b g) :=
  if_neg (by omega)

/-- Settles O31: a multi-byte grapheme is not a single byte, so its code is the table's or the fallback. -/
theorem multiByteGraphemesGoThroughTheTable : Obligations.MultiByteGraphemesGoThroughTheTable := by
  refine ⟨fun b g hg => ⟨mapMultiByte b g, mapGrapheme_multiByte b hg, fun x hx => ?entry, fun hx => ?fallback⟩,
    fun b => ?triangle, fun b g x hx => ?domain⟩
  case entry => simp [mapMultiByte, hx]
  case fallback => rw [mapMultiByte, hx]; rfl
  case triangle => exact mapGrapheme_multiByte b (by decide)
  case domain =>
    obtain ⟨hne, hscalar, hlen⟩ := (tableKey_iff g).mp (charTable_key hx)
    exact ⟨hne, hscalar, hlen, charTable_code hx⟩

/-! ## The codes of a text -/

theorem scalarUtf8Len_pos (c : Nat) : 0 < scalarUtf8Len c := by
  unfold scalarUtf8Len; split_ifs <;> omega

theorem scalarUtf8Len_eq_one {c : Nat} (h : scalarUtf8Len c = 1) : c < 0x80 := by
  unfold scalarUtf8Len at h
  split_ifs at h <;> omega

/-- A grapheme of one UTF-8 byte is one code point below 0x80 (R142). -/
theorem eq_singleton_of_utf8Len_eq_one {g : Grapheme} (h : utf8Len g = 1) : ∃ c < 0x80, g = [c] := by
  cases g with
  | nil => simp [utf8Len] at h
  | cons c g =>
    have hc := scalarUtf8Len_pos c
    simp only [utf8Len, List.map_cons, List.sum_cons] at h
    cases g with
    | nil => exact ⟨c, scalarUtf8Len_eq_one (by simpa using h), rfl⟩
    | cons c' g =>
      have hc' := scalarUtf8Len_pos c'
      simp only [List.map_cons, List.sum_cons] at h
      omega

/-- What a code can be: below 0xA0, and under `refuse` printable ASCII or one of the table's (R62, R145). -/
def CodeInRange (p : LowcodePolicy) (c : Byte) : Prop :=
  c.toNat < 0xA0 ∧ (p = .refuse →
    (0x20 ≤ c.toNat ∧ c.toNat ≤ 0x7E) ∨ (0x10 ≤ c.toNat ∧ c.toNat ≤ 0x1F) ∨ c.toNat = 0x7F ∨
      (0x80 ≤ c.toNat ∧ c.toNat ≤ 0x9F))

theorem mapMultiByte_inRange (b : Build) (p : LowcodePolicy) (g : Grapheme) :
    CodeInRange p (mapMultiByte b g) := by
  unfold mapMultiByte
  cases hx : charTable b g with
  | none => exact ⟨by decide, fun _ => .inl (by decide)⟩
  | some x =>
    have hc := charTable_code hx
    exact ⟨by simp only [Option.getD_some]; omega, fun _ => .inr hc⟩

theorem lowcode_inRange {p : LowcodePolicy} {c : Nat} {x : Byte} (hc : c < 0x80)
    (h : lowcode p c = some x) : CodeInRange p x := by
  cases p <;> simp only [lowcode, Option.some.injEq, reduceCtorEq] at h
  case passthrough => subst h; exact ⟨by rw [BitVec.toNat_ofNat]; omega, fun h => by cases h⟩
  case fallback => subst h; exact ⟨by decide, fun h => by cases h⟩

theorem mapGrapheme_inRange {b : Build} {g : Grapheme} {x : Byte} (h : mapGrapheme b g = some x) :
    CodeInRange b.lowcode x := by
  unfold mapGrapheme at h
  split at h
  case isTrue hone =>
    obtain ⟨c, hc, rfl⟩ := eq_singleton_of_utf8Len_eq_one hone
    split at h
    case isTrue hascii =>
      cases h
      have hx : (BitVec.ofNat 8 c).toNat = c := by rw [BitVec.toNat_ofNat]; omega
      obtain ⟨hlo, hhi⟩ : 0x20 ≤ c ∧ c ≤ 0x7E := hascii
      simp only [List.headD_cons, CodeInRange, hx]
      exact ⟨by omega, fun _ => .inl ⟨hlo, hhi⟩⟩
    case isFalse => exact lowcode_inRange hc h
  case isFalse => cases h; exact mapMultiByte_inRange b _ g

/-- The codes of a text are those of its graphemes, in order (R145). -/
theorem mapText_eq_some_iff {b : Build} {text : List Grapheme} {codes : List Byte} :
    mapText b text = some codes ↔ text.map (mapGrapheme b) = codes.map some := by
  induction text generalizing codes with
  | nil => cases codes <;> simp [mapText]
  | cons g gs ih =>
    cases codes with
    | nil => simp only [mapText]; split <;> simp
    | cons c cs =>
      rw [List.map_cons, List.map_cons, List.cons.injEq, ← ih]
      cases hg : mapGrapheme b g <;> cases hgs : mapText b gs <;> simp [mapText, hg, hgs]

/-- Settles O32: each code is the code of some grapheme of the text, so it is in range. -/
theorem textCodesMatchTheirGraphemes : Obligations.TextCodesMatchTheirGraphemes := by
  intro b text codes h
  have hmap := mapText_eq_some_iff.mp h
  refine ⟨hmap, by simpa using (congrArg List.length hmap).symm, fun c hc => ?_⟩
  have hc' : some c ∈ text.map (mapGrapheme b) := hmap ▸ List.mem_map_of_mem hc
  obtain ⟨g, _, hg⟩ := List.mem_map.mp hc'
  exact mapGrapheme_inRange hg

/-! ## Cursor addresses -/

/-- The geometry of an admitted configuration (R23). -/
theorem admitted_geometry {c : DisplayConfig} (h : c.admitted = true) :
    1 ≤ c.rows ∧ c.rows ≤ 4 ∧ 1 ≤ c.cols ∧ c.cols ≤ 64 ∧ (2 < c.rows → c.cols ≤ 32) := by
  simp only [DisplayConfig.admitted, DisplayConfig.inDomain, geometryAdmitted, Bool.and_eq_true,
    decide_eq_true_eq] at h
  obtain ⟨⟨⟨⟨⟨hr1, hr4⟩, hc1⟩, hc⟩, _⟩, _⟩ := h
  split at hc <;> simp only [decide_eq_true_eq] at hc <;> omega

theorem clamp_eq_max_min {x hi : Int} (h : 0 ≤ hi) : clamp x 0 hi = max 0 (min x hi) := by
  unfold clamp; split_ifs <;> omega

theorem clamp_of_mem {x hi : Int} (h0 : 0 ≤ x) (h1 : x ≤ hi) : clamp x 0 hi = x := by
  unfold clamp; split_ifs <;> omega

theorem clamp_bounds {x hi : Int} (h : 0 ≤ hi) : 0 ≤ clamp x 0 hi ∧ clamp x 0 hi ≤ hi := by
  rw [clamp_eq_max_min h]; omega

/-- The RowOffsetTable row by row, for a row of the panel (R166). -/
theorem rowOffset_cases {cols r : Int} (h0 : 0 ≤ r) (h4 : r < 4) :
    (r = 0 ∧ rowOffset cols r = 0) ∨ (r = 1 ∧ rowOffset cols r = 64) ∨
      (r = 2 ∧ rowOffset cols r = cols) ∨ (r = 3 ∧ rowOffset cols r = 64 + cols) := by
  obtain rfl | rfl | rfl | rfl : r = 0 ∨ r = 1 ∨ r = 2 ∨ r = 3 := by omega
  all_goals simp [rowOffset]

theorem ddramAddress_bounds {c : DisplayConfig} (h : c.admitted = true) (row col : Int) :
    0 ≤ ddramAddress c row col ∧ ddramAddress c row col ≤ 0x7F := by
  obtain ⟨hr1, hr4, hc1, hc64, hc32⟩ := admitted_geometry h
  obtain ⟨hrlo, hrhi⟩ := clamp_bounds (x := row) (hi := c.rows - 1) (by omega)
  obtain ⟨hclo, hchi⟩ := clamp_bounds (x := col) (hi := c.cols - 1) (by omega)
  unfold ddramAddress
  rcases rowOffset_cases (cols := c.cols) hrlo (by omega) with ⟨_, e⟩ | ⟨_, e⟩ | ⟨_, e⟩ | ⟨_, e⟩ <;>
    rw [e] <;> omega

/-- Settles O35: rows 0 and 2 share one half of the address space and rows 1 and 3 the other; with more than
two rows a row has at most 32 columns. -/
theorem cursorAddressesAreDistinctAndFit : Obligations.CursorAddressesAreDistinctAndFit := by
  intro c h
  refine ⟨ddramAddress_bounds h, fun r k r' k' hr0 hr hk0 hk hr0' hr' hk0' hk' heq => ?_⟩
  obtain ⟨hr1, hr4, hc1, hc64, hc32⟩ := admitted_geometry h
  unfold ddramAddress at heq
  rw [clamp_of_mem hr0 (by omega), clamp_of_mem hk0 (by omega), clamp_of_mem hr0' (by omega),
    clamp_of_mem hk0' (by omega)] at heq
  rcases rowOffset_cases (cols := c.cols) hr0 (by omega) with
    ⟨hrow, e⟩ | ⟨hrow, e⟩ | ⟨hrow, e⟩ | ⟨hrow, e⟩ <;>
  rcases rowOffset_cases (cols := c.cols) hr0' (by omega) with
    ⟨hrow', e'⟩ | ⟨hrow', e'⟩ | ⟨hrow', e'⟩ | ⟨hrow', e'⟩ <;>
  rw [e, e'] at heq <;> omega

end Sys2Proof.Machine
end

section
/-!
PROOFS of the family "other", the Operations on a quiet bus (O19 to O23, O25 to O28): each is its plan
(`completes_of_plan`), whose items and shadow registers are read off its parts.
-/

namespace Sys2Proof.Machine

/-! ## Plans, read off -/

/-- A plan that runs completes with its items and registers, in whatever form they are given. -/
theorem completes_of_run {i : Instr} {s : State} {d : DisplayState} {ps : List Piece}
    {items : List XferItem} {sh' : Shadows} (hi : i.isOperation = true) (h : Live s d) (hq : BusQuiet s)
    (hp : plan s.build d.sh d.cfg i = .run ps) (hitems : shown (itemsOf ps) = items)
    (hsh : shadowsOf ps d.sh = sh') : Completes i s d items sh' :=
  hitems ▸ hsh ▸ completes_of_plan hi h hq hp

theorem shown_drXfer (bs : List Byte) : shown (bs.map drXfer) = bs.map drXfer :=
  List.filter_eq_self.mpr fun x hx => by
    obtain ⟨b, _, rfl⟩ := List.mem_map.mp hx
    rfl

theorem shown_irXfer_cons (b : Byte) (is : List XferItem) :
    shown (irXfer b :: is) = irXfer b :: shown is := rfl

theorem shown_replicate_irXfer (n : Nat) (b : Byte) :
    shown (List.replicate n (irXfer b)) = List.replicate n (irXfer b) :=
  List.filter_eq_self.mpr fun x hx => by
    rw [List.eq_of_mem_replicate hx]
    rfl

/-- Settles O19: both plans are one byte and the wait. -/
theorem clearAndHomeSendTheirByteThenWait : Obligations.ClearAndHomeSendTheirByteThenWait :=
  fun _ _ h hq => ⟨completes_of_run rfl h hq rfl rfl rfl, completes_of_run rfl h hq rfl rfl rfl⟩

/-! ## write -/

theorem plan_write {b : Build} {sh : Shadows} {c : DisplayConfig} {text : List Grapheme} {codes : List Byte}
    (ht : IsText text) (hm : mapText b text = some codes) :
    plan b sh c (.write text) = .run (codes.map (.byte true)) := by
  simp [plan, (textAdmitted_iff text).mpr ht, hm]

theorem plan_write_unsupported {b : Build} {sh : Shadows} {c : DisplayConfig} {text : List Grapheme}
    (ht : ¬ IsText text) : plan b sh c (.write text) = .unsupported :=
  if_neg fun h => ht ((textAdmitted_iff text).mp h)

/-- Settles O20: the codes are all there, one is missing, or the operand is no text. -/
theorem writeSendsOneDataTransferPerGrapheme : Obligations.WriteSendsOneDataTransferPerGrapheme := by
  intro s d text h hq
  refine ⟨fun codes ht hcodes => ?codes, exec_of_plan_run_nil rfl h.phase h.display rfl,
    fun ht hnone => ?missing, fun ht => ?noText⟩
  case codes =>
    exact completes_of_run rfl h hq (plan_write ht (mapText_eq_some_iff.mpr hcodes))
      (by rw [itemsOf_bytes, shown_drXfer]) (shadowsOf_bytes codes d.sh)
  case missing =>
    obtain ⟨g, hg, hgnone⟩ := List.mem_map.mp hnone
    exact exec_write_of_mapText_none h.phase h.display ht (mapText_eq_none_of_mem hg hgnone)
  case noText => exact exec_of_plan_unsupported rfl h.phase h.display (plan_write_unsupported ht)

/-! ## set_cursor -/

/-- An address of 7 bits stands in the low bits of its byte (R86 a). -/
theorem setDdramByte_toNat {a : Int} (h0 : 0 ≤ a) (h1 : a ≤ 0x7F) : ((setDdramByte a).toNat : Int) = 0x80 + a := by
  have hbits : ∀ x : BitVec 7, (setDdramByte (x.toNat : Int)).toNat = 0x80 + x.toNat := by decide
  have hx : ((BitVec.ofNat 7 a.toNat).toNat : Int) = a := by
    rw [BitVec.toNat_ofNat]; omega
  have := hbits (BitVec.ofNat 7 a.toNat)
  rw [hx] at this
  omega

/-- Settles O21: the clamped address fits 7 bits. -/
theorem setCursorSendsTheClampedAddress : Obligations.SetCursorSendsTheClampedAddress := by
  intro s d row col h hq
  obtain ⟨hlo, hhi⟩ := ddramAddress_bounds h.admitted row col
  obtain ⟨hrows, _, hcols, _⟩ := admitted_geometry h.admitted
  refine ⟨setDdramByte (ddramAddress d.cfg row col), ?_, completes_of_run rfl h hq rfl rfl rfl⟩
  rw [setDdramByte_toNat hlo hhi, ddramAddress, clamp_eq_max_min (by omega), clamp_eq_max_min (by omega)]
  omega

/-! ## The shifts -/

/-- A plan of `n` shift steps completes with `n` shift bytes; the shadow keeps the byte unless `n` is 0. -/
theorem completes_of_shifts {i : Instr} {s : State} {d : DisplayState} {v : Byte} {n : Nat} {m : Int}
    (hi : i.isOperation = true) (h : Live s d) (hq : BusQuiet s) (hn : n = m.natAbs)
    (hp : plan s.build d.sh d.cfg i = .run (shiftPieces v n)) :
    Completes i s d (List.replicate m.natAbs (irXfer v))
      (if m = 0 then d.sh else d.sh.set .shiftControl v) := by
  subst hn
  refine completes_of_run hi h hq hp (by rw [itemsOf_shiftPieces, shown_replicate_irXfer]) ?_
  simp only [shadowsOf_shiftPieces, Int.natAbs_eq_zero]

/-- Settles O22. -/
theorem scrollSendsOneShiftPerColumn : Obligations.ScrollSendsOneShiftPerColumn :=
  fun _ _ _ h hq => completes_of_shifts rfl h hq rfl rfl

/-- Settles O23: the sign of the count decides between the shifts and `unsupported`. -/
theorem movesSendOneShiftPerColumn : Obligations.MovesSendOneShiftPerColumn := by
  intro s d n h hq
  refine ⟨fun hn => ?shifts, fun hn => ?unsupported⟩
  case shifts =>
    have hnat : n.toNat = n.natAbs := by omega
    have hneg : ¬ n < 0 := by omega
    exact ⟨completes_of_shifts rfl h hq hnat (if_neg hneg), completes_of_shifts rfl h hq hnat (if_neg hneg)⟩
  case unsupported =>
    exact ⟨exec_of_plan_unsupported rfl h.phase h.display (if_pos hn),
      exec_of_plan_unsupported rfl h.phase h.display (if_pos hn)⟩

/-! ## enable and disable -/

/-- A byte that goes through its shadow is one transfer and stays there (R117). -/
theorem completes_of_shadowed {i : Instr} {s : State} {d : DisplayState} {r : Shadow} {v : Byte}
    (hi : i.isOperation = true) (h : Live s d) (hq : BusQuiet s)
    (hp : plan s.build d.sh d.cfg i = .run [.assign r v, .byte false v]) :
    Completes i s d [irXfer v] (d.sh.set r v) :=
  completes_of_run hi h hq hp rfl rfl

/-- Settles O25. -/
theorem enableSetsTheFeatureBits : Obligations.EnableSetsTheFeatureBits := by
  intro s d name h hq
  refine ⟨fun f hf => completes_of_shadowed rfl h hq ?known,
    fun hf => exec_of_plan_unsupported rfl h.phase h.display ?unknown⟩
  case known => simp only [plan, featureOf, hf, setFlags]
  case unknown => simp only [plan, featureOf, hf]

/-- Settles O26. -/
theorem disableClearsTheFeatureBits : Obligations.DisableClearsTheFeatureBits := by
  intro s d name h hq
  refine ⟨fun f hf => completes_of_shadowed rfl h hq ?known,
    fun hf => exec_of_plan_unsupported rfl h.phase h.display ?unknown⟩
  case known => simp only [plan, featureOf, hf, clearFlags]
  case unknown => simp only [plan, featureOf, hf]

/-- The state a completed Operation leaves is again live, with a quiet bus and the same build. -/
theorem Completes.live {i : Instr} {s t : State} {d : DisplayState} {items : List XferItem} {sh' : Shadows}
    (h : Completes i s d items sh') (hs : Live s d) (hq : BusQuiet s) (ht : exec i s = .next t) :
    Live t { d with sh := sh' } ∧ BusQuiet t ∧ t.build = s.build := by
  obtain ⟨t', _, ht', _, _, _, hphase, hdisplay, hkept⟩ := h
  cases ht.symm.trans ht'
  obtain ⟨n, hn⟩ := hkept.answers
  exact ⟨⟨hphase, hdisplay, hs.admitted⟩,
    fun a ha => hq a (List.mem_of_mem_drop (hn ▸ ha)), hkept.build⟩

theorem Shadows.set_eq_self_iff (sh : Shadows) (r : Shadow) (v : Byte) : sh.set r v = sh ↔ v = sh.get r := by
  constructor
  · intro h
    have := Shadows.get_set_self sh r v
    rw [h] at this
    exact this.symm
  · rintro rfl; cases r <;> rfl

/-- Clearing the bits just set leaves the register with those bits cleared. -/
theorem or_and_not_self (a m : Byte) : (a ||| m) &&& ~~~m = a &&& ~~~m := by
  rw [BitVec.and_or_distrib_right, BitVec.and_not_self]
  exact BitVec.or_zero

theorem and_not_eq_self_iff (a m : Byte) : a &&& ~~~m = a ↔ a &&& m = 0 := by
  constructor
  · intro h
    rw [← h, BitVec.and_assoc, BitVec.and_comm (~~~m), BitVec.and_not_self]
    exact BitVec.and_zero
  · intro h
    exact fixed_of_disjoint (by simpa [disjointMasks] using h)

/-- Settles O27: the second request starts from the live state the first one leaves. -/
theorem enableThenDisableClearsOnlyTheFeature : Obligations.EnableThenDisableClearsOnlyTheFeature := by
  intro s d name f h hq hf
  have he := (enableSetsTheFeatureBits s d name h hq).1 f hf
  obtain ⟨t, _, ht, _⟩ := id he
  obtain ⟨hlive, hquiet, hbuild⟩ := he.live h hq ht
  obtain ⟨u, _, hu, _, _, _, _, hdisplay, _⟩ :=
    (disableClearsTheFeatureBits t _ name hlive hquiet).1 f (by rw [hbuild, hf])
  simp only [Shadows.get_set_self, Shadows.set_set, or_and_not_self] at hdisplay
  refine ⟨t, u, ht, hu, hdisplay, ?_⟩
  rw [hdisplay, h.display, Option.some.injEq, ← and_not_eq_self_iff, ← Shadows.set_eq_self_iff]
  exact ⟨fun e => congrArg DisplayState.sh e, fun e => by rw [e]⟩

/-! ## create_char -/

/-- The spec's list of bad operands is the complement of the admission test (R173). -/
theorem glyphAdmitted_eq_false {idx : Int} {bitmap : List Int}
    (h : idx < 0 ∨ 7 < idx ∨ bitmap.length ≠ 8 ∨ ∃ x ∈ bitmap, x < 0 ∨ 255 < x) :
    glyphAdmitted idx bitmap = false := by
  by_contra hne
  simp only [Bool.not_eq_false, glyphAdmitted, Bool.and_eq_true, decide_eq_true_eq, List.all_eq_true] at hne
  obtain ⟨⟨⟨h0, h7⟩, h8⟩, hall⟩ := hne
  rcases h with h | h | h | ⟨x, hx, h⟩
  · omega
  · omega
  · exact h h8
  · have := hall x hx; omega

theorem glyphAdmitted_bytes (idx : Fin 8) {bytes : List Byte} (h : bytes.length = 8) :
    glyphAdmitted idx.val (bytes.map (fun x => (x.toNat : Int))) = true := by
  simp only [glyphAdmitted, Bool.and_eq_true, decide_eq_true_eq, List.all_eq_true, List.length_map, h,
    List.mem_map, forall_exists_index, and_imp, forall_apply_eq_imp_iff₂]
  exact ⟨⟨⟨by omega, by omega⟩, trivial⟩, fun b _ => by have := b.isLt; omega⟩

theorem bitmapBytes_toNat (bytes : List Byte) : bitmapBytes (bytes.map (fun x => (x.toNat : Int))) = bytes := by
  rw [bitmapBytes, List.map_map]
  refine List.map_id'' (fun b => ?_) bytes
  simp

/-- Settles O28: eight bytes are sent as they are, and bad operands fail the admission test. -/
theorem createCharSendsNineTransfers : Obligations.CreateCharSendsNineTransfers := by
  intro s d h hq
  refine ⟨fun idx bytes hlen => ⟨setCgramByte idx.val, ?address, ?completes⟩, fun idx bitmap hbad => ?bad⟩
  case address => revert idx; decide
  case completes =>
    refine completes_of_run rfl h hq
      (ps := .byte false (setCgramByte idx.val) :: bytes.map (.byte true)) ?_ ?_ (shadowsOf_bytes bytes d.sh)
    · simp only [plan, glyphAdmitted_bytes idx hlen, bitmapBytes_toNat, if_true]
    · rw [itemsOf, itemsOf_bytes]
      exact (shown_irXfer_cons _ _).trans (by rw [shown_drXfer])
  case bad =>
    refine exec_of_plan_unsupported rfl h.phase h.display ?_
    simp [plan, glyphAdmitted_eq_false hbad]

end Sys2Proof.Machine
end

section
/-!
PROOFS of the family "other", the shadow invariant of the Operations (O56): with the default codes every byte of
a class goes through its shadow register (R25, R117).
-/

namespace Sys2Proof.Machine

/-! ## The last byte of a class -/

theorem lastWritten_irXfer_getD (r : Shadow) (b x : Byte) (is : List XferItem) :
    (lastWritten r (irXfer b :: is)).getD x =
      (lastWritten r is).getD (if shadowOfByte b = some r then b else x) := by
  cases h : lastWritten r is
  · by_cases hb : shadowOfByte b = some r <;> simp [lastWritten, irXfer, h, hb]
  · simp [lastWritten, h]

theorem lastWritten_drXfer (r : Shadow) (b : Byte) (is : List XferItem) :
    lastWritten r (drXfer b :: is) = lastWritten r is := by
  cases h : lastWritten r is <;> simp [lastWritten, drXfer, h]

theorem lastWritten_wait (r : Shadow) (t : Wait) (is : List XferItem) :
    lastWritten r (.wait t :: is) = lastWritten r is := by
  cases h : lastWritten r is <;> simp [lastWritten, h]

/-- Waits are never the last byte of a class, shown or not. -/
theorem lastWritten_shown (r : Shadow) (is : List XferItem) : lastWritten r (shown is) = lastWritten r is := by
  induction is with
  | nil => rfl
  | cons i is ih =>
    by_cases hi : i = .wait .tEn
    · subst hi
      rw [lastWritten_wait, ← ih]
      rfl
    · have hs : shown (i :: is) = i :: shown is := by simp [shown, hi]
      simp only [hs, lastWritten, ih]

/-! ## Parts in which every byte of a class goes through its shadow -/

/-- Data bytes, waits, instruction bytes of no class, and bytes assigned to the register of their class right
before they are sent. -/
inductive ThroughShadows : List Piece → Prop
  | nil : ThroughShadows []
  | data (b : Byte) {ps : List Piece} : ThroughShadows ps → ThroughShadows (.byte true b :: ps)
  | wait (t : Wait) {ps : List Piece} : ThroughShadows ps → ThroughShadows (.wait t :: ps)
  | classless {b : Byte} {ps : List Piece} :
      shadowOfByte b = none → ThroughShadows ps → ThroughShadows (.byte false b :: ps)
  | shadowed {r : Shadow} {v : Byte} {ps : List Piece} :
      shadowOfByte v = some r → ThroughShadows ps → ThroughShadows (.assign r v :: .byte false v :: ps)

theorem itemsOf_ir (b : Byte) (ps : List Piece) : itemsOf (.byte false b :: ps) = irXfer b :: itemsOf ps := rfl

theorem itemsOf_dr (b : Byte) (ps : List Piece) : itemsOf (.byte true b :: ps) = drXfer b :: itemsOf ps := rfl

/-- Each register then holds the last byte of its class that was sent. -/
theorem ThroughShadows.get_shadowsOf {ps : List Piece} (h : ThroughShadows ps) (sh : Shadows) (q : Shadow) :
    (shadowsOf ps sh).get q = (lastWritten q (itemsOf ps)).getD (sh.get q) := by
  induction h generalizing sh with
  | nil => rfl
  | data b _ ih => rw [shadowsOf, ih, itemsOf_dr, lastWritten_drXfer]
  | wait t _ ih => rw [shadowsOf, ih, itemsOf, lastWritten_wait]
  | classless hb _ ih => rw [shadowsOf, ih, itemsOf_ir, lastWritten_irXfer_getD, hb]; rfl
  | @shadowed r v ps hv _ ih =>
    rw [shadowsOf, shadowsOf, ih, itemsOf, itemsOf_ir, lastWritten_irXfer_getD, hv]
    by_cases hq : r = q
    · subst hq; simp
    · rw [Shadows.get_set_of_ne sh v (Ne.symm hq), if_neg (by simpa using hq)]

/-- Registers that carry their class keep it. -/
theorem ThroughShadows.carries_class {ps : List Piece} (h : ThroughShadows ps) {sh : Shadows}
    (hsh : ∀ r, shadowOfByte (sh.get r) = some r) (q : Shadow) :
    shadowOfByte ((shadowsOf ps sh).get q) = some q := by
  induction h generalizing sh with
  | nil => exact hsh q
  | data b _ ih => exact ih hsh
  | wait t _ ih => exact ih hsh
  | classless hb _ ih => exact ih hsh
  | @shadowed r v ps hv _ ih =>
    refine ih (sh := sh.set r v) fun r' => ?_
    by_cases hr : r' = r
    · subst hr; rw [Shadows.get_set_self, hv]
    · rw [Shadows.get_set_of_ne sh v hr, hsh]

/-! ## The plans, with the default codes (log 19) -/

theorem throughShadows_bytes (bs : List Byte) : ThroughShadows (bs.map (.byte true)) := by
  induction bs with
  | nil => exact .nil
  | cons b bs ih => exact .data b ih

theorem throughShadows_shiftPieces {v : Byte} (hv : shadowOfByte v = some .shiftControl) (n : Nat) :
    ThroughShadows (shiftPieces v n) := by
  induction n with
  | zero => exact .nil
  | succ n ih => exact .shadowed hv ih

/-- The four assembled bytes carry their class. -/
theorem class_assembled :
    (∀ i s, shadowOfByte (Codes.default.entryModeByte i s) = some .entryMode) ∧
    (∀ d c b, shadowOfByte (Codes.default.displayControlByte d c b) = some .displayControl) ∧
    (∀ m r, shadowOfByte (Codes.default.shiftByte m r) = some .shiftControl) ∧
    (∀ w n f, shadowOfByte (Codes.default.functionSetByte w n f) = some .functionSet) := by
  decide

/-- The address bytes belong to no register. -/
theorem class_address (x : Byte) :
    shadowOfByte (Config.setDdram ||| x) = none ∧ shadowOfByte (Config.setCgram ||| x <<< 3) = none := by
  revert x; decide

/-- The flags of a default feature are no class bit, so its register keeps its class (R91). -/
theorem class_feature {n : String} {f : Feature} (hf : (n, f) ∈ Config.featuresDefault) {v : Byte}
    (hv : shadowOfByte v = some f.owner) :
    shadowOfByte (setFlags v f.mask) = some f.owner ∧ shadowOfByte (clearFlags v f.mask) = some f.owner := by
  have hdisplay : ∀ v : Byte, shadowOfByte v = some .displayControl → ∀ m ∈ [4#8, 2#8, 1#8],
      shadowOfByte (setFlags v m) = some .displayControl ∧
        shadowOfByte (clearFlags v m) = some .displayControl := by decide
  have hentry : ∀ v : Byte, shadowOfByte v = some .entryMode →
      shadowOfByte (setFlags v 1) = some .entryMode ∧ shadowOfByte (clearFlags v 1) = some .entryMode := by
    decide
  simp only [Config.featuresDefault, List.mem_cons, Prod.mk.injEq, List.not_mem_nil, or_false] at hf
  rcases hf with ⟨_, rfl⟩ | ⟨_, rfl⟩ | ⟨_, rfl⟩ | ⟨_, rfl⟩
  · exact hdisplay v hv _ (by decide)
  · exact hdisplay v hv _ (by decide)
  · exact hdisplay v hv _ (by decide)
  · exact hentry v hv

theorem throughShadows_plan {b : Build} {sh : Shadows} {c : DisplayConfig} {i : Instr} {ps : List Piece}
    (hcodes : b.codes = Codes.default) (hfeatures : b.features = Config.featuresDefault)
    (hsh : ∀ r, shadowOfByte (sh.get r) = some r) (hpl : plan b sh c i = .run ps) : ThroughShadows ps := by
  cases i <;> simp only [plan, hcodes] at hpl
  case clear => cases hpl; exact .classless (by decide) (.wait _ .nil)
  case home => cases hpl; exact .classless (by decide) (.wait _ .nil)
  case write =>
    obtain ⟨_, codes, _, rfl⟩ := plan_write_run (b := b) (sh := sh) (c := c) hpl
    exact throughShadows_bytes codes
  case setCursor => cases hpl; exact .classless (class_address _).1 .nil
  case scroll => cases hpl; exact throughShadows_shiftPieces (class_assembled.2.2.1 _ _) _
  case moveLeft => split at hpl <;> cases hpl; exact throughShadows_shiftPieces (class_assembled.2.2.1 _ _) _
  case moveRight => split at hpl <;> cases hpl; exact throughShadows_shiftPieces (class_assembled.2.2.1 _ _) _
  case enable =>
    split at hpl <;> cases hpl
    rename_i f hf
    exact .shadowed (class_feature (hfeatures ▸ featureOf_mem hf) (hsh _)).1 .nil
  case disable =>
    split at hpl <;> cases hpl
    rename_i f hf
    exact .shadowed (class_feature (hfeatures ▸ featureOf_mem hf) (hsh _)).2 .nil
  case createChar =>
    split at hpl <;> cases hpl
    exact .classless (class_address _).2 (throughShadows_bytes _)
  all_goals cases hpl

/-- An Operation on a quiet bus either is unsupported and adds no event, or it completes with its plan. -/
theorem operation_events {i : Instr} {s t : State} {d : DisplayState} {ev : List Event}
    (hi : i.isOperation = true) (h : Live s d) (hq : BusQuiet s) (hx : exec i s = .next t)
    (htr : t.trace = s.trace ++ ev) :
    (plan s.build d.sh d.cfg i = .unsupported ∧ t = s.reply .unsupported ∧ ev = []) ∨
    ∃ ps, plan s.build d.sh d.cfg i = .run ps ∧
      t = (applyStmts d.cfg.wiring (expand d.cfg ps) s).reply .ok ∧
      ev = eventsOf d.cfg.wiring s.image (expand d.cfg ps) := by
  rcases operation_of_quiet hi h.phase h.display hq hx with ⟨hpl, rfl⟩ | ⟨ps, hpl, rfl⟩
  · exact .inl ⟨hpl, rfl, by simpa using htr⟩
  · exact .inr ⟨ps, hpl, rfl, events_of_trace htr⟩

/-- The transfers of a plan's events, whatever the transport. -/
theorem shown_events_of_plan {i : Instr} {s : State} {d : DisplayState} {ps : List Piece} (h : Live s d)
    (hpl : plan s.build d.sh d.cfg i = .run ps) :
    shown (transferTrace d.cfg 0 (s.replay d.cfg) (eventsOf d.cfg.wiring s.image (expand d.cfg ps))) =
      shown (itemsOf ps) := by
  rw [transferTrace_eventsOf h.admitted s (drivenLines_expand _ _),
    stmtXfers_expand h.admitted _ _ (plan_noReset hpl)]

theorem transferTrace_nil (c : DisplayConfig) (n : Nat) (r : Replay) : transferTrace c n r [] = [] := by
  unfold transferTrace
  cases c.busMode
  · cases n <;> rfl
  · rfl

/-- Settles O56: an unsupported Operation sends nothing; any other runs a plan through the shadows. -/
theorem shadowsFollowTheBus : Obligations.ShadowsFollowTheBus := by
  intro i s t d ev hi h hq hcodes hfeatures hsh hx htr
  rcases operation_events hi h hq hx htr with ⟨_, rfl, rfl⟩ | ⟨ps, hpl, rfl, rfl⟩
  · exact ⟨d, h.display, hsh, fun r => by rw [transferTrace_nil]; rfl⟩
  · have hps := throughShadows_plan hcodes hfeatures hsh hpl
    refine ⟨{ d with sh := shadowsOf ps d.sh }, ?_, hps.carries_class hsh, fun r => ?_⟩
    · simp [applyStmts_display, h.display, shadowsAfter_expand]
    · rw [shown_events_of_plan h hpl, lastWritten_shown]
      exact hps.get_shadowsOf d.sh r

end Sys2Proof.Machine
end

section
/-!
PROOFS of the family "other", the emitted transfers (O45 to O50): each byte's meaning is its parts where the block
emits it (`exec_emitPieces`), and nothing elsewhere.
-/

namespace Sys2Proof.Machine

/-! ## An emitted byte is its parts -/

theorem exec_emitPieces {i : Instr} {s : State} {ps : List Piece} (hi : emitPieces s.build i = some ps) :
    exec i s = s.emitTransfer (emitAllowed s i) (fun d => expand d.cfg ps) := by
  have plain (b : Byte) (rs : Bool) : (fun d : DisplayState => writeByte d.cfg b rs) =
      fun d => expand d.cfg [.byte rs b] := by
    funext d; simp [expand, Piece.stmts]
  have shadowed (r : Shadow) (v : Byte) : (fun d : DisplayState => writeShadowed d r v) =
      fun d => expand d.cfg [.assign r v, .byte false v] := by
    funext d; exact (expand_shadowed d r v).symm
  cases i <;> simp only [emitPieces, Option.some.injEq, reduceCtorEq] at hi <;> subst hi
  case irEntryMode | irDisplayControl | irCursorShift | irFunctionSet =>
    exact congrArg (s.emitTransfer _) (shadowed _ _)
  all_goals exact congrArg (s.emitTransfer _) (plain _ _)

theorem ownsFeature_iff (b : Build) (r : Shadow) : ownsFeature b r = true ↔ ∃ f ∈ b.features, f.2.owner = r := by
  simp only [ownsFeature, List.any_eq_true, decide_eq_true_eq]

/-- The model lets the block emit a byte exactly where the spec's column says so (30_encoding section 2). -/
theorem emitAllowed_iff {i : Instr} {s : State} {ps : List Piece} (hi : emitPieces s.build i = some ps) :
    emitAllowed s i = true ↔ EmittedIn s i := by
  cases i <;> simp only [emitPieces, reduceCtorEq] at hi <;>
    simp only [emitAllowed, EmittedIn, readyOr, shadowedIn, Bool.or_eq_true, Bool.and_eq_true,
      decide_eq_true_eq, ownsFeature_iff]

/-- An emitted byte in its place completes with its parts. -/
theorem emits_of_emitted {i : Instr} {s : State} {d : DisplayState} {ps : List Piece}
    {items : List XferItem} {sh' : Shadows} (hd : s.display = some d) (ha : d.cfg.admitted = true)
    (hq : BusQuiet s) (hi : emitPieces s.build i = some ps) (hin : EmittedIn s i)
    (hitems : shown (itemsOf ps) = items) (hsh : shadowsOf ps d.sh = sh') : Emits i s d items sh' := by
  have hno : Piece.wait .tReset ∉ ps := by
    cases i <;> simp only [emitPieces, Option.some.injEq, reduceCtorEq] at hi <;> subst hi <;> simp
  have hx := exec_emitPieces hi
  rw [(emitAllowed_iff hi).mpr hin] at hx
  exact hitems ▸ hsh ▸ emits_of_pieces hd ha hq hno hx

/-- Settles O45. -/
theorem unshadowedBytesAreOneTransfer : Obligations.UnshadowedBytesAreOneTransfer := by
  intro s d hd ha hq
  refine ⟨fun hp => ?clear, fun hp => ⟨?home, fun idx => ?cgram, fun a => ?ddram⟩⟩
  case clear => exact emits_of_emitted hd ha hq rfl hp.symm rfl rfl
  case home => exact emits_of_emitted hd ha hq rfl hp rfl rfl
  case cgram => exact setCgramByte_bits idx ▸ emits_of_emitted hd ha hq rfl hp rfl rfl
  case ddram => exact setDdramByte_bits a ▸ emits_of_emitted hd ha hq rfl hp rfl rfl

/-- Settles O46. -/
theorem shadowedBytesAreOneTransferAndStay : Obligations.ShadowedBytesAreOneTransferAndStay :=
  fun _ _ hd ha hq => ⟨fun _ _ hp => emits_of_emitted hd ha hq rfl hp rfl rfl,
    fun _ _ _ hp => emits_of_emitted hd ha hq rfl hp rfl rfl,
    fun _ _ hp => emits_of_emitted hd ha hq rfl hp rfl rfl,
    fun _ _ _ hp => emits_of_emitted hd ha hq rfl hp rfl rfl⟩

/-- Settles O47. -/
theorem dataBytesAreOneTransfer : Obligations.DataBytesAreOneTransfer :=
  fun _ _ _ h hq => ⟨emits_of_emitted h.display h.admitted hq rfl h.phase rfl rfl,
    emits_of_emitted h.display h.admitted hq rfl h.phase rfl rfl⟩

/-! ## With the default codes the byte sent is the table's word -/

/-- With the default codes an instruction byte's parts send its own word, through its shadow if it has one. -/
theorem emitPieces_ir8 {b : Build} (hb : b.codes = Codes.default) {i : Instr} {x : Byte}
    (hi : encode i = .emitted (.ir8 x)) :
    emitPieces b i = some [.byte false x] ∨ ∃ r, emitPieces b i = some [.assign r x, .byte false x] := by
  cases i <;> simp only [encode, InstrWord.emitted.injEq, EmitWord.ir8.injEq, reduceCtorEq] at hi <;>
    subst hi <;> simp only [emitPieces, hb]
  case irClear | irHome => exact .inl rfl
  case irEntryMode i s => exact .inr ⟨.entryMode, by revert i s; decide⟩
  case irDisplayControl d c b => exact .inr ⟨.displayControl, by revert d c b; decide⟩
  case irCursorShift m r => exact .inr ⟨.shiftControl, by revert m r; decide⟩
  case irFunctionSet w n f => exact .inr ⟨.functionSet, by revert w n f; decide⟩
  case irSetCgram idx => exact .inl (by rw [setCgramByte_bits])
  case irSetDdram a => exact .inl (by rw [setDdramByte_bits])

/-- Settles O49: the instruction was admitted, so its one transfer is its word. -/
theorem emittedByteIsTheTableWord : Obligations.EmittedByteIsTheTableWord := by
  intro i b s t d hi hcodes hd ha hq hx
  have sent {ps : List Piece} (hps : emitPieces s.build i = some ps)
      (hitems : shown (itemsOf ps) = [irXfer b]) :
      ∃ ev, t.trace = s.trace ++ ev ∧ shown (transferTrace d.cfg 0 (s.replay d.cfg) ev) = [irXfer b] := by
    have hx' := exec_emitPieces hps
    rw [hx] at hx'
    have hin := (emitAllowed_iff hps).mp (emitTransfer_next hx'.symm).1
    obtain ⟨t', ev, ht', htr, hshown, _⟩ := emits_of_emitted hd ha hq hps hin hitems rfl
    cases hx.symm.trans ht'
    exact ⟨ev, htr, hshown⟩
  rcases emitPieces_ir8 hcodes hi with hps | ⟨r, hps⟩
  · exact sent hps rfl
  · exact sent hps rfl

/-! ## Elsewhere a transfer is refused -/

theorem exec_emitNibble {i : Instr} {s : State} {v : Byte} (hi : emitNibble s.build i = some v) :
    exec i s = s.forceNibble v := by
  cases i <;> simp only [emitNibble, Option.some.injEq, reduceCtorEq] at hi <;> subst hi <;> rfl

/-- An instruction with an emitted word has parts or is a nibble of ForceMode. -/
theorem emitted_cases {i : Instr} {e : EmitWord} (b : Build) (hi : encode i = .emitted e) :
    (∃ ps, emitPieces b i = some ps) ∨
      ((∃ v, emitNibble b i = some v) ∧ ∀ s : State, EmittedIn s i = (s.phase = .forceMode)) := by
  cases i <;> simp only [encode, reduceCtorEq] at hi
  case forceNibble8bit | forceNibble4bit => exact .inr ⟨⟨_, rfl⟩, fun _ => rfl⟩
  all_goals exact .inl ⟨_, rfl⟩

/-- Settles O50: a byte by the check it shares with the others, a nibble by the check of ForceMode. -/
theorem transfersElsewhereAreRefused : Obligations.TransfersElsewhereAreRefused := by
  refine ⟨fun s i e hi hnot => ?refused, fun s i e hi hphase hin => ?nowhere⟩
  case refused =>
    rcases emitted_cases s.build hi with ⟨ps, hps⟩ | ⟨⟨v, hv⟩, hin⟩
    · have hfalse : emitAllowed s i = false := by
        rw [← Bool.not_eq_true, emitAllowed_iff hps]; exact hnot
      rw [exec_emitPieces hps, hfalse]
      rfl
    · rw [hin] at hnot
      rw [exec_emitNibble hv]
      exact if_neg hnot
  case nowhere =>
    rcases emitted_cases s.build hi with ⟨ps, hps⟩ | ⟨_, hf⟩
    · obtain ⟨hoff, hreset, _, hfaulted⟩ := emitAllowed_phase ((emitAllowed_iff hps).mpr hin)
      rcases hphase with hp | hp | hp
      · exact hoff hp
      · exact hreset hp
      · exact hfaulted hp
    · rw [hf] at hin
      rw [hin] at hphase
      simp at hphase

/-! ## The nibbles of ForceMode -/

/-- The payload of a nibble is in the high bits of its byte (R111). -/
theorem highNibble_shift (b : Byte) : (b &&& 0xF0) >>> 4 = b >>> 4 := by
  revert b; decide

/-- A nibble in ForceMode on the 4-bit path is one unpaired latch, RS as it stands. -/
theorem forceNibble_four {i : Instr} {s : State} {d : DisplayState} {v : Byte} {r : Bool}
    (hi : emitNibble s.build i = some v) (hp : s.phase = .forceMode) (hd : s.display = some d)
    (ha : d.cfg.admitted = true) (hq : BusQuiet s) (hmode : d.cfg.busMode = .four)
    (hr : s.view.level d.cfg d.cfg.rs = some r) :
    ∃ t ev, exec i s = .next t ∧ t.trace = s.trace ++ ev ∧
      shown (transferTrace d.cfg 1 (s.replay d.cfg) ev) = [.nib (some (r, v >>> 4))] ∧
      t.display = s.display ∧ t.phase = s.phase ∧ t.replies = s.replies ∧ Kept s t d.cfg := by
  cases hdata : d.cfg.data with
  | eight => simp [DisplayConfig.busMode, hdata] at hmode
  | four d4 d5 d6 d7 =>
    have hl := drivenLines_writeNibble hdata v
    refine ⟨applyStmts d.cfg.wiring (writeNibble d.cfg d4 d5 d6 d7 v) s, _, ?_, applyStmts_trace _ _ _, ?_, ?_,
      ?_, by simp, kept_applyStmts s hl⟩
    · rw [exec_emitNibble hi]
      simp [State.forceNibble, hp, State.withDisplay, hd, forceNibbleBody, hdata, State.emitTransfer,
        runStmts_quiet hq]
    · rw [transferTrace_eventsOf_unpaired ha 1 s hl, stmtTrace, hmode]
      have := shown_nibble ha hdata v (up := (s.replay d.cfg).up) hr 0 []
      rw [List.append_nil] at this
      exact this
    · simp [applyStmts_display, hd, shadowsAfter_writeNibble]
    · simp [applyStmts_phase, phaseAfter_writeNibble]

/-- In 8-bit mode a nibble is refused (R243). -/
theorem forceNibble_eight {i : Instr} {s : State} {d : DisplayState} {v : Byte}
    (hi : emitNibble s.build i = some v) (hp : s.phase = .forceMode) (hd : s.display = some d)
    (hmode : d.cfg.busMode = .eight) : exec i s = .refused .nibbleIn8bitMode := by
  cases hdata : d.cfg.data with
  | four => simp [DisplayConfig.busMode, hdata] at hmode
  | eight =>
    rw [exec_emitNibble hi]
    simp [State.forceNibble, hp, State.withDisplay, hd, forceNibbleBody, hdata]

/-- Settles O48. -/
theorem forceNibblesAreUnpairedLatches : Obligations.ForceNibblesAreUnpairedLatches := by
  intro s d hp hd ha hq
  refine ⟨fun r hmode hr => ⟨?_, ?_⟩, fun hmode =>
    ⟨forceNibble_eight rfl hp hd hmode, forceNibble_eight rfl hp hd hmode⟩⟩
  · rw [← highNibble_shift]; exact forceNibble_four rfl hp hd ha hq hmode hr
  · rw [← highNibble_shift]; exact forceNibble_four rfl hp hd ha hq hmode hr

end Sys2Proof.Machine
end

section
/-!
PROOFS of the family "other", the checks of `start` (O36 to O39): pins, domain, wiring and parameters, each check
against the spec's own terms, and the place of each in the order of log 11.
-/

namespace Sys2Proof.Machine

/-! ## The pins (R21) -/

/-- A required key is absent. -/
theorem resolvePins_missing {c : ConfigInput}
    (h : (c.rs.isSome && c.en.isSome && c.d4.isSome && c.d5.isSome && c.d6.isSome && c.d7.isSome) = false) :
    resolvePins c = .error .missingPins := by
  unfold resolvePins
  split
  case h_1 hrs hen h4 h5 h6 h7 => simp [hrs, hen, h4, h5, h6, h7] at h
  case h_2 => rfl

/-- The line ids of the required keys. -/
theorem needed_pins {c : ConfigInput}
    (h : (c.rs.isSome && c.en.isSome && c.d4.isSome && c.d5.isSome && c.d6.isSome && c.d7.isSome) = true) :
    ∃ rs en d4 d5 d6 d7, c.rs = some rs ∧ c.en = some en ∧ c.d4 = some d4 ∧ c.d5 = some d5 ∧ c.d6 = some d6 ∧
      c.d7 = some d7 := by
  simp only [Bool.and_eq_true, Option.isSome_iff_exists] at h
  obtain ⟨⟨⟨⟨⟨⟨rs, h1⟩, en, h2⟩, d4, h3⟩, d5, h4⟩, d6, h5⟩, d7, h6⟩ := h
  exact ⟨rs, en, d4, d5, d6, d7, h1, h2, h3, h4, h5, h6⟩

theorem low_pins_all {c : ConfigInput} (h : ([c.d0, c.d1, c.d2, c.d3].filter Option.isSome).length = 4) :
    ∃ d0 d1 d2 d3, c.d0 = some d0 ∧ c.d1 = some d1 ∧ c.d2 = some d2 ∧ c.d3 = some d3 := by
  have hall := List.length_filter_eq_length_iff.mp h
  simp only [List.forall_mem_cons, Option.isSome_iff_exists] at hall
  obtain ⟨⟨d0, h0⟩, ⟨d1, h1⟩, ⟨d2, h2⟩, ⟨d3, h3⟩, _⟩ := hall
  exact ⟨d0, d1, d2, d3, h0, h1, h2, h3⟩

theorem low_pins_none {c : ConfigInput} (h : ([c.d0, c.d1, c.d2, c.d3].filter Option.isSome).length = 0) :
    c.d0 = none ∧ c.d1 = none ∧ c.d2 = none ∧ c.d3 = none := by
  have hnone := List.filter_eq_nil_iff.mp (List.length_eq_zero_iff.mp h)
  simp only [List.forall_mem_cons, Bool.not_eq_true, Option.isSome_eq_false_iff, Option.isNone_iff_eq_none]
    at hnone
  obtain ⟨h0, h1, h2, h3, _⟩ := hnone
  exact ⟨h0, h1, h2, h3⟩

/-- Settles O36: with the required keys present the number of low data lines decides. -/
theorem pinsDecideTheBusMode : Obligations.PinsDecideTheBusMode := by
  intro c need low
  refine ⟨resolvePins_missing, fun hneed hlow => ?eight, fun hneed hlow => ?four, fun hneed hsome hall => ?mixed⟩
  all_goals obtain ⟨rs, en, d4, d5, d6, d7, hrs, hen, h4, h5, h6, h7⟩ := needed_pins hneed
  case eight =>
    obtain ⟨d0, d1, d2, d3, h0, h1, h2, h3⟩ := low_pins_all hlow
    exact ⟨(rs, en, .eight d0 d1 d2 d3 d4 d5 d6 d7),
      by simp [resolvePins, hrs, hen, h0, h1, h2, h3, h4, h5, h6, h7],
      by simp [hrs, hen], by simp [DataLines.ids, h0, h1, h2, h3, h4, h5, h6, h7], fun _ => rfl⟩
  case four =>
    obtain ⟨h0, h1, h2, h3⟩ := low_pins_none hlow
    exact ⟨(rs, en, .four d4 d5 d6 d7), by simp [resolvePins, hrs, hen, h0, h1, h2, h3, h4, h5, h6, h7],
      by simp [hrs, hen], by simp [DataLines.ids, h4, h5, h6, h7], fun _ => rfl⟩
  case mixed =>
    simp only [resolvePins, hrs, hen, h4, h5, h6, h7]
    split
    case h_1 e0 e1 e2 e3 => exact absurd (by simp [low, e0, e1, e2, e3]) hall
    case h_2 e0 e1 e2 e3 => exact absurd (by simp [low, e0, e1, e2, e3]) hsome
    case h_3 => rfl

/-! ## ConfigurationError (R211) -/

/-- Settles O37: the error is taken before any call, and every other exit replies something else. -/
theorem startWithBadPinsIsAConfigurationError : Obligations.StartWithBadPinsIsAConfigurationError := by
  refine ⟨fun c s w why hb hw hp => ?taken, fun i s t why h hr => ?onlyStart⟩
  case taken => simp [exec, execStart, hb, hw, hp, State.takeConfigurationError, State.setPhase,
    State.setDisplay, State.reply]
  case onlyStart =>
    cases exec_next h with
    | configError c why hi => exact ⟨c, hi⟩
    | start ci hi => exact ⟨ci, hi⟩
    | unsupported _ hp d hd hpl ht => simp [ht] at hr
    | operation _ hp d hd ps hpl he =>
      exact absurd hr (he.replies_ne (by simp) (by simp [closeFaulted_replies]))
    | stop _ hp d hd he => exact absurd hr (he.replies_ne (by simp) (by simp [closeFaulted_replies]))
    | emitByte ps _ ha d hd he => exact absurd hr (he.replies_ne (by simp) (by simp))
    | emitNibble v _ hp d hd d4 d5 d6 d7 hdl he => exact absurd hr (he.replies_ne (by simp) (by simp))

/-! ## The refusals of `start`, in their order (log 11) -/

theorem exec_start_badParameters {ci : ConfigInput} {s : State} (hb : buildAdmitted s.build = false) :
    exec (.start ci) s = .refused .parametersNotAdmitted := by
  simp [exec, execStart, hb]

theorem exec_start_noWiring {ci : ConfigInput} {s : State} (hb : buildAdmitted s.build = true)
    (hw : wiringOf s.build = none) : exec (.start ci) s = .refused .combinedWithoutParameters := by
  simp [exec, execStart, hb, hw]

theorem exec_start_outside {ci : ConfigInput} {s : State} {w : Wiring} {p : LineId × LineId × DataLines}
    (hb : buildAdmitted s.build = true) (hw : wiringOf s.build = some w) (hp : resolvePins ci = .ok p)
    (hd : (DisplayConfig.ofInput ci p w).inDomain = false) :
    exec (.start ci) s = .refused .configOutsideDomain := by
  simp [exec, execStart, hb, hw, hp, hd]

theorem exec_start_badWiring {ci : ConfigInput} {s : State} {w : Wiring} {p : LineId × LineId × DataLines}
    (hb : buildAdmitted s.build = true) (hw : wiringOf s.build = some w) (hp : resolvePins ci = .ok p)
    (hd : (DisplayConfig.ofInput ci p w).inDomain = true)
    (hwa : (DisplayConfig.ofInput ci p w).wiringAdmitted = false) :
    exec (.start ci) s = .refused .combinedParametersNotAdmitted := by
  simp [exec, execStart, hb, hw, hp, hd, hwa]

theorem runStart_ne_refused (c : DisplayConfig) (s : State) (r : Refusal) : runStart c s ≠ .refused r := by
  unfold runStart
  split
  · exact nofun
  · exact nofun

/-- A `start` that is refused fails the check of that name. -/
theorem start_refused {ci : ConfigInput} {s : State} {r : Refusal} (h : exec (.start ci) s = .refused r) :
    (r = .parametersNotAdmitted ∧ buildAdmitted s.build = false) ∨
    (r = .combinedWithoutParameters ∧ wiringOf s.build = none) ∨
    ∃ w p, wiringOf s.build = some w ∧ resolvePins ci = .ok p ∧
      ((r = .configOutsideDomain ∧ (DisplayConfig.ofInput ci p w).inDomain = false) ∨
        (r = .combinedParametersNotAdmitted ∧ (DisplayConfig.ofInput ci p w).wiringAdmitted = false)) := by
  cases hb : buildAdmitted s.build with
  | false => rw [exec_start_badParameters hb] at h; cases h; exact .inl ⟨rfl, rfl⟩
  | true =>
  cases hw : wiringOf s.build with
  | none => rw [exec_start_noWiring hb hw] at h; cases h; exact .inr (.inl ⟨rfl, rfl⟩)
  | some w =>
  cases hp : resolvePins ci with
  | error why =>
    rw [startWithBadPinsIsAConfigurationError.1 ci s w why hb hw hp] at h; cases h
  | ok p =>
  refine .inr (.inr ⟨w, p, rfl, rfl, ?_⟩)
  cases hd : (DisplayConfig.ofInput ci p w).inDomain with
  | false => rw [exec_start_outside hb hw hp hd] at h; cases h; exact .inl ⟨rfl, rfl⟩
  | true =>
  cases hwa : (DisplayConfig.ofInput ci p w).wiringAdmitted with
  | false => rw [exec_start_badWiring hb hw hp hd hwa] at h; cases h; exact .inr ⟨rfl, rfl⟩
  | true =>
    rw [exec_start hb hw hp rfl (by simp [DisplayConfig.admitted, hd, hwa])] at h
    exact absurd h (runStart_ne_refused _ s r)

/-! ## The domain (R23) -/

theorem geometryAdmitted_iff (rows cols : Int) : geometryAdmitted rows cols = true ↔
    1 ≤ rows ∧ rows ≤ 4 ∧ 1 ≤ cols ∧ (rows ≤ 2 → cols ≤ 64) ∧ (3 ≤ rows → cols ≤ 32) := by
  simp only [geometryAdmitted, Bool.and_eq_true, decide_eq_true_eq]
  split <;> simp only [decide_eq_true_eq] <;> omega

theorem inDomain_iff (c : DisplayConfig) :
    c.inDomain = true ↔ DomainMeetsTheSpec c.rows c.cols c.lineIds := by
  rw [DisplayConfig.inDomain, Bool.and_eq_true, decide_eq_true_eq, geometryAdmitted_iff]
  simp only [DomainMeetsTheSpec, List.Nodup, and_assoc]

/-- Settles O38: the check is the spec's domain, and no refusal of another name is this one. -/
theorem startOutsideTheDomainIsRefused : Obligations.StartOutsideTheDomainIsRefused := by
  intro c s w p hb hw hp
  have hdom : (DisplayConfig.ofInput c p w).inDomain = true ↔
      DomainMeetsTheSpec c.rows c.cols (p.1 :: p.2.1 :: p.2.2.ids) := inDomain_iff _
  refine ⟨fun hout => exec_start_outside hb hw hp ?outside, fun hin href => ?inside, ?admitted⟩
  case outside =>
    rw [← Bool.not_eq_true, hdom]
    rintro ⟨h1, h4, hc1, h64, h32, hnodup⟩
    rcases hout with h | h | h | h | h | h
    · omega
    · omega
    · omega
    · omega
    · omega
    · exact h hnodup
  case inside =>
    rcases start_refused href with ⟨h, _⟩ | ⟨h, _⟩ | ⟨w', p', hw', hp', ⟨_, h⟩ | ⟨h, _⟩⟩
    · cases h
    · cases h
    · cases hw.symm.trans hw'
      cases hp.symm.trans hp'
      rw [hdom.mpr hin] at h
      cases h
    · cases h
  case admitted =>
    rw [DisplayConfig.admitted, Bool.and_eq_true, hdom]
    refine and_congr_right fun _ => ?_
    cases w with
    | discrete => simp [DisplayConfig.wiringAdmitted, DisplayConfig.ofInput]
    | combined q => simp

/-! ## The wiring (R120) -/

theorem backlightAdmitted_iff (mask : Byte) (used : List (Fin 8)) : backlightAdmitted mask used = true ↔
    mask = 0x00 ∨ ∃ k : Fin 8, mask = 1#8 <<< k.val ∧ ∀ j ∈ used, j ≠ k := by
  simp only [backlightAdmitted, bitAt, if_true, Bool.or_eq_true, decide_eq_true_eq, List.any_eq_true,
    List.mem_finRange, true_and, Bool.and_eq_true, Bool.not_eq_true', List.contains_eq_mem,
    decide_eq_false_iff_not]
  refine or_congr_right (exists_congr fun k => and_congr_right fun _ => ?_)
  exact ⟨fun h j hj e => h (e ▸ hj), fun h hk => h k hk rfl⟩

theorem wiringAdmitted_iff {c : DisplayConfig} {q : CombinedParams} (hw : c.wiring = .combined q) :
    c.wiringAdmitted = true ↔ WiringMeetsTheSpec q c.lineIds := by
  simp only [DisplayConfig.wiringAdmitted, hw, Bool.and_eq_true, decide_eq_true_eq, List.Nodup,
    List.pairwise_map, backlightAdmitted_iff, List.forall_mem_map, WiringMeetsTheSpec]

/-! ## The parameters (R8, R9, R27 to R29, R91, R119) -/

theorem pairwiseDisjoint_iff (ms : List Byte) :
    pairwiseDisjoint ms = true ↔ ms.Pairwise (fun a b => a &&& b = 0x00) := by
  induction ms with
  | nil => simp [pairwiseDisjoint]
  | cons m ms ih =>
    simp only [pairwiseDisjoint, Bool.and_eq_true, List.all_eq_true, disjointMasks, decide_eq_true_eq, ih,
      List.pairwise_cons]

/-- The flags of a register fit iff they and its identifier mask are pairwise disjoint (R8). -/
theorem flagsFit_iff (k : Codes) (r : Shadow) (flags : List Byte) :
    pairwiseDisjoint (k.identifierMask r :: flags) = true ↔ FlagsFit (k.identifier r) flags := by
  rw [pairwiseDisjoint_iff, List.pairwise_cons, and_comm]
  refine and_congr_right fun _ => forall_congr' fun m => imp_congr_right fun _ => ?_
  rw [← disjoint_identifierMask_iff, disjointMasks, decide_eq_true_eq, BitVec.and_comm]

/-- The flags of a register, in a list. -/
def registerFlags (k : Codes) : Shadow → List Byte
  | .functionSet => [k.fs8bit, k.fs2line, k.fs5x10]
  | .displayControl => [k.dcDisplay, k.dcCursor, k.dcBlink]
  | .entryMode => [k.emIncrement, k.emShift]
  | .shiftControl => [k.csDisplayMove, k.csRight]

theorem getLsbD_flagBits (k : Codes) (r : Shadow) (j : Nat) :
    (k.flagBits r).getLsbD j = true ↔ FlagBit (registerFlags k r) j := by
  cases r <;> simp [Codes.flagBits, registerFlags, FlagBit, BitVec.getLsbD_or, or_assoc]

/-- Where the flags fit, an initial byte holds its code outside them iff it fits (R29). -/
theorem fixedBits_iff {k : Codes} {r : Shadow} (hflags : FlagsFit (k.identifier r) (registerFlags k r))
    (v : Byte) : fixedBits k r v = true ↔ InitFits (k.identifier r) (registerFlags k r) v := by
  have hoff : ∀ j < 8, (k.flagBits r).getLsbD j = true → (k.identifier r).getLsbD j = false := by
    intro j hj hf
    obtain ⟨m, hm, hmj⟩ := (getLsbD_flagBits k r j).mp hf
    rw [← Bool.not_eq_true]
    exact fun hid => hflags.2 m hm j hj hmj (.inl hid)
  rw [fixedBits, decide_eq_true_eq]
  constructor
  · intro h j hj hnot
    rw [← getLsbD_flagBits, Bool.not_eq_true] at hnot
    rw [← h]
    simp only [BitVec.getLsbD_and, BitVec.getLsbD_not, hnot, hj, decide_true, Bool.not_false, Bool.and_true]
  · intro h
    refine BitVec.eq_of_getLsbD_eq fun j hj => ?_
    cases hf : (k.flagBits r).getLsbD j with
    | true => simp [hf, hoff j hj hf]
    | false =>
      have := h j hj (by rw [← getLsbD_flagBits, hf]; exact Bool.false_ne_true)
      simp only [BitVec.getLsbD_and, BitVec.getLsbD_not, hf, hj, this, decide_true, Bool.not_false,
        Bool.and_true]

theorem codesAdmitted_iff (k : Codes) : codesAdmitted k = true ↔ CodesFit k := by
  simp only [codesAdmitted, Bool.and_eq_true, flagsFit_iff]
  constructor
  · rintro ⟨⟨⟨⟨⟨hem, hdc⟩, hcs⟩, hfs⟩, hemInit⟩, hcsInit⟩
    exact ⟨hem, hdc, hcs, hfs, (fixedBits_iff (r := .entryMode) hem _).mp hemInit,
      (fixedBits_iff (r := .shiftControl) hcs _).mp hcsInit⟩
  · rintro ⟨hem, hdc, hcs, hfs, hemInit, hcsInit⟩
    exact ⟨⟨⟨⟨⟨hem, hdc⟩, hcs⟩, hfs⟩, (fixedBits_iff (r := .entryMode) hem _).mpr hemInit⟩,
      (fixedBits_iff (r := .shiftControl) hcs _).mpr hcsInit⟩

theorem ownsFlags_iff (k : Codes) (f : Feature) :
    maskWithin f.mask (k.featureBits f.owner) = true ↔ OwnsFlags k f := by
  rw [maskWithin_iff]
  exact forall_congr' fun j => imp_congr_right fun _ => imp_congr_right fun _ => getLsbD_featureBits k f.owner j

theorem featuresAdmitted_iff (k : Codes) (fs : List (String × Feature)) : featuresAdmitted k fs = true ↔
    (∀ f ∈ fs, f.2.mask ≠ 0x00 ∧ MaskFits (k.identifier f.2.owner) f.2.mask) ∧
      ∀ f ∈ fs, OwnsFlags k f.2 := by
  simp only [featuresAdmitted, List.all_eq_true, Bool.and_eq_true, decide_eq_true_eq,
    disjoint_identifierMask_iff, ownsFlags_iff]
  exact ⟨fun h => ⟨fun f hf => (h f hf).1, fun f hf => (h f hf).2⟩, fun h f hf => ⟨h.1 f hf, h.2 f hf⟩⟩

theorem timingAdmitted_iff (t : Timing) : timingAdmitted t = true ↔
    1 ≤ t.tEn ∧ 5 ≤ t.tForce ∧ 20 ≤ t.tClear ∧ 50 ≤ t.tReset := by
  simp only [timingAdmitted, Bool.and_eq_true, decide_eq_true_eq, and_assoc]

theorem buildAdmitted_iff (b : Build) : buildAdmitted b = true ↔ ParametersMeetTheSpec b := by
  rw [buildAdmitted, Bool.and_eq_true, Bool.and_eq_true, codesAdmitted_iff, timingAdmitted_iff,
    featuresAdmitted_iff, and_assoc]

theorem wiringOf_combined {b : Build} (h : b.transport = .combined) :
    wiringOf b = b.combined.map .combined := by
  simp [wiringOf, h]

/-- Settles O39: the check of the parameters is the spec's, and every refusal has a name of its own. -/
theorem startWithBadParametersIsRefused : Obligations.StartWithBadParametersIsRefused := by
  intro c s
  refine ⟨buildAdmitted_iff s.build, fun hbad => exec_start_badParameters ?bad,
    fun hgood => ⟨fun href => ?notByThatName, fun htr hnone => ?noWiring,
      fun q p htr hq hp hdom => ⟨wiringAdmitted_iff rfl, fun hbad => ?badWiring, fun hok href => ?goodWiring⟩⟩⟩
  case bad => rw [← Bool.not_eq_true, buildAdmitted_iff]; exact hbad
  all_goals have hb : buildAdmitted s.build = true := (buildAdmitted_iff _).mpr hgood
  case notByThatName =>
    rcases start_refused href with ⟨_, h⟩ | ⟨h, _⟩ | ⟨_, _, _, _, ⟨h, _⟩ | ⟨h, _⟩⟩
    · rw [hb] at h; cases h
    all_goals cases h
  case noWiring => exact exec_start_noWiring hb (by rw [wiringOf_combined htr, hnone]; rfl)
  all_goals have hw : wiringOf s.build = some (.combined q) := by rw [wiringOf_combined htr, hq]; rfl
  case badWiring =>
    refine exec_start_badWiring hb hw hp hdom ?_
    rw [← Bool.not_eq_true, wiringAdmitted_iff rfl]
    exact hbad
  case goodWiring =>
    rcases start_refused href with ⟨h, _⟩ | ⟨h, _⟩ | ⟨w', p', hw', hp', ⟨h, _⟩ | ⟨_, h⟩⟩
    · cases h
    · cases h
    · cases h
    · cases hw.symm.trans hw'
      cases hp.symm.trans hp'
      rw [(wiringAdmitted_iff rfl).mpr hok] at h
      cases h

end Sys2Proof.Machine
end

section
/-!
PROOFS of the family "other", `start` and `stop` on a quiet bus (O40 to O42, O44, O57): what an admitted start leaves,
its transfer-level trace state by state, its totals, and the shadow invariant it establishes.
-/

namespace Sys2Proof.Machine

/-! ## What a start leaves -/

/-- The function-set value a start composes, in the input's own terms (R87). -/
theorem functionSetOf_ofInput (k : Codes) (ci : ConfigInput) (p : LineId × LineId × DataLines) (w : Wiring) :
    k.functionSetOf (DisplayConfig.ofInput ci p w) =
      functionSetValue k ci (DisplayConfig.ofInput ci p w).busMode := by
  have hrows : (DisplayConfig.ofInput ci p w).rows = ci.rows := rfl
  have hfont : (DisplayConfig.ofInput ci p w).font5x10 = decide (ci.font5x10 = some true) := by
    cases hf : ci.font5x10 with
    | none => simp [DisplayConfig.ofInput, hf]
    | some b => cases b <;> simp [DisplayConfig.ofInput, hf]
  simp only [Codes.functionSetOf, Codes.functionSetByte, functionSetValue, flag, hrows, hfont, decide_eq_true_eq]

/-- The registers the sequencer leaves: those preloaded, the display bit set (`shadowsAfter_sequencer`). -/
def startedShadows (k : Codes) (c : DisplayConfig) : Shadows :=
  (preload k c).set .displayControl (setFlags k.cmdDisplayControl k.dcDisplay)

/-- They are those of 10_state section 5, in the input's own terms. -/
theorem startedShadows_ofInput (k : Codes) (ci : ConfigInput) (p : LineId × LineId × DataLines) (w : Wiring) :
    startedShadows k (DisplayConfig.ofInput ci p w) =
      { functionSet := functionSetValue k ci (DisplayConfig.ofInput ci p w).busMode,
        displayControl := k.cmdDisplayControl ||| k.dcDisplay,
        entryMode := k.entryModeInit,
        shiftControl := k.shiftControlInit } := by
  rw [← functionSetOf_ofInput]
  rfl

/-- An admitted start on a quiet bus, and the state it leaves. -/
theorem start_of_quiet {ci : ConfigInput} {s : State} {w : Wiring} {p : LineId × LineId × DataLines}
    {c : DisplayConfig} (hb : buildAdmitted s.build = true) (hw : wiringOf s.build = some w)
    (hp : resolvePins ci = .ok p) (hc : c = DisplayConfig.ofInput ci p w) (ha : c.admitted = true)
    (hq : BusQuiet s) : ∃ t, exec (.start ci) s = .next t ∧ StartLeaves ci s t c ∧
      t.trace = s.trace ++ eventsOf c.wiring 0x00
        (sequencer s.build.codes ⟨c, preload s.build.codes c⟩ sequencerStates) := by
  have hl := drivenLines_sequencer s.build.codes ⟨c, preload s.build.codes c⟩ sequencerStates
  have hkept := kept_applyStmts (s.beginStart c) hl
  obtain ⟨hen, hrs⟩ := levelsAfter_sequencer s.build.codes ⟨c, preload s.build.codes c⟩ ha
    ((s.beginStart c).view.level c)
  refine ⟨_, (exec_start hb hw hp hc ha).trans (runStart_of_quiet hq), ⟨?phase, ?replies, ?display, ?en, ?rs,
    hkept.build, hkept.inbox, hkept.emission, hkept.freeIx, hkept.answers, hkept.image,
    fun q hq' => ⟨(hkept.combined q hq').1, fun k hk => ?_⟩, hkept.lines⟩, ?trace⟩
  case phase => simp [applyStmts_phase, phaseAfter_sequencer]
  case replies => simp
  case display =>
    subst hc
    simp only [State.reply_display, applyStmts_display, State.beginStart_display, Option.map_some,
      shadowsAfter_sequencer, ← startedShadows_ofInput]
    rfl
  case en => exact (level_applyStmts ha hl (en_mem_lineIds c)).trans hen
  case rs => exact (level_applyStmts ha hl (rs_mem_lineIds c)).trans hrs
  case trace => simp [applyStmts_trace]
  · exact ((hkept.combined q hq').2 k hk).trans BitVec.getLsbD_zero

/-! ## The transfer-level trace of a start -/

theorem shown_stmtXfers_wait {c : DisplayConfig} (up : Bool) (f : Levels) {t : Wait} (ht : t ≠ .tReset)
    (hen : t ≠ .tEn) (l : List Stmt) :
    shown (stmtXfers c up f (.wait t :: l)) = .wait t :: shown (stmtXfers c up f l) := by
  rw [stmtXfers_wait c up f ht]
  simp [shown, hen]

/-- The sequencer after `ForceMode`. -/
def configureStates : List Phase :=
  [.configureFunction, .configureDisplay, .clear, .configureEntryMode, .configureShiftControl]

/-- The four register writes after the function set (R245 to R248). -/
def registerWrites (k : Codes) (sh : Shadows) : List XferItem :=
  [irXfer sh.displayControl, irXfer k.clear, .wait .tClear, irXfer sh.entryMode, irXfer sh.shiftControl]

/-- The states after `ForceMode` at the transfer level: the function set once in 4-bit mode and three times with
two waits in 8-bit mode (R244), then the four register writes. -/
theorem shown_configureStates (k : Codes) {c : DisplayConfig} (hc : c.admitted = true) (up : Bool)
    (f : Levels) : shown (stmtXfers c up f (sequencer k ⟨c, preload k c⟩ configureStates)) =
      (if c.busMode = .four then [irXfer (k.functionSetOf c)]
        else [irXfer (k.functionSetOf c), .wait .tForce, irXfer (k.functionSetOf c), .wait .tForce,
          irXfer (k.functionSetOf c)]) ++ registerWrites k (startedShadows k c) := by
  have hforce := fun up f l => shown_stmtXfers_wait (c := c) up f (t := .tForce) (by simp) (by simp) l
  have hclear := fun up f l => shown_stmtXfers_wait (c := c) up f (t := .tClear) (by simp) (by simp) l
  have hnil := fun up f => congrArg shown (stmtXfers_nil c up f)
  cases hm : c.busMode <;>
    simp only [configureStates, sequencer, initState, initConfigureFunction, hm, enableFlag, writeShadowed,
      setFeature, writeIr, DisplayState.setShadow_cfg, DisplayState.setShadow_sh, Shadows.get_set_self,
      List.append_assoc, List.cons_append, List.nil_append, stmtXfers_writeByte hc, stmtXfers_phase,
      stmtXfers_assign, hforce, hclear, hnil] <;>
    rfl

/-- The items of `ForceMode` in 4-bit mode (R243). -/
def forceModeItems (k : Codes) : List XferItem :=
  [.nib (some (false, k.forceNibble8 >>> 4)), .wait .tForce,
   .nib (some (false, k.forceNibble8 >>> 4)), .wait .tForce,
   .nib (some (false, k.forceNibble8 >>> 4)), .nib (some (false, k.forceNibble4 >>> 4))]

/-- `ForceMode` in 4-bit mode: four nibbles with RS low, a wait after the first two (R243). -/
theorem shown_forceMode {c : DisplayConfig} (hc : c.admitted = true) (hm : c.busMode = .four) (k : Codes)
    {up : Bool} {f : Levels} (hr : f c.rs = some false) (rest : List Stmt) :
    ∃ g, shown (pairLatches 4 none (stmtLatches c up f (initForceMode k c ++ rest))) =
      forceModeItems k ++ shown (stmtXfers c false g rest) := by
  cases hd : c.data with
  | eight => simp [DisplayConfig.busMode, hd] at hm
  | four d4 d5 d6 d7 =>
    have rsLow (v : Byte) {g : Levels} (hg : g c.rs = some false) :
        levelsAfter g (writeNibble c d4 d5 d6 d7 v) c.rs = some false :=
      (stmtLatches_writeNibble hc hd v (up := false) hg).2.2.2
    have h1 := rsLow k.forceNibble8 hr
    have h2 := rsLow k.forceNibble8 h1
    have h3 := rsLow k.forceNibble8 h2
    refine ⟨levelsAfter (levelsAfter (levelsAfter (levelsAfter f (writeNibble c d4 d5 d6 d7 k.forceNibble8))
      (writeNibble c d4 d5 d6 d7 k.forceNibble8)) (writeNibble c d4 d5 d6 d7 k.forceNibble8))
      (writeNibble c d4 d5 d6 d7 k.forceNibble4), ?_⟩
    simp only [initForceMode, hd, List.append_assoc, List.cons_append, List.nil_append]
    rw [shown_nibble hc hd _ hr, shown_wait (by simp) (by simp), shown_nibble hc hd _ h1,
      shown_wait (by simp) (by simp), shown_nibble hc hd _ h2, shown_nibble hc hd _ h3, stmtXfers, hm]
    rfl

/-- The sequencer, state Reset first and the states after ForceMode last. -/
theorem sequencer_eq (k : Codes) (d : DisplayState) : sequencer k d sequencerStates =
    initReset d.cfg ++ (.phase .forceMode :: (initForceMode k d.cfg ++
      (.phase .configureFunction :: sequencer k d configureStates))) := by
  simp [sequencer, sequencerStates, configureStates, initState, Phase.following, List.append_assoc]

/-- The latches of a start: one of IR if the trace's last write to EN was a 1 (log 10), the wait that opens it,
and those of the states after Reset, which run with RS and EN low. -/
theorem latches_start {c : DisplayConfig} (hc : c.admitted = true) (s : State) (k : Codes) (sh : Shadows) :
    ∃ x f, (x = none ∨ ∃ b, x = some (false, b)) ∧ f c.rs = some false ∧
      latchTrace c (s.replayStart c) (eventsOf c.wiring 0x00 (sequencer k ⟨c, sh⟩ sequencerStates)) =
        (if (s.replayStart c).up = true then [LatchItem.latch x] else []) ++ LatchItem.wait .tReset ::
          stmtLatches c false f
            (initForceMode k c ++ (.phase .configureFunction :: sequencer k ⟨c, sh⟩ configureStates)) := by
  have hl := drivenLines_sequencer k ⟨c, sh⟩ sequencerStates
  rw [sequencer_eq, drivenLines_append] at hl
  obtain ⟨x, hxv, hx⟩ := latchTrace_start hc s _ fun a h => hl a (List.mem_append_right _ h)
  obtain ⟨hi, hup, hrs, _⟩ := stmtLatches_initReset hc ((s.beginStart c).view.level c)
  refine ⟨x, _, hxv, hrs, ?_⟩
  rw [sequencer_eq, hx, stmtLatches_append _ _ _ (initReset c), hi, hup]
  rfl

/-- The events of an admitted start. -/
def startEvents (k : Codes) (c : DisplayConfig) : List Event :=
  eventsOf c.wiring 0x00 (sequencer k ⟨c, preload k c⟩ sequencerStates)

/-- A start in 4-bit mode: a latch before the first wait, if there is one, is of no pair (log 10). -/
theorem shown_start_four {c : DisplayConfig} (hc : c.admitted = true) (hm : c.busMode = .four) (s : State)
    (k : Codes) : shown (transferTrace c 0 (s.replayStart c) (startEvents k c)) =
      .wait .tReset :: (forceModeItems k ++ [irXfer (k.functionSetOf c)]) ++
        registerWrites k (startedShadows k c) := by
  obtain ⟨x, f, _, hrs, hx⟩ := latches_start hc s k (preload k c)
  obtain ⟨g, hg⟩ := shown_forceMode hc hm k (up := false) hrs
    (.phase .configureFunction :: sequencer k ⟨c, preload k c⟩ configureStates)
  have hopen (is : List LatchItem) : pairLatches 0 none
      ((if (s.replayStart c).up = true then [LatchItem.latch x] else []) ++ LatchItem.wait .tReset :: is) =
        XferItem.wait .tReset :: pairLatches 4 none is := by
    split <;> rfl
  simp only [transferTrace, hm, startEvents, hx, hopen]
  refine (congrArg (XferItem.wait .tReset :: ·) hg).trans ?_
  rw [stmtXfers_phase, shown_configureStates k hc, if_pos hm]
  rfl

/-- A start in 8-bit mode: a latch before the first wait, if there is one, is a transfer (log 10). -/
theorem shown_start_eight {c : DisplayConfig} (hc : c.admitted = true) (hm : c.busMode = .eight) (s : State)
    (k : Codes) : ∃ x, (x = none ∨ ∃ b, x = some (false, b)) ∧
    shown (transferTrace c 0 (s.replayStart c) (startEvents k c)) =
      (if (s.replayStart c).up = true then [XferItem.xfer x] else []) ++
      ([.wait .tReset, irXfer (k.functionSetOf c), .wait .tForce, irXfer (k.functionSetOf c), .wait .tForce,
        irXfer (k.functionSetOf c)] ++ registerWrites k (startedShadows k c)) := by
  obtain ⟨x, f, hxv, _, hx⟩ := latches_start hc s k (preload k c)
  have hforce : initForceMode k c = [] := by
    cases hdata : c.data <;> simp [DisplayConfig.busMode, initForceMode, hdata] at hm ⊢
  have hopen (is : List LatchItem) : shown (wholeLatches
      ((if (s.replayStart c).up = true then [LatchItem.latch x] else []) ++ LatchItem.wait .tReset :: is)) =
        (if (s.replayStart c).up = true then [XferItem.xfer x] else []) ++
          XferItem.wait .tReset :: shown (wholeLatches is) := by
    split <;> rfl
  have hrest := shown_configureStates k hc false f
  rw [stmtXfers, hm] at hrest
  refine ⟨x, hxv, ?_⟩
  simp only [transferTrace, hm, startEvents, hx, hopen, hforce, List.nil_append]
  exact congrArg (_ ++ XferItem.wait .tReset :: ·) hrest

/-- Settles O40. -/
theorem startRunsTheFourBitSequence : Obligations.StartRunsTheFourBitSequence := by
  intro ci s w p c hb hw hp hc ha hm hq
  obtain ⟨t, ht, hleaves, htr⟩ := start_of_quiet hb hw hp hc ha hq
  refine ⟨t, _, ht, htr, hleaves, (shown_start_four ha hm s s.build.codes).trans ?_⟩
  subst hc
  simp only [startedShadows_ofInput, registerWrites, functionSetOf_ofInput, forceModeItems, Codes.forceNibble8,
    Codes.forceNibble4, highNibble_shift, List.cons_append, List.nil_append]

/-- Settles O41. -/
theorem startRunsTheEightBitSequence : Obligations.StartRunsTheEightBitSequence := by
  intro ci s w p c hb hw hp hc ha hm hq
  obtain ⟨t, ht, hleaves, htr⟩ := start_of_quiet hb hw hp hc ha hq
  obtain ⟨x, hxv, hshown⟩ := shown_start_eight ha hm s s.build.codes
  refine ⟨t, _, x, ht, htr, hleaves, hxv, hshown.trans ?_⟩
  subst hc
  simp only [startedShadows_ofInput, registerWrites, functionSetOf_ofInput, List.cons_append, List.nil_append]

/-! ## Totals (R251) -/

theorem length_drivenLines_sequencer (k : Codes) (d : DisplayState) :
    (drivenLines (sequencer k d sequencerStates)).length = (if d.cfg.busMode = .four then 91 else 79) := by
  obtain ⟨h1, h2, h3, h4, h5, h6, h7⟩ := stateCalls_values k d
  have hsum : (drivenLines (sequencer k d sequencerStates)).length =
      stateCalls k d .reset + stateCalls k d .forceMode + stateCalls k d .configureFunction +
        stateCalls k d .configureDisplay + stateCalls k d .clear + stateCalls k d .configureEntryMode +
        stateCalls k d .configureShiftControl := by
    simp only [sequencer, sequencerStates, stateCalls, drivenLines_append, drivenLines, List.length_append,
      List.append_nil]
    omega
  rw [hsum, h1, h2, h3, h4, h5, h6, h7]
  split <;> rfl

theorem stmtWaits_writeNibble (c : DisplayConfig) (d4 d5 d6 d7 : LineId) (v : Byte) :
    stmtWaits (writeNibble c d4 d5 d6 d7 v) = [.tEn, .tEn] := rfl

/-- The waits of a start: the `T_RESET` that opens it, those of its latches, two `T_FORCE` and one `T_CLEAR`. -/
def startWaits : BusMode → List Wait
  | .four => [.tReset, .tEn, .tEn, .tForce, .tEn, .tEn, .tForce, .tEn, .tEn, .tEn, .tEn, .tEn, .tEn, .tEn, .tEn,
      .tEn, .tEn, .tEn, .tEn, .tEn, .tEn, .tEn, .tEn, .tClear, .tEn, .tEn, .tEn, .tEn, .tEn, .tEn, .tEn, .tEn]
  | .eight => [.tReset, .tEn, .tEn, .tForce, .tEn, .tEn, .tForce, .tEn, .tEn, .tEn, .tEn, .tEn, .tEn, .tClear,
      .tEn, .tEn, .tEn, .tEn]

theorem stmtWaits_sequencer (k : Codes) (d : DisplayState) :
    stmtWaits (sequencer k d sequencerStates) = startWaits d.cfg.busMode := by
  cases hdata : d.cfg.data <;>
    simp [sequencer, sequencerStates, initState, initReset, initForceMode, initConfigureFunction, hdata,
      DisplayConfig.busMode, enableFlag, writeShadowed, setFeature, writeIr, stmtWaits, stmtWaits_writeByte,
      stmtWaits_writeNibble, startWaits]

/-- Settles O42: the calls are summed over the states, the waits counted in their list. -/
theorem startEventTotals : Obligations.StartEventTotals := by
  intro ci s w p c hb hw hp hc ha hq
  obtain ⟨t, ht, hleaves, htr⟩ := start_of_quiet hb hw hp hc ha hq
  refine ⟨t, _, ht, htr, hleaves, ?calls, ?_⟩
  case calls => rw [busCalls_eventsOf, length_drivenLines_sequencer]
  simp only [waitCount_eventsOf, minDuration_eventsOf, stmtWaits_sequencer]
  cases c.busMode with
  | four => exact ⟨rfl, rfl, rfl, rfl, fun h => by rw [h]; rfl⟩
  | eight => exact ⟨rfl, rfl, rfl, rfl, fun h => by rw [h]; rfl⟩

/-! ## The shadow invariant of a start (R25) -/

theorem lastWritten_cons (r : Shadow) (i : XferItem) (is : List XferItem) :
    lastWritten r (i :: is) = (lastWritten r is).or (lastWritten r [i]) := by
  rw [lastWritten.eq_def, lastWritten.eq_def r [i]]
  cases h : lastWritten r is <;> simp [h, lastWritten]

theorem lastWritten_append (r : Shadow) (is js : List XferItem) :
    lastWritten r (is ++ js) = (lastWritten r js).or (lastWritten r is) := by
  induction is with
  | nil => simp [lastWritten]
  | cons i is ih => rw [List.cons_append, lastWritten_cons, ih, lastWritten_cons r i is, Option.or_assoc]

/-- With the default codes the registers a start leaves carry their class. -/
theorem class_startedShadows (c : DisplayConfig) (r : Shadow) :
    shadowOfByte ((startedShadows Codes.default c).get r) = some r := by
  cases r with
  | functionSet => exact class_assembled.2.2.2 _ _ _
  | displayControl => exact (by decide : shadowOfByte 0x0C = some .displayControl)
  | entryMode => exact (by decide : shadowOfByte 0x06 = some .entryMode)
  | shiftControl => exact (by decide : shadowOfByte 0x10 = some .shiftControl)

/-- The function set and the four register writes after it are the last bytes of the four classes. -/
theorem lastWritten_registerWrites {k : Codes} {sh : Shadows} (hclear : shadowOfByte k.clear = none)
    (hsh : ∀ r, shadowOfByte (sh.get r) = some r) (r : Shadow) (before : List XferItem)
    (hbefore : lastWritten .functionSet before = some sh.functionSet) :
    lastWritten r (before ++ registerWrites k sh) = some (sh.get r) := by
  have hdc : shadowOfByte sh.displayControl = some .displayControl := hsh .displayControl
  have hem : shadowOfByte sh.entryMode = some .entryMode := hsh .entryMode
  have hsc : shadowOfByte sh.shiftControl = some .shiftControl := hsh .shiftControl
  rw [lastWritten_append]
  cases r <;> simp [registerWrites, irXfer, lastWritten, hclear, hdc, hem, hsc, Shadows.get, hbefore]

/-- Settles O57: in both modes the trace ends with the function set and the four register writes. -/
theorem startEstablishesTheShadowInvariant : Obligations.StartEstablishesTheShadowInvariant := by
  intro ci s w p c hb hcodes hw hp hc ha hq
  obtain ⟨t, ht, hleaves, htr⟩ := start_of_quiet hb hw hp hc ha hq
  have hclass := class_startedShadows c
  have hfs : shadowOfByte (Codes.default.functionSetOf c) = some .functionSet := hclass .functionSet
  refine ⟨t, startEvents s.build.codes c, ⟨c, startedShadows s.build.codes c⟩, ht, htr, ?display,
    fun r => ⟨?carries, ?last⟩⟩
  case display =>
    obtain ⟨_, _, hdisplay, _⟩ := hleaves
    subst hc
    rw [hdisplay, startedShadows_ofInput]
  case carries => rw [hcodes]; exact hclass r
  case last =>
    rw [hcodes]
    cases hm : c.busMode with
    | four =>
      rw [shown_start_four ha hm s]
      refine lastWritten_registerWrites (by decide) hclass r _ ?_
      change _ = some (Codes.default.functionSetOf c)
      simp [forceModeItems, lastWritten, irXfer, hfs]
    | eight =>
      obtain ⟨x, _, hx⟩ := shown_start_eight ha hm s Codes.default
      rw [hx, ← List.append_assoc]
      refine lastWritten_registerWrites (by decide) hclass r _ ?_
      change _ = some (Codes.default.functionSetOf c)
      simp [lastWritten_append, lastWritten, irXfer, hfs]

/-! ## stop -/

/-- Settles O44: one byte through the display-control shadow, then the release, which moves no line. -/
theorem stopSendsDisplayOffThenReleases : Obligations.StopSendsDisplayOffThenReleases := by
  intro s d h hq
  have hl := drivenLines_expand d.cfg
    [.assign .displayControl (clearFlags (d.sh.get .displayControl) s.build.codes.dcDisplay),
      .byte false (clearFlags (d.sh.get .displayControl) s.build.codes.dcDisplay)]
  have hkept := kept_applyStmts s hl
  refine ⟨_, _, exec_stop_of_quiet h hq, applyStmts_trace _ _ _, ?items, rfl, rfl, by simp, ?en, ?rs,
    ⟨hkept.build, hkept.inbox, hkept.emission, hkept.freeIx, hkept.answers, hkept.image, hkept.combined,
      hkept.lines⟩⟩
  case items =>
    rw [transferTrace_eventsOf h.admitted s hl, stmtXfers_expand h.admitted _ _ (by simp)]
    rfl
  case en =>
    refine (level_applyStmts h.admitted hl (en_mem_lineIds _)).trans ?_
    simp only [expand, Piece.stmts, List.cons_append, List.nil_append, List.append_nil, levelsAfter]
    exact levelsAfter_writeByte_en h.admitted _ _ _
  case rs =>
    refine (level_applyStmts h.admitted hl (rs_mem_lineIds _)).trans ?_
    simp only [expand, Piece.stmts, List.cons_append, List.nil_append, List.append_nil, levelsAfter]
    exact levelsAfter_writeByte_rs h.admitted _ _ _

end Sys2Proof.Machine
end

section
/-!
PROOFS of the family "other", the observations of a request (O51 to O55): its events on discrete lines, its costs,
the levels it leaves, and what the bus mode and the transport do not change.
-/

namespace Sys2Proof.Machine

/-! ## One transfer, event by event (R110 to R113) -/

/-- The latch pulse on discrete lines. -/
def pulseEvents (c : DisplayConfig) : List Event :=
  [.line c.en true, .wait .tEn, .line c.en false, .wait .tEn]

/-- The nibble primitive takes a nibble from bits 7..4 of its payload: these are the bits of the byte. -/
theorem nibble_bits (b : Byte) {j : Nat} (hj : j < 4) :
    (highNibble b).getLsbD (j + 4) = b.getLsbD (j + 4) ∧ (lowNibble b).getLsbD (j + 4) = b.getLsbD j := by
  have hmask : (0xF0 : Byte).getLsbD (j + 4) = true := by interval_cases j <;> rfl
  simp only [highNibble, lowNibble, BitVec.getLsbD_and, BitVec.getLsbD_shiftLeft, hmask, Bool.and_true,
    Nat.add_sub_cancel, true_and]
  simp [show j + 4 < 8 by omega]

/-- A transfer in 4-bit mode: RS, then the high nibble and the low nibble, each with its pulse. -/
theorem eventsOf_writeByte_four {c : DisplayConfig} {d4 d5 d6 d7 : LineId} (hd : c.data = .four d4 d5 d6 d7)
    (image : Byte) (b : Byte) (r : Bool) : eventsOf .discrete image (writeByte c b r) =
      Event.line c.rs r ::
        ([Event.line d4 (b.getLsbD 4), Event.line d5 (b.getLsbD 5), Event.line d6 (b.getLsbD 6),
            Event.line d7 (b.getLsbD 7)] ++ pulseEvents c ++
          ([Event.line d4 (b.getLsbD 0), Event.line d5 (b.getLsbD 1), Event.line d6 (b.getLsbD 2),
            Event.line d7 (b.getLsbD 3)] ++ pulseEvents c)) := by
  have h0 := nibble_bits b (j := 0) (by omega)
  have h1 := nibble_bits b (j := 1) (by omega)
  have h2 := nibble_bits b (j := 2) (by omega)
  have h3 := nibble_bits b (j := 3) (by omega)
  simp only [Nat.zero_add, Nat.reduceAdd] at h0 h1 h2 h3
  simp only [writeByte, hd, writeNibble, dataBits, pulseEn, eventsOf, pulseEvents, List.cons_append,
    List.nil_append, Nat.reduceAdd, h0, h1, h2, h3]

/-- A transfer in 8-bit mode: RS, then the eight data lines and one pulse. -/
theorem eventsOf_writeByte_eight {c : DisplayConfig} {d0 d1 d2 d3 d4 d5 d6 d7 : LineId}
    (hd : c.data = .eight d0 d1 d2 d3 d4 d5 d6 d7) (image : Byte) (b : Byte) (r : Bool) :
    eventsOf .discrete image (writeByte c b r) =
      Event.line c.rs r :: ([Event.line d0 (b.getLsbD 0), Event.line d1 (b.getLsbD 1), Event.line d2 (b.getLsbD 2),
          Event.line d3 (b.getLsbD 3)] ++
        [Event.line d4 (b.getLsbD 4), Event.line d5 (b.getLsbD 5), Event.line d6 (b.getLsbD 6),
          Event.line d7 (b.getLsbD 7)] ++ pulseEvents c) := by
  simp [writeByte, hd, writeBus8, dataBits, pulseEn, eventsOf, pulseEvents]

theorem eventsOf_append_discrete (image : Byte) (l l' : List Stmt) :
    eventsOf .discrete image (l ++ l') = eventsOf .discrete image l ++ eventsOf .discrete image l' := by
  induction l with
  | nil => rfl
  | cons st l ih => cases st <;> simp [eventsOf, ih]

/-- Where a transfer has the given events, so has every request and emitted byte that sends one. -/
theorem sends_events {s : State} {d : DisplayState} {events : Bool → Byte → List Event}
    (hd : s.display = some d) (hq : BusQuiet s) (hw : d.cfg.wiring = .discrete)
    (hev : ∀ r b, eventsOf .discrete s.image (writeByte d.cfg b r) = events r b) :
    (∀ (r : Bool) (b : Byte), ∃ t, runStmts d.cfg.wiring (writeByte d.cfg b r) s = .done t ∧
      t.trace = s.trace ++ events r b) ∧
    (s.phase = .ready →
      (∃ t, exec .clear s = .next t ∧
        t.trace = s.trace ++ (events false s.build.codes.clear ++ [.wait .tClear])) ∧
      (∃ t, exec .home s = .next t ∧
        t.trace = s.trace ++ (events false s.build.codes.home ++ [.wait .tClear]))) ∧
    (∀ (i : Instr) (k : DataKind) (b : Byte), encode i = .emitted (.dr8 k b) → EmittedIn s i →
      ∃ t, exec i s = .next t ∧ t.trace = s.trace ++ events true b) ∧
    (∀ (i : Instr) (b : Byte), encode i = .emitted (.ir8 b) → EmittedIn s i →
      s.build.codes = Codes.default → ∃ t, exec i s = .next t ∧ t.trace = s.trace ++ events false b) := by
  have trace (l : List Stmt) : (applyStmts d.cfg.wiring l s).trace = s.trace ++ eventsOf .discrete s.image l := by
    rw [applyStmts_trace, hw]
  have byteThenClear (hp : s.phase = .ready) {i : Instr} {b : Byte} (hi : i.isOperation = true)
      (hpl : plan s.build d.sh d.cfg i = .run [.byte false b, .wait .tClear]) :
      ∃ t, exec i s = .next t ∧ t.trace = s.trace ++ (events false b ++ [.wait .tClear]) := by
    refine ⟨_, by rw [exec_operation hi hp hd, hpl]; exact runOperation_quiet hq _, ?_⟩
    rw [State.reply_trace, trace, ← hev]
    exact congrArg (s.trace ++ ·) (eventsOf_append_discrete s.image (writeByte d.cfg b false) _)
  have emitted {i : Instr} {ps : List Piece} {r : Bool} {b : Byte} (hps : emitPieces s.build i = some ps)
      (hin : EmittedIn s i) (hsent : eventsOf .discrete s.image (expand d.cfg ps) = events r b) :
      ∃ t, exec i s = .next t ∧ t.trace = s.trace ++ events r b := by
    refine ⟨applyStmts d.cfg.wiring (expand d.cfg ps) s, ?_, by rw [trace, hsent]⟩
    rw [exec_emitPieces hps, (emitAllowed_iff hps).mpr hin]
    simp [State.emitTransfer, State.withDisplay, hd, runStmts_quiet hq]
  have oneByte (r : Bool) (b : Byte) : eventsOf .discrete s.image (expand d.cfg [.byte r b]) = events r b := by
    rw [← hev]; simp [expand, Piece.stmts]
  refine ⟨fun r b => ⟨_, runStmts_quiet hq, by rw [trace, hev]⟩,
    fun hp => ⟨byteThenClear hp rfl rfl, byteThenClear hp rfl rfl⟩,
    fun i k b hi hin => ?data, fun i b hi hin hcodes => ?instruction⟩
  case data =>
    cases i <;> simp only [encode, InstrWord.emitted.injEq, EmitWord.dr8.injEq, reduceCtorEq] at hi
    case dataChar c => obtain ⟨_, rfl⟩ := hi; exact emitted rfl hin (oneByte true _)
    case dataBitmapRow c => obtain ⟨_, rfl⟩ := hi; exact emitted rfl hin (oneByte true _)
  case instruction =>
    rcases emitPieces_ir8 hcodes hi with hps | ⟨r, hps⟩
    · exact emitted hps hin (oneByte false b)
    · exact emitted hps hin (oneByte false b)

/-- Calls, waits and minimum duration of one transfer (R118). -/
theorem writeByte_costs (t : Timing) (w : Wiring) (image : Byte) (c : DisplayConfig) (b : Byte) (r : Bool) :
    busCalls (eventsOf w image (writeByte c b r)) = (if c.busMode = .four then 13 else 11) ∧
    waitCount .tEn (eventsOf w image (writeByte c b r)) = (if c.busMode = .four then 4 else 2) ∧
    minDuration t (eventsOf w image (writeByte c b r)) = (if c.busMode = .four then 4 else 2) * t.tEn := by
  rw [busCalls_eventsOf, length_drivenLines_writeByte, waitCount_eventsOf, minDuration_eventsOf,
    stmtWaits_writeByte]
  split
  · exact ⟨rfl, rfl, by simp only [List.map_cons, List.map_nil, List.sum_cons, List.sum_nil, waitMs]; omega⟩
  · exact ⟨rfl, rfl, by simp only [List.map_cons, List.map_nil, List.sum_cons, List.sum_nil, waitMs]; omega⟩

/-- Settles O51: the events of a transfer in each mode, what sends one, and its costs. -/
theorem oneTransferIsTheseLineEvents : Obligations.OneTransferIsTheseLineEvents := by
  intro s d hd hq hw hi lo pulse sends
  refine ⟨fun d4 d5 d6 d7 hdata => ?four, fun d0 d1 d2 d3 d4 d5 d6 d7 hdata => ?eight⟩
  case four =>
    have hm : d.cfg.busMode = .four := by simp [DisplayConfig.busMode, hdata]
    refine ⟨sends_events hd hq hw fun r b => eventsOf_writeByte_four hdata s.image b r, fun r v => ?_⟩
    have hcosts := writeByte_costs s.build.timing .discrete s.image d.cfg v r
    rw [eventsOf_writeByte_four hdata, hm] at hcosts
    exact hcosts
  case eight =>
    have hm : d.cfg.busMode = .eight := by simp [DisplayConfig.busMode, hdata]
    refine ⟨sends_events hd hq hw fun r b => eventsOf_writeByte_eight hdata s.image b r, fun r v => ?_⟩
    have hcosts := writeByte_costs s.build.timing .discrete s.image d.cfg v r
    rw [eventsOf_writeByte_eight hdata, hm] at hcosts
    exact hcosts

/-! ## Costs (R118, R176) -/

/-- Hiding the `T_EN` waits hides no transfer. -/
theorem countP_shown (is : List XferItem) : (shown is).countP XferItem.isXfer = is.countP XferItem.isXfer := by
  rw [shown, List.countP_filter]
  refine List.countP_congr fun i _ => ?_
  cases i <;> simp [XferItem.isXfer]

/-- The only waits of an Operation besides those of its transfers are the `T_CLEAR` of clear and home. -/
theorem pieceWaits_plan {b : Build} {sh : Shadows} {c : DisplayConfig} {i : Instr} {ps : List Piece}
    (hpl : plan b sh c i = .run ps) :
    pieceWaits ps = if i = .clear ∨ i = .home then [.tClear] else [] := by
  cases i <;> simp only [plan] at hpl
  case write =>
    obtain ⟨_, codes, _, rfl⟩ := plan_write_run (b := b) (sh := sh) (c := c) hpl
    exact pieceWaits_bytes codes
  case clear | home | setCursor => cases hpl; rfl
  case scroll => cases hpl; exact pieceWaits_shiftPieces _ _
  case moveLeft | moveRight => split at hpl <;> cases hpl; exact pieceWaits_shiftPieces _ _
  case enable | disable => split at hpl <;> cases hpl; rfl
  case createChar => split at hpl <;> cases hpl; exact pieceWaits_bytes _
  all_goals cases hpl

theorem plan_clear_home_run {b : Build} {sh : Shadows} {c : DisplayConfig} {i : Instr}
    (hpl : plan b sh c i = .unsupported) : ¬ (i = .clear ∨ i = .home) := by
  rintro (rfl | rfl)
  · cases hpl
  · cases hpl

/-- Settles O52: calls and waits are counted over the parts of the plan, transfers over their items. -/
theorem eachTransferHasItsCost : Obligations.EachTransferHasItsCost := by
  intro i s t d ev hi h hq hx htr n
  rcases operation_events hi h hq hx htr with ⟨hpl, rfl, rfl⟩ | ⟨ps, hpl, rfl, rfl⟩
  · have hn : n = 0 := by simp [n, transferTrace_nil]
    rw [hn, if_neg (plan_clear_home_run hpl)]
    simp [busCalls, waitCount]
  · have hn : n = byteCount ps := by
      rw [← countP_itemsOf, ← countP_shown, ← shown_events_of_plan h hpl, countP_shown]
    rw [hn, busCalls_eventsOf, length_drivenLines_expand]
    simp only [waitCount_eventsOf, count_stmtWaits_expand, pieceWaits_plan hpl]
    split <;> simp

/-! ## The levels after a request (R38, R55, R56) -/

/-- What a transfer leaves on the lines. -/
def HoldsTransfer (c : DisplayConfig) (f : Levels) (x : Bool × Byte) : Prop :=
  f c.rs = some x.1 ∧ f c.en = some false ∧
    c.data.ids.map f = (if c.busMode = .four then [0, 1, 2, 3] else [0, 1, 2, 3, 4, 5, 6, 7]).map
      (fun k => some (x.2.getLsbD k))

theorem holdsTransfer_writeByte {c : DisplayConfig} (hc : c.admitted = true) (f : Levels) (b : Byte) (r : Bool) :
    HoldsTransfer c (levelsAfter f (writeByte c b r)) (r, b) :=
  ⟨levelsAfter_writeByte_rs hc f b r, levelsAfter_writeByte_en hc f b r, levelsAfter_writeByte_data hc f b r⟩

/-- The transfers of parts, in order. -/
def bytesOf : List Piece → List (Bool × Byte)
  | [] => []
  | .assign _ _ :: ps => bytesOf ps
  | .byte rs b :: ps => (rs, b) :: bytesOf ps
  | .wait _ :: ps => bytesOf ps

theorem filter_itemsOf (ps : List Piece) :
    (itemsOf ps).filter XferItem.isXfer = (bytesOf ps).map (fun x => .xfer (some x)) := by
  induction ps with
  | nil => rfl
  | cons p ps ih => cases p <;> simp [itemsOf, bytesOf, List.filter_cons, XferItem.isXfer, ih]

theorem filter_shown (is : List XferItem) : (shown is).filter XferItem.isXfer = is.filter XferItem.isXfer := by
  rw [shown, List.filter_filter]
  refine List.filter_congr fun i _ => ?_
  cases i <;> simp [XferItem.isXfer]

/-- On lines that hold a transfer, parts leave their last one, or that one if they have none. -/
theorem holdsTransfer_expand {c : DisplayConfig} (hc : c.admitted = true) (ps : List Piece) {f : Levels}
    {x : Bool × Byte} (h : HoldsTransfer c f x) :
    HoldsTransfer c (levelsAfter f (expand c ps)) ((bytesOf ps).getLastD x) := by
  induction ps generalizing f x with
  | nil => exact h
  | cons p ps ih =>
    rw [expand, levelsAfter_append]
    cases p with
    | byte r b =>
      rw [bytesOf, List.getLastD_cons]
      exact ih (holdsTransfer_writeByte hc f b r)
    | assign r v => exact ih h
    | wait t => exact ih h

/-- Parts with a transfer leave their last one, whatever the lines held before. -/
theorem holdsTransfer_of_last {c : DisplayConfig} (hc : c.admitted = true) (ps : List Piece) (f : Levels)
    {x : Bool × Byte} (h : (bytesOf ps).getLast? = some x) : HoldsTransfer c (levelsAfter f (expand c ps)) x := by
  induction ps generalizing f with
  | nil => cases h
  | cons p ps ih =>
    rw [expand, levelsAfter_append]
    cases p with
    | byte r b =>
      rw [bytesOf, List.getLast?_cons, Option.some.injEq] at h
      rw [← h, ← List.getLastD_eq_getLast?]
      exact holdsTransfer_expand hc ps (holdsTransfer_writeByte hc f b r)
    | assign r v => exact ih f h
    | wait t => exact ih f h

/-- The levels of a state after parts ran, if its view is theirs. -/
theorem levels_after_parts {s t : State} {d : DisplayState} {ps : List Piece} {r : Bool} {b : Byte}
    (ha : d.cfg.admitted = true) (hview : t.view = (applyStmts d.cfg.wiring (expand d.cfg ps) s).view)
    (hps : .wait .tReset ∉ ps)
    (hlast : ((transferTrace d.cfg 0 (s.replay d.cfg) (eventsOf d.cfg.wiring s.image (expand d.cfg ps))).filter
      XferItem.isXfer).getLast? = some (.xfer (some (r, b)))) :
    t.view.level d.cfg d.cfg.rs = some r ∧ t.view.level d.cfg d.cfg.en = some false ∧
      d.cfg.data.ids.map (t.view.level d.cfg) =
        (if d.cfg.busMode = .four then [0, 1, 2, 3] else [0, 1, 2, 3, 4, 5, 6, 7]).map
          (fun k => some (b.getLsbD k)) := by
  have hl := drivenLines_expand d.cfg ps
  rw [← filter_shown, transferTrace_eventsOf ha s hl, stmtXfers_expand ha _ _ hps, filter_shown, filter_itemsOf,
    List.getLast?_map, Option.map_eq_some_iff] at hlast
  obtain ⟨x, hx, hxe⟩ := hlast
  simp only [XferItem.xfer.injEq, Option.some.injEq] at hxe
  subst hxe
  obtain ⟨hrs, hen, hdata⟩ := holdsTransfer_of_last ha ps (s.view.level d.cfg) hx
  have level {a : LineId} (ha' : a ∈ d.cfg.lineIds) : t.view.level d.cfg a =
      levelsAfter (s.view.level d.cfg) (expand d.cfg ps) a := by
    rw [hview]; exact level_applyStmts ha hl ha'
  refine ⟨(level (rs_mem_lineIds _)).trans hrs, (level (en_mem_lineIds _)).trans hen, ?_⟩
  exact (List.map_congr_left fun a ha' => level (data_mem_lineIds ha')).trans hdata

/-- Settles O53: an Operation and `stop` both run parts, and the release moves no line. -/
theorem linesHoldTheLastTransfer : Obligations.LinesHoldTheLastTransfer := by
  intro i s t d ev r b hi h hq hx htr hlast
  rcases hi with hi | rfl
  · rcases operation_events hi h hq hx htr with ⟨_, _, rfl⟩ | ⟨ps, hpl, rfl, rfl⟩
    · rw [transferTrace_nil] at hlast; cases hlast
    · exact levels_after_parts h.admitted rfl (plan_noReset hpl) hlast
  · rw [exec_stop_of_quiet h hq] at hx
    cases hx
    have hev := events_of_trace (l := expand d.cfg _) htr
    subst hev
    exact levels_after_parts h.admitted rfl (by simp) hlast

/-! ## The bus mode and the transport -/

theorem mapGrapheme_congr {b b' : Build} (ht : b'.charTable = b.charTable) (hl : b'.lowcode = b.lowcode)
    (g : Grapheme) : mapGrapheme b' g = mapGrapheme b g := by
  simp only [mapGrapheme, mapMultiByte, charTable, ht, hl]

theorem mapText_congr {b b' : Build} (ht : b'.charTable = b.charTable) (hl : b'.lowcode = b.lowcode)
    (text : List Grapheme) : mapText b' text = mapText b text := by
  induction text with
  | nil => rfl
  | cons g gs ih => simp only [mapText, mapGrapheme_congr ht hl, ih]

/-- A plan depends on the codes, the features, the character table and its policy, the registers and the
geometry: on nothing of the lines, the bus mode or the transport. -/
theorem plan_congr {b b' : Build} (hcodes : b'.codes = b.codes) (hfeatures : b'.features = b.features)
    (ht : b'.charTable = b.charTable) (hl : b'.lowcode = b.lowcode) {c c' : DisplayConfig}
    (hrows : c'.rows = c.rows) (hcols : c'.cols = c.cols) (sh : Shadows) (i : Instr) :
    plan b' sh c' i = plan b sh c i := by
  cases i <;> simp only [plan, hcodes, featureOf, hfeatures, mapText_congr ht hl, ddramAddress, hrows, hcols]

/-- Settles O55: both displays carry out the same plan. -/
theorem modeAndTransportDoNotChangeTheTransfers : Obligations.ModeAndTransportDoNotChangeTheTransfers := by
  intro i s s' t d d' ev hi h h' hq hq' hcodes hfeatures htable hlow hsh hrows hcols hx htr
  have hplan : plan s'.build d'.sh d'.cfg i = plan s.build d.sh d.cfg i := by
    rw [hsh]; exact plan_congr hcodes hfeatures htable hlow hrows hcols d.sh i
  rcases operation_events hi h hq hx htr with ⟨hpl, rfl, rfl⟩ | ⟨ps, hpl, rfl, rfl⟩
  · refine ⟨s'.reply .unsupported, [], .unsupported,
      exec_of_plan_unsupported hi h'.phase h'.display (hplan.trans hpl), by simp, ?_, by simp, by simp, ?_⟩
    · rw [transferTrace_nil, transferTrace_nil]
    · simp [h.display, h'.display, hsh]
  · have hpl' := hplan.trans hpl
    obtain ⟨t', ev', ht', htr', hitems', hreplies', _, hdisplay', _⟩ := completes_of_plan hi h' hq' hpl'
    refine ⟨t', ev', .ok, ht', htr', ?_, by simp, hreplies', ?_⟩
    · rw [hitems', shown_events_of_plan h hpl]
    · simp [hdisplay', applyStmts_display, h.display, shadowsAfter_expand, hsh]

/-! ## The combined transport (R120) -/

/-- The substitution of R120 turns the discrete events of statements into their combined ones. -/
theorem registerEvents_eventsOf (p : CombinedParams) (l : List Stmt) (image image0 : Byte) :
    registerEvents p image (eventsOf .discrete image0 l) = eventsOf (.combined p) image l := by
  induction l generalizing image with
  | nil => rfl
  | cons st l ih =>
    cases st with
    | line a v => simp only [eventsOf, registerEvents, ih]; rfl
    | wait t => simp only [eventsOf, registerEvents, ih]
    | assign r v => exact ih image
    | phase q => exact ih image

/-- A configuration behind the combined transport. -/
def DisplayConfig.behind (c : DisplayConfig) (p : CombinedParams) : DisplayConfig := { c with wiring := .combined p }

theorem expand_behind (c : DisplayConfig) (p : CombinedParams) (ps : List Piece) :
    expand (c.behind p) ps = expand c ps := by
  induction ps with
  | nil => rfl
  | cons q ps ih => rw [expand, expand, ih]; cases q <;> rfl

/-- The sequencer's statements do not depend on the transport. -/
theorem sequencer_behind (k : Codes) (c : DisplayConfig) (p : CombinedParams) :
    sequencer k ⟨c.behind p, preload k (c.behind p)⟩ sequencerStates =
      sequencer k ⟨c, preload k c⟩ sequencerStates := rfl

/-- A run of the same statements behind the combined transport makes the substituted events. -/
theorem combined_trace {p : CombinedParams} {l : List Stmt} {s s' : State} {ev : List Event}
    (hev : (applyStmts .discrete l s).trace = s.trace ++ ev) :
    (applyStmts (.combined p) l s').trace = s'.trace ++ registerEvents p s'.image ev := by
  rw [events_of_trace hev, registerEvents_eventsOf, applyStmts_trace]

theorem emitPieces_congr {b b' : Build} (h : b'.codes = b.codes) (i : Instr) :
    emitPieces b' i = emitPieces b i := by
  cases i <;> simp only [emitPieces, h]

theorem emitNibble_congr {b b' : Build} (h : b'.codes = b.codes) (i : Instr) :
    emitNibble b' i = emitNibble b i := by
  cases i <;> simp only [emitNibble, h]

theorem emitAllowed_congr {s s' : State} (hp : s'.phase = s.phase) (hf : s'.build.features = s.build.features)
    (i : Instr) : emitAllowed s' i = emitAllowed s i := by
  cases i <;> simp only [emitAllowed, readyOr, shadowedIn, ownsFeature, hp, hf]

/-- Settles O54: each effect runs statements that do not depend on the transport, so the same instruction runs
them behind the combined one. -/
theorem combinedTransportSubstitutesRegisterWrites : Obligations.CombinedTransportSubstitutesRegisterWrites := by
  refine ⟨fun i s s' t d p ev hns hq hq' hphase hd hw hd' hcodes hfeatures htable hlow hx htr => ?onDisplay,
    fun ci s s' t p ev q hq hq' htr0 hbuild hpins ha' hx htr => ?start⟩
  case onDisplay =>
    replace hd' : s'.display = some { d with cfg := d.cfg.behind p } := hd'
    have hplan : plan s'.build d.sh (d.cfg.behind p) i = plan s.build d.sh d.cfg i :=
      plan_congr hcodes hfeatures htable hlow rfl rfl d.sh i
    cases exec_next hx with
    | configError c why hi => exact absurd hi (hns c)
    | start c hi => exact absurd hi (hns c)
    | unsupported hi hp d0 hd0 hpl ht =>
      cases hd.symm.trans hd0
      have hev : ev = [] := by simpa [ht] using htr
      subst hev
      exact ⟨_, exec_of_plan_unsupported hi (hphase.trans hp) hd' (hplan.trans hpl), by simp [registerEvents]⟩
    | operation hi hp d0 hd0 ps hpl he =>
      cases hd.symm.trans hd0
      rw [ended_of_quiet hq he, hw] at htr
      refine ⟨(applyStmts (.combined p) (expand d.cfg ps) s').reply .ok, ?_, combined_trace htr⟩
      rw [exec_operation hi (hphase.trans hp) hd', hplan, hpl, ← expand_behind d.cfg p ps]
      exact runOperation_quiet hq' _
    | stop hi hp d0 hd0 he =>
      cases hd.symm.trans hd0
      subst hi
      rw [ended_of_quiet hq he, hw] at htr
      refine ⟨(applyStmts (.combined p) (disableFlag d .displayControl s.build.codes.dcDisplay) s').release.reply .ok,
        ?_, combined_trace htr⟩
      simp only [exec, execStop, hphase.trans hp, if_true, State.withDisplay, hd', runStmts_quiet hq', hcodes]
      rfl
    | emitByte ps hi ha d0 hd0 he =>
      cases hd.symm.trans hd0
      rw [ended_of_quiet hq he, hw] at htr
      refine ⟨applyStmts (.combined p) (expand d.cfg ps) s', ?_, combined_trace htr⟩
      rw [exec_emitPieces ((emitPieces_congr hcodes i).trans hi), emitAllowed_congr hphase hfeatures, ha]
      simp only [State.emitTransfer, State.withDisplay, hd', runStmts_quiet hq', if_true, expand_behind]
      rfl
    | emitNibble v hi hp d0 hd0 d4 d5 d6 d7 hdl he =>
      cases hd.symm.trans hd0
      rw [ended_of_quiet hq he, hw] at htr
      refine ⟨applyStmts (.combined p) (writeNibble d.cfg d4 d5 d6 d7 v) s', ?_, combined_trace htr⟩
      rw [exec_emitNibble ((emitNibble_congr hcodes i).trans hi)]
      have hdl' : (d.cfg.behind p).data = .four d4 d5 d6 d7 := hdl
      simp only [State.forceNibble, hphase.trans hp, if_true, State.emitTransfer, State.withDisplay, hd',
        forceNibbleBody, hdl', runStmts_quiet hq']
      rfl
  case start =>
    cases exec_next hx with
    | start ci' hi hb w hw q' hq0 c hc ha he =>
      cases hi
      cases hpins.symm.trans hq0
      have hwd : w = .discrete := by simpa [wiringOf, htr0] using hw.symm
      subst hwd
      subst hc
      have hb' : buildAdmitted s'.build = true := by rw [hbuild]; exact hb
      have hw' : wiringOf s'.build = some (.combined p) := by rw [hbuild]; rfl
      have hcodes : s'.build.codes = s.build.codes := by rw [hbuild]
      have hq0 : BusQuiet (s.beginStart (DisplayConfig.ofInput ci q .discrete)) := hq
      rw [ended_of_quiet hq0 he] at htr
      refine ⟨_, (exec_start hb' hw' hpins rfl ha').trans (runStart_of_quiet hq'), ?_⟩
      rw [hcodes]
      exact combined_trace (s := s.beginStart (DisplayConfig.ofInput ci q .discrete))
        (s' := s'.beginStart (DisplayConfig.ofInput ci q (.combined p))) htr
    | configError c why hi hp => cases hi; cases hpins.symm.trans hp
    | unsupported hi => cases hi
    | operation hi => cases hi
    | stop hi => cases hi
    | emitByte ps hi => cases hi
    | emitNibble v hi => cases hi

end Sys2Proof.Machine
end

section
/-!
PROOFS of the family "other", bus calls that fail (O58 to O60): what statements leave whose `k`-th call fails, and
with it what an Operation, `stop` and `start` answer.
-/

namespace Sys2Proof.Machine

/-! ## Statements whose `k`-th call fails -/

@[simp] theorem quieted_build (s : State) : (quieted s).build = s.build := rfl
@[simp] theorem quieted_display (s : State) : (quieted s).display = s.display := rfl
@[simp] theorem failsAfter_build (s : State) (k : Nat) (e : BusErrorValue) :
    (failsAfter s k e).build = s.build := rfl
@[simp] theorem failsAfter_display (s : State) (k : Nat) (e : BusErrorValue) :
    (failsAfter s k e).display = s.display := rfl

theorem busQuiet_quieted (s : State) : BusQuiet (quieted s) := fun _ h => absurd h List.not_mem_nil

/-- What statements `l` from `s` leave in `f` when their `k`-th call fails, those before it being `before`. -/
structure StoppedAt (c : DisplayConfig) (l : List Stmt) (s : State) (k : Nat) (before : List Stmt) (f : State) :
    Prop where
  trace : f.trace = s.trace ++ throughCall (k + 1) (eventsOf c.wiring s.image l) ++ [.fail]
  replies : f.replies = s.replies
  phase : f.phase = phaseAfter before s.phase
  display : f.display = s.display.map fun d => { d with sh := shadowsAfter before d.sh }
  levels : OldOrNew f c s.view (throughCall (k + 1) (eventsOf c.wiring s.image l))
  kept : KeptOnFailure s f c

/-- Statements on configured lines whose `k`-th call (from 0) fails stop there. -/
theorem runStmts_stoppedAt {c : DisplayConfig} (hc : c.admitted = true) {l : List Stmt} {s : State} {k : Nat}
    {e : BusErrorValue} (hanswers : s.busAnswers = List.replicate k .ok ++ [.error e])
    (hl : ∀ a ∈ drivenLines l, a ∈ c.lineIds) (hk : k < (drivenLines l).length) :
    ∃ before a v after f, l = before ++ .line a v :: after ∧ (drivenLines before).length = k ∧
      runStmts c.wiring l s = .failed f e ∧ StoppedAt c l s k before f := by
  obtain ⟨before, a, v, after, rfl, hcalls, hrun⟩ := runStmts_failsAt c.wiring e l s k hanswers hk
  have hevents := throughCall_eventsOf c.wiring a v after before s.image
  have hlines : ∀ x ∈ drivenLines (before ++ [.line a v]), x ∈ c.lineIds := fun x hx =>
    hl x (by simp only [drivenLines_append, drivenLines, List.mem_append, List.mem_cons] at hx ⊢; tauto)
  obtain ⟨himage, hcombined, hothers⟩ := failedCall_kept s hlines
  rw [hcalls] at hevents
  refine ⟨before, a, v, after, _, rfl, hcalls, hrun, ?trace, by simp, by simp [applyStmts_phase],
    by simp [applyStmts_display], ?levels, by simp, by simp, by simp, ?answers, by simp, himage, hcombined, hothers⟩
  case trace => rw [hevents]; exact failedCall_applyStmts_trace c.wiring a v before s
  case levels => rw [hevents]; exact failedCall_view_levels hc hlines (stands_view c s)
  case answers => simp [applyStmts_busAnswers, hcalls, hanswers]

/-- Closing a request by a bus error leaves what the failed call left but the phase and one more reply. -/
theorem StoppedAt.takeBusError {c : DisplayConfig} {l before : List Stmt} {s f : State} {k : Nat}
    (h : StoppedAt c l s k before f) (r : Reply) :
    ∃ t, f.takeBusError r = .next t ∧
      t.trace = s.trace ++ throughCall (k + 1) (eventsOf c.wiring s.image l) ++ [.fail] ∧ t.phase = .faulted ∧
      t.replies = s.replies ++ [r] ∧
      t.display = (s.display.map fun d => { d with sh := shadowsAfter before d.sh }) ∧
      OldOrNew t c s.view (throughCall (k + 1) (eventsOf c.wiring s.image l)) ∧ KeptOnFailure s t c :=
  ⟨_, rfl, h.trace, rfl, congrArg (· ++ [r]) h.replies, h.display, h.levels, h.kept⟩

/-! ## An Operation (R212, R217) -/

/-- Before each of the bytes of the parts, the shadow registers are already those they leave. -/
def AssignsFirst (ps : List Piece) : Prop :=
  ∀ qs r b rs, ps = qs ++ .byte r b :: rs → ∀ sh, shadowsOf qs sh = shadowsOf ps sh

theorem assignsFirst_nil : AssignsFirst [] := by
  intro qs r b rs h
  simp at h

/-- A byte first, then parts that leave every register. -/
theorem AssignsFirst.byte {ps : List Piece} (h : AssignsFirst ps) (hkeep : ∀ sh, shadowsOf ps sh = sh) (r : Bool)
    (b : Byte) : AssignsFirst (.byte r b :: ps) := by
  intro qs r' b' rs heq sh
  cases qs with
  | nil => exact (hkeep sh).symm
  | cons q qs =>
    rw [List.cons_append, List.cons.injEq] at heq
    obtain ⟨rfl, heq⟩ := heq
    exact h qs r' b' rs heq sh

/-- A write through a shadow register, then parts that leave the value it has. -/
theorem AssignsFirst.shadowed {ps : List Piece} (h : AssignsFirst ps) {r : Shadow} {v : Byte}
    (hkeep : ∀ sh : Shadows, shadowsOf ps (sh.set r v) = sh.set r v) :
    AssignsFirst (.assign r v :: .byte false v :: ps) := by
  intro qs r' b' rs heq sh
  cases qs with
  | nil => cases heq
  | cons q qs =>
    rw [List.cons_append, List.cons.injEq] at heq
    obtain ⟨rfl, heq⟩ := heq
    cases qs with
    | nil => exact (hkeep sh).symm
    | cons q qs =>
      rw [List.cons_append, List.cons.injEq] at heq
      obtain ⟨rfl, heq⟩ := heq
      exact h qs r' b' rs heq (sh.set r v)

theorem assignsFirst_wait {t : Wait} : AssignsFirst [.wait t] := by
  intro qs r b rs h
  cases qs <;> simp at h

theorem assignsFirst_bytes (bs : List Byte) : AssignsFirst (bs.map (.byte true)) := by
  induction bs with
  | nil => exact assignsFirst_nil
  | cons b bs ih => exact ih.byte (shadowsOf_bytes bs) true b

theorem assignsFirst_shiftPieces (v : Byte) (n : Nat) : AssignsFirst (shiftPieces v n) := by
  induction n with
  | zero => exact assignsFirst_nil
  | succ n ih => exact ih.shadowed fun sh => by rw [shadowsOf_shiftPieces]; split <;> simp

/-- No Operation assigns a register another value after one of its bytes. -/
theorem plan_assignsFirst {b : Build} {sh : Shadows} {c : DisplayConfig} {i : Instr} {ps : List Piece}
    (hpl : plan b sh c i = .run ps) : AssignsFirst ps := by
  have shadowed (r : Shadow) (v : Byte) : AssignsFirst [.assign r v, .byte false v] :=
    assignsFirst_nil.shadowed fun _ => rfl
  have byte (v : Byte) : AssignsFirst [.byte false v] := assignsFirst_nil.byte (fun _ => rfl) false v
  have byteThenWait (v : Byte) (t : Wait) : AssignsFirst [.byte false v, .wait t] :=
    assignsFirst_wait.byte (fun _ => rfl) false v
  cases i <;> simp only [plan] at hpl
  case write =>
    obtain ⟨_, codes, _, rfl⟩ := plan_write_run (b := b) (sh := sh) (c := c) hpl
    exact assignsFirst_bytes codes
  case clear | home => cases hpl; exact byteThenWait _ _
  case setCursor => cases hpl; exact byte _
  case scroll => cases hpl; exact assignsFirst_shiftPieces _ _
  case moveLeft | moveRight => split at hpl <;> cases hpl; exact assignsFirst_shiftPieces _ _
  case enable | disable => split at hpl <;> cases hpl; exact shadowed _ _
  case createChar =>
    split at hpl <;> cases hpl
    exact (assignsFirst_bytes _).byte (shadowsOf_bytes _) false _
  all_goals cases hpl

/-- Settles O58: the failing call lies in one of the bytes of the plan, and the registers are then those the whole
plan leaves. -/
theorem busErrorStopsTheOperationAtTheCall : Obligations.BusErrorStopsTheOperationAtTheCall := by
  intro i s q d ev k e hi h hx htr hk
  rcases operation_events (s := quieted s) hi ⟨h.phase, h.display, h.admitted⟩ (busQuiet_quieted s) hx htr
    with ⟨_, _, rfl⟩ | ⟨ps, hpl, rfl, rfl⟩
  · simp [busCalls] at hk
  · rw [busCalls_eventsOf] at hk
    obtain ⟨before, a, v, after, f, hsplit, _, hrun, hstop⟩ := runStmts_stoppedAt (s := failsAfter s k e) h.admitted
      rfl (drivenLines_expand d.cfg ps) hk
    obtain ⟨qs, r, b, rs, hps, hsh⟩ := expand_split d.cfg a v after ps before hsplit
    obtain ⟨t, ht, htrace, hphase, hreplies, hdisplay, hlevels, hkept⟩ := hstop.takeBusError (.busError e)
    refine ⟨t, ?exec, htrace, hphase, hreplies, ?display, hlevels, hkept⟩
    case exec =>
      rw [exec_operation hi (s := failsAfter s k e) h.phase h.display]
      simp only [failsAfter_build, show plan s.build d.sh d.cfg i = .run ps from hpl, Plan.carryOut,
        State.runOperation, hrun]
      exact ht
    case display =>
      rw [hdisplay]
      simp [applyStmts_display, h.display, shadowsAfter_expand, hsh,
        plan_assignsFirst hpl qs r b rs hps]

/-! ## stop (R201) -/

/-- Settles O59: the register is assigned before the one byte of `stop`, in which the failing call lies. -/
theorem busErrorStopsTheShutdown : Obligations.BusErrorStopsTheShutdown := by
  intro s q d ev k e h hx htr hk
  rw [exec_stop_of_quiet (s := quieted s) ⟨h.phase, h.display, h.admitted⟩ (busQuiet_quieted s),
    quieted_build] at hx
  cases hx
  obtain rfl := events_of_trace (s := quieted s) (l := expand d.cfg _) htr
  rw [busCalls_eventsOf] at hk
  obtain ⟨before, a, v, after, f, hsplit, _, hrun, hstop⟩ := runStmts_stoppedAt (s := failsAfter s k e) h.admitted
    rfl (drivenLines_expand d.cfg _) hk
  obtain ⟨qs, r, b, rs, hps, hsh⟩ := expand_split d.cfg a v after _ before hsplit
  obtain ⟨t, ht, htrace, hphase, hreplies, hdisplay, hlevels, hkept⟩ := hstop.takeBusError (.busError e)
  refine ⟨t, ?exec, htrace, hphase, hreplies, ?display, hlevels, hkept⟩
  case exec =>
    rw [expand_shadowed] at hrun
    simp only [exec, execStop, show (failsAfter s k e).phase = .ready from h.phase, if_true, State.withDisplay,
      failsAfter_display, h.display, disableFlag,
      failsAfter_build]
    rw [hrun]
    exact ht
  case display =>
    rw [hdisplay]
    simp only [failsAfter_display, h.display, Option.map_some, hsh,
      (assignsFirst_nil.shadowed fun _ => rfl) qs r b rs hps]
    rfl

/-! ## start (R213, R250) -/

/-- The sequencer state in which the `k`-th call of a start lies (R118, R242 to R248). -/
def startStateAt : BusMode → Nat → Phase
  | .four, k =>
    if k < 2 then .reset else if k < 26 then .forceMode else if k < 39 then .configureFunction
    else if k < 52 then .configureDisplay else if k < 65 then .clear
    else if k < 78 then .configureEntryMode else .configureShiftControl
  | .eight, k =>
    if k < 2 then .reset else if k < 35 then .configureFunction
    else if k < 46 then .configureDisplay else if k < 57 then .clear
    else if k < 68 then .configureEntryMode else .configureShiftControl

theorem phaseAtCall_sequencer (k : Codes) (d : DisplayState) {n : Nat}
    (hn : n < (drivenLines (sequencer k d sequencerStates)).length) :
    phaseAtCall k d sequencerStates n .reset = startStateAt d.cfg.busMode n := by
  obtain ⟨h1, h2, h3, h4, h5, h6, h7⟩ := stateCalls_values k d
  have sub_lt (a b : Nat) (hb : 0 < b) : n - a < b ↔ n < a + b := by omega
  rw [length_drivenLines_sequencer] at hn
  cases hm : d.cfg.busMode <;>
    simp only [hm, reduceCtorEq, if_true, if_false] at hn h2 h3 h4 h5 h6 h7 <;>
    simp only [sequencerStates, phaseAtCall, Phase.following, h1, h2, h3, h4, h5, h6, h7, startStateAt, Nat.sub_sub,
      sub_lt _ _ (Nat.succ_pos _), Nat.reduceAdd, hn, if_true, Nat.not_lt_zero, if_false]

/-- The phases in which `start` has not assigned a register yet. -/
def preloadedStates : List Phase := [.reset, .forceMode, .configureFunction]

theorem phaseAtCall_mem (k : Codes) (d : DisplayState) (ps : List Phase) (n : Nat) (q : Phase) :
    phaseAtCall k d ps n q ∈ q :: ps.map Phase.following := by
  induction ps generalizing n q with
  | nil => exact List.mem_singleton_self q
  | cons p ps ih =>
    rw [phaseAtCall]
    split
    · exact List.mem_cons_self
    · exact List.mem_cons_of_mem q (ih _ _)

theorem shadowsAtCall_of_not_mem (k : Codes) (d : DisplayState) {ps : List Phase}
    (h : .configureDisplay ∉ ps) (n : Nat) (sh : Shadows) : shadowsAtCall k d ps n sh = sh := by
  induction ps generalizing n with
  | nil => rfl
  | cons p ps ih =>
    rw [List.mem_cons, not_or] at h
    rw [shadowsAtCall, stateShadows, if_neg (Ne.symm h.1), ih h.2, ite_self]

/-- One more state that assigns no register, entered in a phase before the assignment. -/
theorem shadowsAtCall_cons {k : Codes} {d : DisplayState} {ps : List Phase} {p q : Phase} {sh sh' : Shadows}
    (hp : p ≠ .configureDisplay) (hq : q ∈ preloadedStates)
    (h : ∀ n, shadowsAtCall k d ps n sh =
      if phaseAtCall k d ps n p.following ∈ preloadedStates then sh else sh') (n : Nat) :
    shadowsAtCall k d (p :: ps) n sh =
      if phaseAtCall k d (p :: ps) n q ∈ preloadedStates then sh else sh' := by
  rw [shadowsAtCall, phaseAtCall, stateShadows, if_neg hp]
  by_cases hn : n < stateCalls k d p
  · rw [if_pos hn, if_pos hn, if_pos hq]
  · rw [if_neg hn, if_neg hn]
    exact h _

/-- The display bit is set from `ConfigureDisplay` on, and no other register changes. -/
theorem shadowsAtCall_sequencer (k : Codes) (d : DisplayState) (n : Nat) (sh : Shadows) :
    shadowsAtCall k d sequencerStates n sh =
      if phaseAtCall k d sequencerStates n .reset ∈ preloadedStates then sh
      else sh.set .displayControl (setFlags d.sh.displayControl k.dcDisplay) := by
  refine shadowsAtCall_cons (by decide) (by decide) (shadowsAtCall_cons (by decide) (by decide)
    (shadowsAtCall_cons (by decide) (by decide) fun m => ?_)) n
  have hphase : ∀ q ∈ Phase.configureDisplay ::
      [Phase.configureDisplay, .clear, .configureEntryMode, .configureShiftControl].map Phase.following,
      q ∉ preloadedStates := by decide
  rw [Phase.following, if_neg (hphase _ (phaseAtCall_mem k d _ m _)), shadowsAtCall, stateShadows, if_pos rfl,
    shadowsAtCall_of_not_mem k d (by decide), ite_self]

/-- Settles O60: the states' calls are counted, and the registers are those preloaded until the display bit is
set. -/
theorem busErrorInStartIsAnInitializationError : Obligations.BusErrorInStartIsAnInitializationError := by
  intro ci s q w p c ev k e hb hw hp hc ha hx htr hk state
  obtain ⟨t0, ht0, _, htr0⟩ := start_of_quiet (s := quieted s) hb hw hp hc ha (busQuiet_quieted s)
  cases hx.symm.trans ht0
  obtain rfl := List.append_cancel_left (htr.symm.trans htr0)
  rw [busCalls_eventsOf, quieted_build] at hk
  have hstate : phaseAtCall s.build.codes ⟨c, preload s.build.codes c⟩ sequencerStates k .reset = state := by
    rw [phaseAtCall_sequencer _ _ hk]
    cases hm : c.busMode <;> simp only [state, hm, startStateAt, reduceCtorEq, if_true, if_false]
  obtain ⟨before, a, v, after, f, hsplit, hcalls, hrun, hstop⟩ :=
    runStmts_stoppedAt (s := (failsAfter s k e).beginStart c) ha rfl
      (drivenLines_sequencer s.build.codes ⟨c, preload s.build.codes c⟩ sequencerStates) hk
  obtain ⟨hphaseAt, hshadowsAt⟩ := sequencer_split s.build.codes ⟨c, preload s.build.codes c⟩ a v after
    sequencerStates before .reset (preload s.build.codes c) hsplit
  rw [hcalls] at hphaseAt hshadowsAt
  have hfphase : f.phase = state := hstop.phase.trans (hphaseAt.trans hstate)
  obtain ⟨t, ht, htrace, hphase, hreplies, hdisplay, hlevels, hkept⟩ :=
    hstop.takeBusError (.initializationError e state)
  refine ⟨t, ?exec, htrace, hphase, hreplies, ?display, hlevels, hkept⟩
  case exec =>
    rw [exec_start (s := failsAfter s k e) hb hw hp hc ha]
    simp only [runStart]
    rw [failsAfter_build, hrun, ← ht, ← hfphase]
  case display =>
    rw [hdisplay]
    change some (DisplayState.mk c (shadowsAfter before (preload s.build.codes c))) = _
    rw [hshadowsAt, shadowsAtCall_sequencer, hstate]
    subst hc
    rw [← functionSetOf_ofInput]
    simp only [preloadedStates, List.mem_cons, List.not_mem_nil, or_false]
    split <;> rfl

end Sys2Proof.Machine
end
